-- ==== Sys2Proof/Word.lean ====
section
/-! DEFINITION. The word types of the block (spec/00_scope.md R7, R14): the 64-bit limb, the byte, the 32-bit
command word, and a wide value as its sequence of limbs, limb 0 first. -/

namespace Sys2Proof

/-- A byte of the byte-stream source. -/
abbrev Byte := BitVec 8

/-- A limb: LIMB_W = 64 bits (R7). Borrow flags, CSR values and data operands have the same width. -/
abbrev Limb := BitVec 64

/-- A 32-bit command word (R70). -/
abbrev CmdWord := BitVec 32

/-- A wide value: its limbs in index order, limb 0 (least significant) first (R14). That a wide register holds
exactly LIMBS limbs is part of the invariant of the machine (Sys2Proof/Safety.lean). -/
abbrev Wide := List Limb

/-- `ONES64` (R13). -/
abbrev ones64 : Limb := 0xFFFFFFFFFFFFFFFF#64

end Sys2Proof
end

