-- ==== Sys2Proof/Config.lean ====
section
/-! DEFINITION. The constants of an instance (spec/00_scope.md R7 to R11). LIMBS and MAX_ATTEMPTS are OPEN
parameters of the spec (92_eei_decisions.md D2, D4): a `Config` is plain data that State carries and no step
changes, so a statement about every state is a statement about every configuration (log 1). -/

namespace Sys2Proof

/-- `LIMB_W` (R7). -/
abbrev limbW : Nat := 64

/-- `NWREG`, the number of wide general registers (R10). -/
abbrev nwReg : Nat := 4

/-- The parameters of one instance. -/
structure Config where
  /-- `LIMBS` (R8). -/
  limbs : Nat
  /-- `MAX_ATTEMPTS` (R11). -/
  maxAttempts : Nat
  deriving DecidableEq, Repr

/-- `WIDTH = LIMB_W × LIMBS` (R9). -/
abbrev Config.width (c : Config) : Nat := limbW * c.limbs

/-- The ranges the spec gives the two parameters (R8, R11). -/
abbrev Config.Valid (c : Config) : Prop :=
  1 ≤ c.limbs ∧ c.limbs ≤ 1023 ∧ 1 ≤ c.maxAttempts ∧ c.maxAttempts < 2 ^ 64

/-- The reference configuration: LIMBS = 5 (R8). The spec gives MAX_ATTEMPTS no value; 2^64 − 1, the largest
one R11 allows, is a DESIGN CHOICE (log 1) and no statement rests on it. -/
def Config.reference : Config := { limbs := 5, maxAttempts := 2 ^ 64 - 1 }

end Sys2Proof
end

