-- ==== Sys2Proof/Syntax.lean ====
section
/-! DEFINITION. The command set as syntax: one constructor per row of spec/opcode_table.json
(spec/30_encoding.md R76), with the operands R81 gives it. A register operand is the 4-bit field of the command
word and an immediate its 16-bit field, because a field that names nothing is a legal encoding which the block
answers with a status code (R73, R79). The 64-bit data operand that comes with the word (R70) is an operand of
the two commands that read it. -/

namespace Sys2Proof

/-- The fifteen commands. -/
inductive Instr where
  /-- `WRL Wd, idx, data` (R190). -/
  | wrl (rd : BitVec 4) (idx : BitVec 16) (data : Limb)
  /-- `RDL Wa, idx` (R191). -/
  | rdl (ra : BitVec 4) (idx : BitVec 16)
  /-- `CLR Wd` (R192). -/
  | clr (rd : BitVec 4)
  /-- `MOV Wd, Wa` (R193). -/
  | mov (rd ra : BitVec 4)
  /-- `SUB Wd, Wa, Wb` (R106). -/
  | sub (rd ra rb : BitVec 4)
  /-- `SBB Wd, Wa, Wb` (R107). -/
  | sbb (rd ra rb : BitVec 4)
  /-- `LT Wa, Wb` (R123). -/
  | lt (ra rb : BitVec 4)
  /-- `GT Wa, Wb` (R124). -/
  | gt (ra rb : BitVec 4)
  /-- `EQ Wa, Wb` (R125). -/
  | eq (ra rb : BitVec 4)
  /-- `SETMOD Wa` (R161). -/
  | setmod (ra : BitVec 4)
  /-- `RDMOD idx` (R163). -/
  | rdmod (idx : BitVec 16)
  /-- `GEN Wd, len` (R148). -/
  | gen (rd : BitVec 4) (len : BitVec 16)
  /-- `SAMPLE Wd` (R166). -/
  | sample (rd : BitVec 4)
  /-- `RDCSR csr` (R194). -/
  | rdcsr (csr : BitVec 16)
  /-- `WRCSR csr, data` (R195). -/
  | wrcsr (csr : BitVec 16) (data : Limb)
  deriving DecidableEq, Repr

/-- What the host delivers on the command port: a command word and a data operand (R70). -/
structure Command where
  word : CmdWord
  data : Limb
  deriving DecidableEq, Repr

/-- The two ways a command word names no command (R75, R77). -/
inductive DecodeError where
  /-- The opcode is not one of the fifteen (R77). -/
  | illegalOpcode
  /-- The opcode is one of the fifteen and a reserved-zero bit of its format is 1 (R75). -/
  | reservedField
  deriving DecidableEq, Repr

end Sys2Proof
end

