-- ==== Sys2Proof/Decode.lean ====
section
/-! DEFINITION. The decoder and the encoder, from spec/30_encoding.md R70 to R77. The decoder is total: a command
is one of the fifteen, or has an illegal opcode, or has a reserved bit set. FATAL and the operand ranges are no
matter of decoding (R80 checks them before and after). -/

namespace Sys2Proof

/-- `op = cmd[31:24]` (R71). -/
def fieldOp (w : CmdWord) : BitVec 8 := w.extractLsb' 24 8

/-- `rd = cmd[23:20]` (R73). -/
def fieldRd (w : CmdWord) : BitVec 4 := w.extractLsb' 20 4

/-- `ra = cmd[19:16]` (R73). -/
def fieldRa (w : CmdWord) : BitVec 4 := w.extractLsb' 16 4

/-- `rb = cmd[15:12]` (R73). -/
def fieldRb (w : CmdWord) : BitVec 4 := w.extractLsb' 12 4

/-- `imm16 = cmd[15:0]` (R74). -/
def fieldImm (w : CmdWord) : BitVec 16 := w.extractLsb' 0 16

/-- The reserved-zero bits of a word under an opcode: the table's mask less the opcode bits (R76, R80);
`none` for the 241 opcodes the table does not assign (R77). -/
def reservedMask (op : BitVec 8) : Option CmdWord :=
  match op with
  | 0x01#8 => some 0x000F0000#32
  | 0x02#8 => some 0x00F00000#32
  | 0x03#8 => some 0x000FFFFF#32
  | 0x04#8 => some 0x0000FFFF#32
  | 0x10#8 => some 0x00000FFF#32
  | 0x11#8 => some 0x00000FFF#32
  | 0x12#8 => some 0x00F00FFF#32
  | 0x13#8 => some 0x00F00FFF#32
  | 0x14#8 => some 0x00F00FFF#32
  | 0x20#8 => some 0x00F0FFFF#32
  | 0x21#8 => some 0x00FF0000#32
  | 0x22#8 => some 0x000F0000#32
  | 0x23#8 => some 0x000FFFFF#32
  | 0x30#8 => some 0x00FF0000#32
  | 0x31#8 => some 0x00FF0000#32
  | _ => none

/-- The command an assigned opcode selects, with the fields of its format (R72, R76). -/
def buildInstr (c : Command) : Option Instr :=
  match fieldOp c.word with
  | 0x01#8 => some (.wrl (fieldRd c.word) (fieldImm c.word) c.data)
  | 0x02#8 => some (.rdl (fieldRa c.word) (fieldImm c.word))
  | 0x03#8 => some (.clr (fieldRd c.word))
  | 0x04#8 => some (.mov (fieldRd c.word) (fieldRa c.word))
  | 0x10#8 => some (.sub (fieldRd c.word) (fieldRa c.word) (fieldRb c.word))
  | 0x11#8 => some (.sbb (fieldRd c.word) (fieldRa c.word) (fieldRb c.word))
  | 0x12#8 => some (.lt (fieldRa c.word) (fieldRb c.word))
  | 0x13#8 => some (.gt (fieldRa c.word) (fieldRb c.word))
  | 0x14#8 => some (.eq (fieldRa c.word) (fieldRb c.word))
  | 0x20#8 => some (.setmod (fieldRa c.word))
  | 0x21#8 => some (.rdmod (fieldImm c.word))
  | 0x22#8 => some (.gen (fieldRd c.word) (fieldImm c.word))
  | 0x23#8 => some (.sample (fieldRd c.word))
  | 0x30#8 => some (.rdcsr (fieldImm c.word))
  | 0x31#8 => some (.wrcsr (fieldImm c.word) c.data)
  | _ => none

/-- The decoder, in the order of R80: the opcode first, then the reserved bits. -/
def decode (c : Command) : Except DecodeError Instr :=
  match reservedMask (fieldOp c.word), buildInstr c with
  | some m, some i => if c.word &&& m = 0#32 then .ok i else .error .reservedField
  | _, _ => .error .illegalOpcode

/-- A command word from its fields: op, rd, ra and the low half-word, most significant first (R72). -/
def packWord (op : BitVec 8) (rd ra : BitVec 4) (low : BitVec 16) : CmdWord := op ++ rd ++ ra ++ low

/-- The low half-word of the formats DAB and AB: rb and twelve reserved zeros (R72). -/
def lowRb (rb : BitVec 4) : BitVec 16 := rb ++ 0#12

/-- The command word of a command: the opcode of R76 in its format of R72, reserved fields zero. -/
def encodeWord : Instr → CmdWord
  | .wrl rd idx _ => packWord 0x01#8 rd 0#4 idx
  | .rdl ra idx => packWord 0x02#8 0#4 ra idx
  | .clr rd => packWord 0x03#8 rd 0#4 0#16
  | .mov rd ra => packWord 0x04#8 rd ra 0#16
  | .sub rd ra rb => packWord 0x10#8 rd ra (lowRb rb)
  | .sbb rd ra rb => packWord 0x11#8 rd ra (lowRb rb)
  | .lt ra rb => packWord 0x12#8 0#4 ra (lowRb rb)
  | .gt ra rb => packWord 0x13#8 0#4 ra (lowRb rb)
  | .eq ra rb => packWord 0x14#8 0#4 ra (lowRb rb)
  | .setmod ra => packWord 0x20#8 0#4 ra 0#16
  | .rdmod idx => packWord 0x21#8 0#4 0#4 idx
  | .gen rd len => packWord 0x22#8 rd 0#4 len
  | .sample rd => packWord 0x23#8 rd 0#4 0#16
  | .rdcsr csr => packWord 0x30#8 0#4 0#4 csr
  | .wrcsr csr _ => packWord 0x31#8 0#4 0#4 csr

/-- The data operand of a command; 0 where the syntax gives none (R81; log 11). -/
def encodeData : Instr → Limb
  | .wrl _ _ data => data
  | .wrcsr _ data => data
  | _ => 0#64

/-- The encoder. -/
def encode (i : Instr) : Command := { word := encodeWord i, data := encodeData i }

/-- A command read from bits numbered as the opcode table numbers them: the word in bits 31:0, the data operand
above it, and every bit from `nbits` up zero. -/
def commandOfBits (nbits w : Nat) : Command :=
  { word := BitVec.ofNat 32 (w % 2 ^ nbits), data := BitVec.ofNat 64 (w % 2 ^ nbits / 2 ^ 32) }

/-- The instruction the decoder reads from those bits. -/
def decodeTableWord (nbits w : Nat) : Option Instr :=
  match decode (commandOfBits nbits w) with
  | .ok i => some i
  | .error _ => none

end Sys2Proof
end

