-- ==== Sys2Proof/Machine/State.lean ====
section
/-! DEFINITION. The state of one instance (spec/10_state.md R20, R36 to R39), plain data: the architectural
registers, the hidden state, the constants of the instance, and the two collaborators' scripts (what the source
will answer and what the host will do), any of which a state may hold (log 2, log 5). -/

namespace Sys2Proof.Machine

/-- The status codes (R213). -/
inductive Status where
  | ok | illegalOpcode | reservedField | badRegister | badIndex | badLength | readOnly
  | zeroModulus | noModulus | sourceFail | retryExceeded | faulted
  deriving DecidableEq, Repr

/-- A completion response: status and data word (R211). -/
structure Completion where
  status : Status
  data : Limb
  deriving DecidableEq, Repr

/-- A wide general register W0 to W3 (R22). -/
inductive WReg where
  | w0 | w1 | w2 | w3
  deriving DecidableEq, Repr

/-- The wide register file (R22). -/
structure WFile where
  w0 : Wide
  w1 : Wide
  w2 : Wide
  w3 : Wide
  deriving DecidableEq, Repr

/-- The controller state CSTATE (R36). -/
inductive CState where
  | idle | sampling | accepted | fault
  deriving DecidableEq, Repr

/-- The eight bytes of an `ok` answer, `b0` the earliest (R142). -/
structure Fill where
  b0 : Byte
  b1 : Byte
  b2 : Byte
  b3 : Byte
  b4 : Byte
  b5 : Byte
  b6 : Byte
  b7 : Byte
  deriving DecidableEq, Repr

/-- One event of the source's script: an answer to the outstanding request (R142), or `pending`: the request stays
unanswered for the rest of this step of the model (R143; log 3). -/
inductive SrcEvent where
  | ok (bytes : Fill)
  | fail
  | pending
  deriving DecidableEq, Repr

/-- One move of the host: nothing, a command (R70), or the reset input (R240). -/
inductive HostMove where
  | quiet
  | command (c : Command)
  | reset
  deriving DecidableEq, Repr

/-- The command that draws from the source: GEN with its destination and bit length, SAMPLE with its
destination (R141). -/
inductive Job where
  | gen (rd : WReg) (len : Nat)
  | sample (rd : WReg)
  deriving DecidableEq, Repr

/-- Where a GEN or SAMPLE in progress stands: the limb the next answer fills (`i` of R146) and the draws
completed (`k` of R166; 0 for GEN). -/
structure InFlight where
  job : Job
  limb : Nat
  draws : Nat
  deriving DecidableEq, Repr

/-- The state of the machine. -/
structure State where
  /-- LIMBS and MAX_ATTEMPTS, constants of the instance (R8, R11, R20). -/
  cfg : Config
  /-- W0 to W3 (R22). -/
  w : WFile
  /-- MOD (R24). -/
  mod : Wide
  /-- MODV (R25). -/
  modv : Bool
  /-- BORROW, 64 bits (R26). -/
  borrow : Limb
  /-- CT, 1 bit (R27). -/
  ct : BitVec 1
  /-- FATAL (R28). -/
  fatal : Bool
  /-- LAST, 8 bits (R29). -/
  last : BitVec 8
  /-- ATTEMPTS, 64 bits (R30). -/
  attempts : Limb
  /-- CSTATE (R36). -/
  cstate : CState
  /-- CAND (R37). -/
  cand : Wide
  /-- A SrcFill8 request is outstanding (R38). -/
  srcBusy : Bool
  /-- The GEN or SAMPLE that waits for the source; none between commands (the model's own; log 3). -/
  inflight : Option InFlight
  /-- The completion on the host port; none while a command is in progress and after reset (R211; log 7). -/
  response : Option Completion
  /-- What the source will answer, next event first (R12, R142; log 2). -/
  source : List SrcEvent
  /-- What the host will do, next move first (R59, R246; log 5). -/
  host : List HostMove
  deriving DecidableEq, Repr

/-- The reasons to stop with a fault. There are none: the block has no traps (R210), every error is a status code of
a completion, and a source that never answers is a hang, not a fault (R143; log 18). Safe: nothing raises it. -/
inductive Fault where
  deriving DecidableEq, Repr

/-- The reasons to refuse an instruction. -/
inductive Refusal where
  /-- The instruction has no meaning in the model yet. Raised by arms of `exec` alone; no arm raises it now. Safe. -/
  | notModelled (mnemonic : String)
  deriving DecidableEq, Repr

/-- The machine right after reset, in the reference configuration (R39, R240): every element at the value of R39,
no completion on the port, no command in progress. The source's script and the host's script are the environment's;
here both are empty (log 1, log 2, log 5). -/
def State.reset : State where
  cfg := Config.reference
  w := { w0 := List.replicate Config.reference.limbs 0#64, w1 := List.replicate Config.reference.limbs 0#64,
         w2 := List.replicate Config.reference.limbs 0#64, w3 := List.replicate Config.reference.limbs 0#64 }
  mod := List.replicate Config.reference.limbs 0#64
  modv := false
  borrow := 0#64
  ct := 0#1
  fatal := false
  last := 0x00#8
  attempts := 0#64
  cstate := .idle
  cand := List.replicate Config.reference.limbs 0#64
  srcBusy := false
  inflight := none
  response := none
  source := []
  host := []

end Sys2Proof.Machine
end

