-- ==== Sys2Proof/Machine/Operands.lean ====
section
/-! DEFINITION. Every operand form of the command set: wide values and their limbs and bits (spec/00_scope.md R14),
register fields (30_encoding.md R73), limb indexes and lengths (R74), CSR numbers and their contents
(10_state.md R31 to R34), the bytes and masks of the random-bits interface (42_random_bits.md R145, R146), and the
8-bit status codes (60_exceptions.md R213). -/

namespace Sys2Proof.Machine

/-- The value of a wide value, Σ limb[i] × 2^(64·i), written from the least significant limb on (R14). -/
def wideVal : Wide → Nat
  | [] => 0
  | l :: ls => l.toNat + 2 ^ 64 * wideVal ls

/-- `X.limb[k]` (R14). -/
def wideLimb (x : Wide) (k : Nat) : Limb := x.getD k 0#64

/-- Bit `p` of `X`: `X.limb[p div 64][p mod 64]` (R14). -/
def wideBit (x : Wide) (p : Nat) : Bool := (wideLimb x (p / 64)).getLsbD (p % 64)

/-- The all-zero wide value of `n` limbs. -/
def wideZero (n : Nat) : Wide := List.replicate n 0#64

/-- The register a 4-bit register field selects; 4 to 15 select nothing (R73). -/
def selectW (r : BitVec 4) : Option WReg :=
  match r with
  | 0#4 => some .w0
  | 1#4 => some .w1
  | 2#4 => some .w2
  | 3#4 => some .w3
  | _ => none

/-- Read a wide register from the file. -/
def WFile.get (f : WFile) : WReg → Wide
  | .w0 => f.w0
  | .w1 => f.w1
  | .w2 => f.w2
  | .w3 => f.w3

/-- Write all limbs of a wide register at once (R55). -/
def WFile.set (f : WFile) (r : WReg) (x : Wide) : WFile :=
  match r with
  | .w0 => { f with w0 := x }
  | .w1 => { f with w1 := x }
  | .w2 => { f with w2 := x }
  | .w3 => { f with w3 := x }

/-- The 8-bit code of a status (R213). -/
def Status.code : Status → BitVec 8
  | .ok => 0x00#8
  | .illegalOpcode => 0x01#8
  | .reservedField => 0x02#8
  | .badRegister => 0x03#8
  | .badIndex => 0x04#8
  | .badLength => 0x05#8
  | .readOnly => 0x06#8
  | .zeroModulus => 0x07#8
  | .noModulus => 0x08#8
  | .sourceFail => 0x09#8
  | .retryExceeded => 0x0A#8
  | .faulted => 0x0B#8

/-- CSR STATUS: LAST in bits 7:0, FATAL in bit 8, MODV in bit 9, the rest 0 (R32). -/
def statusWord (s : State) : Limb := 0#54 ++ BitVec.ofBool s.modv ++ BitVec.ofBool s.fatal ++ s.last

/-- CSR CONFIG: LIMBS in bits 15:0, NWREG in bits 23:16, LIMB_W in bits 31:24, the rest 0 (R34). -/
def configWord (c : Config) : Limb := 0#32 ++ BitVec.ofNat 8 limbW ++ BitVec.ofNat 8 nwReg ++ BitVec.ofNat 16 c.limbs

/-- The content of a CSR; `none` for the numbers that are not present (R31 to R34). -/
def csrRead (csr : BitVec 16) (s : State) : Option Limb :=
  match csr with
  | 0x0000#16 => some (statusWord s)
  | 0x0001#16 => some s.borrow
  | 0x0002#16 => some (s.ct.setWidth 64)
  | 0x0003#16 => some s.attempts
  | 0x0004#16 => some (configWord s.cfg)
  | 0x0005#16 => some (BitVec.ofNat 64 s.cfg.maxAttempts)
  | _ => none

/-- `active(n) = ceil(n / 64)` (R145). -/
def activeLimbs (n : Nat) : Nat := (n + 63) / 64

/-- `top(n) = active(n) − 1` (R145). -/
def topLimb (n : Nat) : Nat := activeLimbs n - 1

/-- `mask(n)`: all ones when 64 divides n, else the low `n mod 64` bits (R145). -/
def topMask (n : Nat) : Limb := if n % 64 = 0 then ones64 else BitVec.ofNat 64 (2 ^ (n % 64) - 1)

/-- The eight bytes of an answer as a limb, little-endian: `b0` is bits 7:0 (R54, R146). -/
def fillWord (b : Fill) : Limb := b.b7 ++ b.b6 ++ b.b5 ++ b.b4 ++ b.b3 ++ b.b2 ++ b.b1 ++ b.b0

/-- The limb with index `i` of a draw of `n` bits: the answer's limb, masked when it is the top one (R146). -/
def drawnLimb (n i : Nat) (b : Fill) : Limb := if i = topLimb n then fillWord b &&& topMask n else fillWord b

/-- The bit length a job draws: `len` for GEN, WIDTH for SAMPLE (R148, R164). -/
def Job.bits (c : Config) : Job → Nat
  | .gen _ len => len
  | .sample _ => c.width

/-- The register a job writes when it succeeds. -/
def Job.dest : Job → WReg
  | .gen rd _ => rd
  | .sample rd => rd

end Sys2Proof.Machine
end

