-- ==== Sys2Proof/Machine/Flags.lean ====
section
/-! DEFINITION. The borrow flag and the constant-time comparisons: the limb and wide subtract-with-borrow
(spec/40_subtract.md R100, R101, R104) and less-than, greater-than and equality (41_compare.md R120 to R122). -/

namespace Sys2Proof.Machine

/-- The borrow bit of a borrow flag: bit 63, the only one that carries meaning (R100). -/
def borrowBit (f : Limb) : BitVec 1 := f.extractLsb' 63 1

/-- `limb_sbb(a, b, f)`: the difference mod 2^64 and the outgoing flag, both cut from the 128-bit difference (R101). -/
def limbSbb (a b f : Limb) : Limb × Limb :=
  let t : BitVec 128 := a.setWidth 128 - b.setWidth 128 - (borrowBit f).setWidth 128
  (t.extractLsb' 0 64, t.extractLsb' 64 64)

/-- `wide_sbb(X, Y, f)`: the ripple-borrow chain over all limbs, least significant first (R104). -/
def wideSbb : Wide → Wide → Limb → Wide × Limb
  | x :: xs, y :: ys, f =>
    let (d, f1) := limbSbb x y f
    let (ds, f2) := wideSbb xs ys f1
    (d :: ds, f2)
  | _, _, f => ([], f)

/-- `lt(X, Y)`: the borrow bit of `X − Y`, the difference discarded (R120). -/
def wideLt (x y : Wide) : BitVec 1 := borrowBit (wideSbb x y 0#64).2

/-- `gt(X, Y) = lt(Y, X)` (R122). -/
def wideGt (x y : Wide) : BitVec 1 := wideLt y x

/-- The OR over all limb pairs of their XOR (R121). -/
def xorAccumulate : Wide → Wide → Limb → Limb
  | x :: xs, y :: ys, acc => xorAccumulate xs ys (acc ||| (x ^^^ y))
  | _, _, acc => acc

/-- `eq(X, Y)`: the accumulator reduced through its two's-complement negation and top bit (R121). -/
def wideEq (x y : Wide) : BitVec 1 :=
  let acc := xorAccumulate x y 0#64
  let neg := 0#64 - acc
  let nz := ((acc ||| neg) >>> 63) &&& 1#64
  (nz ^^^ 1#64).setWidth 1

end Sys2Proof.Machine
end

