-- ==== Sys2Proof/Machine/Ops.lean ====
section
/-! DEFINITION. The shared operations: completing a command (spec/60_exceptions.md R210 to R212, which is what this block
has in place of taking an exception and returning from one: R219, R220), the checks of R80 that follow decoding, reads
and writes of the wide registers, drawing from the source (42_random_bits.md R142 to R146), the loop of the sampling
controller (43_sampling.md R165 to R168), and reset (70_reset_and_hazards.md R240, R241). -/

namespace Sys2Proof.Machine

/-- Read a wide register. -/
def State.readW (s : State) (r : WReg) : Wide := s.w.get r

/-- Write a wide register, all limbs at once (R55). -/
def State.writeW (s : State) (r : WReg) (x : Wide) : State := { s with w := s.w.set r x }

/-- `finish(code, data)` (R212). `began` is the value FATAL had when the command began: where it was 1, LAST is frozen. -/
def State.finish (s : State) (began : Bool) (code : Status) (data : Limb) : State :=
  { s with
    last := if began then s.last else code.code
    cstate := if s.fatal then .fault else .idle
    srcBusy := false
    inflight := none
    response := some { status := code, data := data } }

/-- `finish` for a command that has not changed FATAL. -/
def State.complete (s : State) (code : Status) (data : Limb) : State := s.finish s.fatal code data

/-- The first check of R80: while FATAL = 1 the command completes with FAULTED (R216). -/
def unlessFatal (s : State) (run : State) : State := if s.fatal then s.complete .faulted 0#64 else run

/-- A register field must select a register, else BAD_REGISTER (R73, R80). -/
def withReg (s : State) (r : BitVec 4) (run : WReg → State) : State :=
  match selectW r with
  | some x => run x
  | none => s.complete .badRegister 0#64

/-- A limb index must be below LIMBS, else BAD_INDEX (R74, R80). -/
def withLimbIndex (s : State) (idx : BitVec 16) (run : Nat → State) : State :=
  if idx.toNat < s.cfg.limbs then run idx.toNat else s.complete .badIndex 0#64

/-- A GEN length must be at most WIDTH, else BAD_LENGTH (R80, R150). -/
def withLength (s : State) (len : BitVec 16) (run : Nat → State) : State :=
  if len.toNat ≤ s.cfg.width then run len.toNat else s.complete .badLength 0#64

/-- A CSR number must be present, else BAD_INDEX; its content before this command's own completion (R80, R194). -/
def withCsr (s : State) (csr : BitVec 16) (run : Limb → State) : State :=
  match csrRead csr s with
  | some v => run v
  | none => s.complete .badIndex 0#64

/-- WRCSR may write BORROW alone, else READ_ONLY (R35, R80). -/
def withWritableCsr (s : State) (csr : BitVec 16) (run : State) : State :=
  if csr = 0x0001#16 then run else s.complete .readOnly 0#64

/-- SAMPLE needs an admitted modulus, else NO_MODULUS (R80, R166). -/
def withModulus (s : State) (run : State) : State := if s.modv then run else s.complete .noModulus 0#64

/-- What a draw leaves after one of its answers: the command goes on, or it has ended. -/
inductive Progress where
  | more (f : InFlight) (s : State)
  | done (s : State)
  deriving DecidableEq, Repr

/-- The command waits: its request is outstanding and the source has not answered (R38, R143). Everything else is
kept. -/
def State.await (s : State) (f : InFlight) : State :=
  { s with srcBusy := true, inflight := some f, response := none }

/-- The head of SAMPLE's loop: the ceiling check before a draw, then the start of the draw with CAND cleared
(R146, R166, R167). -/
def sampleHead (rd : WReg) (k : Nat) (s : State) : Progress :=
  if k = s.cfg.maxAttempts then
    .done ({ s with attempts := BitVec.ofNat 64 k, fatal := true, cstate := .fault }.finish false .retryExceeded 0#64)
  else
    .more { job := .sample rd, limb := 0, draws := k } { s with cand := wideZero s.cfg.limbs }

/-- A candidate below MOD is accepted (R166): the controller passes through ACCEPTED and the result is written. -/
def sampleAccept (rd : WReg) (k : Nat) (s : State) : State :=
  (({ s with cstate := .accepted, attempts := BitVec.ofNat 64 k }).writeW rd s.cand).complete .ok 0#64

/-- A draw is complete in CAND: GEN writes its register (R148); SAMPLE accepts the candidate or goes round (R166). -/
def drawComplete (f : InFlight) (s : State) : Progress :=
  match f.job with
  | .gen rd _ => .done ((s.writeW rd s.cand).complete .ok 0#64)
  | .sample rd =>
    if wideLt s.cand s.mod = 1#1 then .done (sampleAccept rd (f.draws + 1) s)
    else sampleHead rd (f.draws + 1) s

/-- One `ok` answer of the source goes into its limb of CAND (R146). -/
def takeFill (f : InFlight) (b : Fill) (s : State) : Progress :=
  let n := f.job.bits s.cfg
  let s1 := { s with cand := s.cand.set f.limb (drawnLimb n f.limb b) }
  if f.limb + 1 < activeLimbs n then .more { f with limb := f.limb + 1 } s1 else drawComplete f s1

/-- A `fail` answer ends the command with SOURCE_FAIL; SAMPLE records the draws completed (R144, R168). -/
def sourceFailed (f : InFlight) (s : State) : State :=
  match f.job with
  | .gen _ _ => s.complete .sourceFail 0#64
  | .sample _ => ({ s with attempts := BitVec.ofNat 64 f.draws }).complete .sourceFail 0#64

/-- The source transactions of a GEN or SAMPLE, one event of the script after the other, until the command ends or
the source leaves its request unanswered (R60, R142, R143). -/
def drive : List SrcEvent → InFlight → State → State
  | [], f, s => { s with source := [] }.await f
  | .pending :: src, f, s => { s with source := src }.await f
  | .fail :: src, f, s => sourceFailed f { s with source := src }
  | .ok b :: src, f, s =>
    match takeFill f b { s with source := src } with
    | .done t => t
    | .more f1 s1 => drive src f1 s1

/-- A command that draws starts or resumes: it goes on until it ends or waits. -/
def Progress.run : Progress → State
  | .done t => t
  | .more f s => drive s.source f s

/-- The script after the answer to a dropped request has been ignored: the events up to and with the first answer
are gone (R240; log 8). -/
def dropLateAnswer : List SrcEvent → List SrcEvent
  | [] => []
  | .pending :: src => dropLateAnswer src
  | .fail :: src => src
  | .ok _ :: src => src

/-- The reset input: every element at its reset value, no response, any outstanding request dropped and its later
answer ignored; the source is not touched otherwise, nor is the host (R39, R240, R241). -/
def assertReset (s : State) : State where
  cfg := s.cfg
  w := { w0 := wideZero s.cfg.limbs, w1 := wideZero s.cfg.limbs,
         w2 := wideZero s.cfg.limbs, w3 := wideZero s.cfg.limbs }
  mod := wideZero s.cfg.limbs
  modv := false
  borrow := 0#64
  ct := 0#1
  fatal := false
  last := 0x00#8
  attempts := 0#64
  cstate := .idle
  cand := wideZero s.cfg.limbs
  srcBusy := false
  inflight := none
  response := none
  source := if s.srcBusy then dropLateAnswer s.source else s.source
  host := s.host

/-- The status code a command word that is no command completes with (R75, R77). -/
def decodeStatus : DecodeError → Status
  | .illegalOpcode => .illegalOpcode
  | .reservedField => .reservedField

end Sys2Proof.Machine
end

