-- ==== Sys2Proof/Machine/Compare.lean ====
section
/-! DEFINITION. The constant-time comparisons LT, GT and EQ (spec/41_compare.md R123 to R125): CT is written and
answered zero-extended; BORROW and the wide registers are not written. -/

namespace Sys2Proof.Machine

/-- A comparison result goes to CT and to the host (R123 to R125, R211). -/
def State.answerCt (s : State) (v : BitVec 1) : State := { s with ct := v }.complete .ok (v.setWidth 64)

/-- LT: less-than (R123). -/
def execLt (ra rb : BitVec 4) (s : State) : Host.Outcome State Fault Refusal :=
  .next <| unlessFatal s <| withReg s ra fun a => withReg s rb fun b =>
    s.answerCt (wideLt (s.readW a) (s.readW b))

/-- GT: greater-than (R124). -/
def execGt (ra rb : BitVec 4) (s : State) : Host.Outcome State Fault Refusal :=
  .next <| unlessFatal s <| withReg s ra fun a => withReg s rb fun b =>
    s.answerCt (wideGt (s.readW a) (s.readW b))

/-- EQ: equality (R125). -/
def execEq (ra rb : BitVec 4) (s : State) : Host.Outcome State Fault Refusal :=
  .next <| unlessFatal s <| withReg s ra fun a => withReg s rb fun b =>
    s.answerCt (wideEq (s.readW a) (s.readW b))

end Sys2Proof.Machine
end

