-- ==== Sys2Proof/Machine/RegisterAccess.lean ====
section
/-! DEFINITION. The register access commands WRL, RDL, CLR, MOV, RDCSR and WRCSR (spec/44_register_access.md R190 to
R196). Each makes the checks of R80 in order, reads its inputs from the state it began in, and completes. -/

namespace Sys2Proof.Machine

/-- WRL: write one limb of a wide register (R190). -/
def execWrl (rd : BitVec 4) (idx : BitVec 16) (data : Limb) (s : State) : Host.Outcome State Fault Refusal :=
  .next <| unlessFatal s <| withReg s rd fun d => withLimbIndex s idx fun k =>
    (s.writeW d ((s.readW d).set k data)).complete .ok 0#64

/-- RDL: read one limb of a wide register (R191). -/
def execRdl (ra : BitVec 4) (idx : BitVec 16) (s : State) : Host.Outcome State Fault Refusal :=
  .next <| unlessFatal s <| withReg s ra fun a => withLimbIndex s idx fun k =>
    s.complete .ok (wideLimb (s.readW a) k)

/-- CLR: clear a wide register (R192). -/
def execClr (rd : BitVec 4) (s : State) : Host.Outcome State Fault Refusal :=
  .next <| unlessFatal s <| withReg s rd fun d =>
    (s.writeW d (wideZero s.cfg.limbs)).complete .ok 0#64

/-- MOV: copy a wide register (R193). -/
def execMov (rd ra : BitVec 4) (s : State) : Host.Outcome State Fault Refusal :=
  .next <| unlessFatal s <| withReg s rd fun d => withReg s ra fun a =>
    (s.writeW d (s.readW a)).complete .ok 0#64

/-- RDCSR: read a control or status register; it runs while FATAL = 1 too (R194, R216). -/
def execRdcsr (csr : BitVec 16) (s : State) : Host.Outcome State Fault Refusal :=
  .next <| withCsr s csr fun v => s.complete .ok v

/-- WRCSR: write BORROW, the one writable control register (R195). -/
def execWrcsr (csr : BitVec 16) (data : Limb) (s : State) : Host.Outcome State Fault Refusal :=
  .next <| unlessFatal s <| withCsr s csr fun _ => withWritableCsr s csr <|
    ({ s with borrow := data }).complete .ok 0#64

end Sys2Proof.Machine
end

