-- ==== Sys2Proof/Machine/Sampling.lean ====
section
/-! DEFINITION. Modulus admission, random bits and rejection sampling: SETMOD, RDMOD, SAMPLE
(spec/43_sampling.md R161, R163, R166) and GEN (42_random_bits.md R148 to R150). A command that draws goes on over
the source's script until it ends or the source leaves a request unanswered (`Progress.run`). -/

namespace Sys2Proof.Machine

/-- SETMOD: admit a modulus; the zero test is the equality reduction against zero (R161, R162). -/
def execSetmod (ra : BitVec 4) (s : State) : Host.Outcome State Fault Refusal :=
  .next <| unlessFatal s <| withReg s ra fun a =>
    if wideEq (s.readW a) (wideZero s.cfg.limbs) = 0#1 then
      { s with mod := s.readW a, modv := true }.complete .ok 0#64
    else
      { s with modv := false }.complete .zeroModulus 0#64

/-- RDMOD: read one limb of the modulus register (R163). -/
def execRdmod (idx : BitVec 16) (s : State) : Host.Outcome State Fault Refusal :=
  .next <| unlessFatal s <| withLimbIndex s idx fun k => s.complete .ok (wideLimb s.mod k)

/-- GEN: fill a register with random bits; length 0 draws and writes nothing (R148, R149). -/
def execGen (rd : BitVec 4) (len : BitVec 16) (s : State) : Host.Outcome State Fault Refusal :=
  .next <| unlessFatal s <| withReg s rd fun d => withLength s len fun n =>
    if n = 0 then s.complete .ok 0#64
    else (Progress.more { job := .gen d n, limb := 0, draws := 0 } { s with cand := wideZero s.cfg.limbs }).run

/-- SAMPLE: draw a value uniformly below MOD (R166). -/
def execSample (rd : BitVec 4) (s : State) : Host.Outcome State Fault Refusal :=
  .next <| unlessFatal s <| withReg s rd fun d => withModulus s <|
    (sampleHead d 0 { s with cstate := .sampling }).run

end Sys2Proof.Machine
end

