-- ==== Sys2Proof/Machine/Subtract.lean ====
section
/-! DEFINITION. The wide subtractions SUB and SBB (spec/40_subtract.md R106, R107). -/

namespace Sys2Proof.Machine

/-- SUB: wide subtract without incoming borrow (R106). -/
def execSub (rd ra rb : BitVec 4) (s : State) : Host.Outcome State Fault Refusal :=
  .next <| unlessFatal s <| withReg s rd fun d => withReg s ra fun a => withReg s rb fun b =>
    let r := wideSbb (s.readW a) (s.readW b) 0#64
    ({ s with borrow := r.2 }.writeW d r.1).complete .ok 0#64

/-- SBB: wide subtract with the incoming borrow of BORROW (R107). -/
def execSbb (rd ra rb : BitVec 4) (s : State) : Host.Outcome State Fault Refusal :=
  .next <| unlessFatal s <| withReg s rd fun d => withReg s ra fun a => withReg s rb fun b =>
    let r := wideSbb (s.readW a) (s.readW b) s.borrow
    ({ s with borrow := r.2 }.writeW d r.1).complete .ok 0#64

end Sys2Proof.Machine
end

