-- ==== Sys2Proof/Machine/Dispatch.lean ====
section
/-! DEFINITION. The meaning of every command: one arm per constructor of Instr (spec/30_encoding.md R76). -/

namespace Sys2Proof.Machine

def exec (i : Instr) (s : State) : Host.Outcome State Fault Refusal :=
  match i with
  | .wrl rd idx data => Sys2Proof.Machine.execWrl rd idx data s
  | .rdl ra idx => Sys2Proof.Machine.execRdl ra idx s
  | .clr rd => Sys2Proof.Machine.execClr rd s
  | .mov rd ra => Sys2Proof.Machine.execMov rd ra s
  | .sub rd ra rb => Sys2Proof.Machine.execSub rd ra rb s
  | .sbb rd ra rb => Sys2Proof.Machine.execSbb rd ra rb s
  | .lt ra rb => Sys2Proof.Machine.execLt ra rb s
  | .gt ra rb => Sys2Proof.Machine.execGt ra rb s
  | .eq ra rb => Sys2Proof.Machine.execEq ra rb s
  | .setmod ra => Sys2Proof.Machine.execSetmod ra s
  | .rdmod idx => Sys2Proof.Machine.execRdmod idx s
  | .gen rd len => Sys2Proof.Machine.execGen rd len s
  | .sample rd => Sys2Proof.Machine.execSample rd s
  | .rdcsr csr => Sys2Proof.Machine.execRdcsr csr s
  | .wrcsr csr data => Sys2Proof.Machine.execWrcsr csr data s

end Sys2Proof.Machine
end

