-- ==== Sys2Proof/Machine/Port.lean ====
section
/-! DEFINITION. The command port: how a command word the host delivers is checked, decoded and run
(spec/30_encoding.md R80, 60_exceptions.md R216), and how one step of the machine takes the host's next move
(20_memory.md R59, 70_reset_and_hazards.md R240, R242, R246). The block fetches nothing (20_memory.md R63). -/

namespace Sys2Proof.Machine

/-- The first line of R80: FATAL = 1 and the opcode is not RDCSR's. -/
def refusedWhileFatal (s : State) (w : CmdWord) : Bool := s.fatal && fieldOp w != 0x30#8

/-- Check, decode and run one command (R80). -/
def runCommand (c : Command) (s : State) : Host.Outcome State Fault Refusal :=
  if refusedWhileFatal s c.word then .next (s.complete .faulted 0#64)
  else
    match decode c with
    | .error e => .next (s.complete (decodeStatus e) 0#64)
    | .ok i => exec i s

/-- One step while a command waits on the source (R143): the reset input aborts it (R240); a command the host would
like to issue stays with the host (R246); otherwise the source's script is taken up where it stands. -/
def waitingStep (f : InFlight) (s : State) : State :=
  match s.host with
  | .reset :: rest => assertReset { s with host := rest }
  | .quiet :: rest => drive s.source f { s with host := rest }
  | _ => drive s.source f s

/-- One step of the machine: a command in progress goes on, else the host's next move is taken; with no move the
block stays as it is (R242). -/
def portStep (s : State) : Host.Outcome State Fault Refusal :=
  match s.inflight with
  | some f => .next (waitingStep f s)
  | none =>
    match s.host with
    | [] => .next s
    | .quiet :: rest => .next { s with host := rest }
    | .reset :: rest => .next (assertReset { s with host := rest })
    | .command c :: rest => runCommand c { s with host := rest, response := none }

/-- The host delivers command `c` next, and the block is between commands: what it takes for the very next step to
run it (log 6). A state that is between commands changes in its host moves alone. -/
def placeCommand (c : Command) (s : State) : State :=
  match s.inflight with
  | none => { s with host := .command c :: s.host }
  | some _ =>
    { s with
      host := .command c :: s.host
      inflight := none
      srcBusy := false
      cstate := if s.fatal then .fault else .idle }

end Sys2Proof.Machine
end

