-- ==== Sys2Proof/Machine/Assembler.lean ====
section
/-! DEFINITION. The assembler syntax (spec/30_encoding.md R81) and the pseudo-instructions (R82). A line gives the
commands it stands for; the host issues them one by one, each with its own completion. What R81 leaves open of the
lexical form is in log 17. -/

namespace Sys2Proof.Machine

/-- The pseudo-instructions of R82. -/
inductive Pseudo where
  | ldw (rd : BitVec 4) (values : List Limb)
  | rdw (ra : BitVec 4)
  | rdstatus | rdborrow | rdct | rdattempts | rdconfig | rdmaxatt
  | wrborrow (v : Limb)
  | clrborrow | setborrow
  deriving DecidableEq, Repr

/-- One `WRL` for each value, from limb `k` on. -/
def loadLimbs (rd : BitVec 4) : Nat → List Limb → List Instr
  | _, [] => []
  | k, v :: vs => .wrl rd (BitVec.ofNat 16 k) v :: loadLimbs rd (k + 1) vs

/-- The expansion of a pseudo-instruction; `LDW` takes exactly LIMBS values (R82). -/
def Pseudo.expand (c : Config) : Pseudo → Option (List Instr)
  | .ldw rd values => if values.length = c.limbs then some (loadLimbs rd 0 values) else none
  | .rdw ra => some ((List.range c.limbs).map fun k => .rdl ra (BitVec.ofNat 16 k))
  | .rdstatus => some [.rdcsr 0x0000#16]
  | .rdborrow => some [.rdcsr 0x0001#16]
  | .rdct => some [.rdcsr 0x0002#16]
  | .rdattempts => some [.rdcsr 0x0003#16]
  | .rdconfig => some [.rdcsr 0x0004#16]
  | .rdmaxatt => some [.rdcsr 0x0005#16]
  | .wrborrow v => some [.wrcsr 0x0001#16 v]
  | .clrborrow => some [.wrcsr 0x0001#16 0#64]
  | .setborrow => some [.wrcsr 0x0001#16 ones64]

/-- The tokens of a line. -/
inductive Token where
  | word (cs : List Char)
  | comma
  | lbrace
  | rbrace
  deriving DecidableEq, Repr

/-- Characters of mnemonics, register names, CSR names and numbers. -/
def wordChar (ch : Char) : Bool := ch.isAlphanum || ch == '_'

/-- End the word read so far (kept in reverse). -/
def endWord (acc : List Char) (rest : List Token) : List Token :=
  if acc.isEmpty then rest else .word acc.reverse :: rest

/-- The tokens of a line up to its comment; `none` for a character that has no place in a line. -/
def tokens : List Char → List Char → Option (List Token)
  | [], acc => some (endWord acc [])
  | ch :: rest, acc =>
    if ch == ';' then some (endWord acc [])
    else if wordChar ch then tokens rest (ch :: acc)
    else if ch == ' ' || ch == '\t' then (tokens rest []).map (endWord acc)
    else if ch == ',' then (tokens rest []).map fun ts => endWord acc (.comma :: ts)
    else if ch.toNat == 123 then (tokens rest []).map fun ts => endWord acc (.lbrace :: ts)
    else if ch.toNat == 125 then (tokens rest []).map fun ts => endWord acc (.rbrace :: ts)
    else none

/-- The value of a digit, decimal or hexadecimal. -/
def digitVal (ch : Char) : Option Nat :=
  if '0' ≤ ch ∧ ch ≤ '9' then some (ch.toNat - '0'.toNat)
  else if 'a' ≤ ch ∧ ch ≤ 'f' then some (ch.toNat - 'a'.toNat + 10)
  else if 'A' ≤ ch ∧ ch ≤ 'F' then some (ch.toNat - 'A'.toNat + 10)
  else none

/-- Digits in a base, most significant first. R13 calls `_` a digit separator and leaves open where it may stand: here it
stands after a first digit and before a last one, one or several in a row (DESIGN CHOICE, log 17). -/
def digits (base : Nat) : List Char → Nat → Option Nat
  | [], n => some n
  | ch :: rest, n =>
    if ch == '_' then (if rest.isEmpty then none else digits base rest n)
    else
      match digitVal ch with
      | some d => if d < base then digits base rest (base * n + d) else none
      | none => none

/-- A number in decimal or in `0x` hexadecimal (R81); a `_` before its first digit is refused (log 17). -/
def number : List Char → Option Nat
  | '0' :: 'x' :: ch :: rest => if ch == '_' then none else digits 16 (ch :: rest) 0
  | ch :: rest => if ch == '_' then none else digits 10 (ch :: rest) 0
  | [] => none

/-- A number that fits in `n` bits. -/
def immediate (n : Nat) (cs : List Char) : Option (BitVec n) :=
  (number cs).bind fun v => if v < 2 ^ n then some (BitVec.ofNat n v) else none

/-- A register name: `W` and a number of the 4-bit field (R81; log 17). -/
def register : List Char → Option (BitVec 4)
  | 'W' :: ch :: rest => if ch.isDigit && rest.all Char.isDigit then immediate 4 (ch :: rest) else none
  | _ => none

/-- A CSR, by name or number (R81). -/
def csrNumber (cs : List Char) : Option (BitVec 16) :=
  if cs = "STATUS".toList then some 0x0000#16
  else if cs = "BORROW".toList then some 0x0001#16
  else if cs = "CT".toList then some 0x0002#16
  else if cs = "ATTEMPTS".toList then some 0x0003#16
  else if cs = "CONFIG".toList then some 0x0004#16
  else if cs = "MAXATT".toList then some 0x0005#16
  else immediate 16 cs

/-- Words separated by commas. -/
def operandWords : List Token → Option (List (List Char))
  | [] => some []
  | [.word cs] => some [cs]
  | .word cs :: .comma :: rest => (operandWords rest).bind fun ws => if ws.isEmpty then none else some (cs :: ws)
  | _ => none

/-- The limbs of `LDW`: words separated by commas and closed by the right brace. -/
def braceWords : List Token → Option (List (List Char))
  | [.word cs, .rbrace] => some [cs]
  | .word cs :: .comma :: rest => (braceWords rest).map (cs :: ·)
  | _ => none

/-- A command of R81 from its mnemonic and operands. -/
def coreLine (m : List Char) : List (List Char) → Option Instr
  | [a, b, c] =>
    if m = "WRL".toList then do return .wrl (← register a) (← immediate 16 b) (← immediate 64 c)
    else if m = "SUB".toList then do return .sub (← register a) (← register b) (← register c)
    else if m = "SBB".toList then do return .sbb (← register a) (← register b) (← register c)
    else none
  | [a, b] =>
    if m = "RDL".toList then do return .rdl (← register a) (← immediate 16 b)
    else if m = "MOV".toList then do return .mov (← register a) (← register b)
    else if m = "LT".toList then do return .lt (← register a) (← register b)
    else if m = "GT".toList then do return .gt (← register a) (← register b)
    else if m = "EQ".toList then do return .eq (← register a) (← register b)
    else if m = "GEN".toList then do return .gen (← register a) (← immediate 16 b)
    else if m = "WRCSR".toList then do return .wrcsr (← csrNumber a) (← immediate 64 b)
    else none
  | [a] =>
    if m = "CLR".toList then do return .clr (← register a)
    else if m = "SETMOD".toList then do return .setmod (← register a)
    else if m = "SAMPLE".toList then do return .sample (← register a)
    else if m = "RDMOD".toList then do return .rdmod (← immediate 16 a)
    else if m = "RDCSR".toList then do return .rdcsr (← csrNumber a)
    else none
  | _ => none

/-- A pseudo-instruction of R82 from its mnemonic and the tokens after it. -/
def pseudoLine (m : List Char) : List Token → Option Pseudo
  | [] =>
    if m = "RDSTATUS".toList then some .rdstatus
    else if m = "RDBORROW".toList then some .rdborrow
    else if m = "RDCT".toList then some .rdct
    else if m = "RDATTEMPTS".toList then some .rdattempts
    else if m = "RDCONFIG".toList then some .rdconfig
    else if m = "RDMAXATT".toList then some .rdmaxatt
    else if m = "CLRBORROW".toList then some .clrborrow
    else if m = "SETBORROW".toList then some .setborrow
    else none
  | [.word a] =>
    if m = "RDW".toList then do return .rdw (← register a)
    else if m = "WRBORROW".toList then do return .wrborrow (← immediate 64 a)
    else none
  | .word a :: .comma :: .lbrace :: rest =>
    if m = "LDW".toList then do return .ldw (← register a) (← (← braceWords rest).mapM (immediate 64))
    else none
  | _ => none

/-- One line of assembler text: the commands it stands for, none for a line that holds at most a comment (R81, R82);
`none` where the text is no line of the syntax. -/
def assembleLine (c : Config) (text : List Char) : Option (List Instr) :=
  match tokens text [] with
  | some [] => some []
  | some (.word m :: rest) =>
    match pseudoLine m rest with
    | some p => p.expand c
    | none => ((operandWords rest).bind (coreLine m)).map fun i => [i]
  | _ => none

/-- A program: one line after the other. -/
def assemble (c : Config) : List (List Char) → Option (List Instr)
  | [] => some []
  | l :: ls => do return (← assembleLine c l) ++ (← assemble c ls)

end Sys2Proof.Machine
end

