-- ==== Sys2Proof/Safety.lean ====
section
/-! DEFINITION. What the claims about the machine are stated in: the invariant of the machine, the state a command is
issued in, and which error a command meets first. -/

namespace Sys2Proof.Machine

/-- Every wide register holds LIMBS limbs (spec/10_state.md R20, R22, R24, R37). -/
abbrev State.WidthsOk (s : State) : Prop :=
  s.w.w0.length = s.cfg.limbs ∧ s.w.w1.length = s.cfg.limbs ∧ s.w.w2.length = s.cfg.limbs ∧
    s.w.w3.length = s.cfg.limbs ∧ s.mod.length = s.cfg.limbs ∧ s.cand.length = s.cfg.limbs

/-- MODV = 1 implies val(MOD) ≠ 0 (R25). -/
abbrev State.ModulusOk (s : State) : Prop := s.modv = true → wideVal s.mod ≠ 0

/-- ATTEMPTS ≤ MAX_ATTEMPTS (R30). -/
abbrev State.AttemptsOk (s : State) : Prop := s.attempts.toNat ≤ s.cfg.maxAttempts

/-- LAST holds a code a command can leave: 0x00 to 0x0A, since FAULTED leaves LAST as it was (R212, R213); in the fatal
state it is RETRY_EXCEEDED and ATTEMPTS is MAX_ATTEMPTS (R167); else it is the code of the completion on the port. -/
abbrev State.LastOk (s : State) : Prop :=
  s.last.toNat ≤ 0x0A ∧ (s.fatal = true → s.last = 0x0A#8 ∧ s.attempts.toNat = s.cfg.maxAttempts) ∧
    ∀ r ∈ s.response, s.fatal = false → s.last = r.status.code

/-- Between commands no request is outstanding and CSTATE is IDLE, or FAULT when FATAL = 1 (R36, R38, R212). -/
abbrev State.IdleOk (s : State) : Prop :=
  s.inflight = none → s.srcBusy = false ∧ s.cstate = if s.fatal then .fault else .idle

/-- The job of a command in progress and the controller state that goes with it (R148, R165, R166). -/
def Job.okIn (s : State) (draws : Nat) : Job → Bool
  | .gen _ len => decide (1 ≤ len ∧ len ≤ s.cfg.width ∧ draws = 0 ∧ s.cstate = .idle)
  | .sample _ => decide (s.modv = true ∧ draws < s.cfg.maxAttempts ∧ s.cstate = .sampling)

/-- A command in progress waits for the answer to a request: no response yet, and CAND holds the limbs answered so far,
the others still 0 (R38, R146, R211). -/
abbrev State.WaitOk (s : State) : Prop :=
  ∀ f ∈ s.inflight, s.srcBusy = true ∧ s.response = none ∧ s.fatal = false ∧
    f.limb < activeLimbs (f.job.bits s.cfg) ∧ (s.cand.drop f.limb).all (· == 0#64) = true ∧
    f.job.okIn s f.draws = true

/-- The invariant of the machine. -/
abbrev State.Inv (s : State) : Prop :=
  s.cfg.Valid ∧ s.WidthsOk ∧ s.ModulusOk ∧ s.AttemptsOk ∧ s.LastOk ∧ s.IdleOk ∧ s.WaitOk

/-- A state in which the host may issue a command (R246) and the block is not in the fatal state. -/
abbrev State.Ready (s : State) : Prop := s.Inv ∧ s.inflight = none ∧ s.fatal = false

/-- The reset input is the host's next move. -/
def State.ResetNext (s : State) : Prop := ∃ rest, s.host = .reset :: rest

/-- The next step begins command `i`: the block is between commands and the host's next move is a word that decodes to
it. -/
def State.Issues (s : State) (i : Instr) : Prop :=
  s.inflight = none ∧ ∃ c rest, s.host = .command c :: rest ∧ decode c = .ok i

/-- The next step begins, or goes on with, a GEN whose destination is `d`. -/
def State.RunsGen (s : State) (d : WReg) : Prop :=
  (∃ rd len, s.Issues (.gen rd len) ∧ selectW rd = some d) ∨ ∃ f len, s.inflight = some f ∧ f.job = .gen d len

/-- The next step begins, or goes on with, a SAMPLE whose destination is `d`. -/
def State.RunsSample (s : State) (d : WReg) : Prop :=
  (∃ rd, s.Issues (.sample rd) ∧ selectW rd = some d) ∨ ∃ f, s.inflight = some f ∧ f.job = .sample d

/-- The state a command that ends with `code` and `data` and writes nothing else leaves, when it began with FATAL = 0
(R212): LAST and the response on the port. -/
def State.reporting (s : State) (code : Status) (data : Limb) : State :=
  { s with last := code.code, response := some { status := code, data := data } }

/-- The register fields of a command in the order of R80 (rd, ra, rb). -/
def regFields : Instr → List (BitVec 4)
  | .wrl rd _ _ => [rd]
  | .rdl ra _ => [ra]
  | .clr rd => [rd]
  | .mov rd ra => [rd, ra]
  | .sub rd ra rb => [rd, ra, rb]
  | .sbb rd ra rb => [rd, ra, rb]
  | .lt ra rb => [ra, rb]
  | .gt ra rb => [ra, rb]
  | .eq ra rb => [ra, rb]
  | .setmod ra => [ra]
  | .rdmod _ => []
  | .gen rd _ => [rd]
  | .sample rd => [rd]
  | .rdcsr _ => []
  | .wrcsr _ _ => []

/-- The error of R80 that the index, length or CSR operand of a command meets, if any. -/
def indexError (c : Config) : Instr → Option Status
  | .wrl _ idx _ => if c.limbs ≤ idx.toNat then some .badIndex else none
  | .rdl _ idx => if c.limbs ≤ idx.toNat then some .badIndex else none
  | .rdmod idx => if c.limbs ≤ idx.toNat then some .badIndex else none
  | .gen _ len => if c.width < len.toNat then some .badLength else none
  | .rdcsr csr => if 0x0005 < csr.toNat then some .badIndex else none
  | .wrcsr csr _ =>
    if 0x0005 < csr.toNat then some .badIndex else if csr.toNat ≠ 0x0001 then some .readOnly else none
  | _ => none

/-- The first check of R80 after decoding that a command fails in a state with FATAL = 0: a register field, then the
index, length or CSR, then the modulus for SAMPLE. -/
def firstCheckFailed (s : State) (i : Instr) : Option Status :=
  if (regFields i).any (fun r => nwReg ≤ r.toNat) then some .badRegister
  else
    match indexError s.cfg i with
    | some e => some e
    | none =>
      match i with
      | .sample _ => if s.modv then none else some .noModulus
      | _ => none

/-- The register field of a command that names the wide register it may write in one step without the source (R23). -/
def directDest : Instr → Option (BitVec 4)
  | .wrl rd _ _ => some rd
  | .clr rd => some rd
  | .mov rd _ => some rd
  | .sub rd _ _ => some rd
  | .sbb rd _ _ => some rd
  | _ => none

/-- The commands that write BORROW (R26). -/
def writesBorrow : Instr → Bool
  | .sub _ _ _ => true
  | .sbb _ _ _ => true
  | .wrcsr _ _ => true
  | .wrl _ _ _ => false
  | .rdl _ _ => false
  | .clr _ => false
  | .mov _ _ => false
  | .lt _ _ => false
  | .gt _ _ => false
  | .eq _ _ => false
  | .setmod _ => false
  | .rdmod _ => false
  | .gen _ _ => false
  | .sample _ => false
  | .rdcsr _ => false

/-- `n` steps lead from `s` to `t`, none of them a reset or the start of a command that writes BORROW. -/
def StepsKeepBorrow : Nat → State → State → Prop
  | 0, s, t => s = t
  | n + 1, s, t =>
    ¬ s.ResetNext ∧ (∀ i, s.Issues i → writesBorrow i = false) ∧ ∃ u, step s = .next u ∧ StepsKeepBorrow n u t

/-- The number held as `k` wide values of `width` bits, least significant first (R108). -/
def chainValue (width : Nat) (x : Nat → Wide) : Nat → Nat
  | 0 => 0
  | k + 1 => chainValue width x k + 2 ^ (width * k) * wideVal (x k)

/-- The opcodes of R77 that are illegal. -/
def IllegalOpcode (op : BitVec 8) : Prop :=
  op.toNat = 0x00 ∨ (0x05 ≤ op.toNat ∧ op.toNat ≤ 0x0F) ∨ (0x15 ≤ op.toNat ∧ op.toNat ≤ 0x1F) ∨
    (0x24 ≤ op.toNat ∧ op.toNat ≤ 0x2F) ∨ (0x32 ≤ op.toNat ∧ op.toNat ≤ 0xFF)

/-- The match and mask columns of the opcode map (R76). -/
def opcodeRows : List (CmdWord × CmdWord) :=
  [(0x01000000#32, 0xFF0F0000#32), (0x02000000#32, 0xFFF00000#32), (0x03000000#32, 0xFF0FFFFF#32),
   (0x04000000#32, 0xFF00FFFF#32), (0x10000000#32, 0xFF000FFF#32), (0x11000000#32, 0xFF000FFF#32),
   (0x12000000#32, 0xFFF00FFF#32), (0x13000000#32, 0xFFF00FFF#32), (0x14000000#32, 0xFFF00FFF#32),
   (0x20000000#32, 0xFFF0FFFF#32), (0x21000000#32, 0xFFFF0000#32), (0x22000000#32, 0xFF0F0000#32),
   (0x23000000#32, 0xFF0FFFFF#32), (0x30000000#32, 0xFFFF0000#32), (0x31000000#32, 0xFFFF0000#32)]

/-- The value of CSR STATUS as a number, from its fields: LAST, FATAL at bit 8, MODV at bit 9 (R32). -/
def statusValue (s : State) : Nat := s.last.toNat + 2 ^ 8 * s.fatal.toNat + 2 ^ 9 * s.modv.toNat

/-- The commands of a list, one after the other, each completing before the next begins (R59, R82). -/
def runAll : List Instr → State → Host.Outcome State Fault Refusal
  | [], s => .next s
  | i :: is, s =>
    match exec i s with
    | .next t => runAll is t
    | .fault r => .fault r
    | .refused r => .refused r

/-- The bytes of an answer in stream order (R142). -/
def Fill.bytes (b : Fill) : List Byte := [b.b0, b.b1, b.b2, b.b3, b.b4, b.b5, b.b6, b.b7]

/-- The stream bytes a run of answers delivers, earliest first (R54). -/
def streamBytes (bs : List Fill) : List Byte := bs.flatMap Fill.bytes

/-- The wide value a draw at the storage width makes of its answers: one limb each, limb 0 first (R146, R164). -/
def drawValue (bs : List Fill) : Wide := bs.map fillWord

/-- The answers of a list of draws as the source's script. -/
def scriptOf (draws : List (List Fill)) : List SrcEvent := draws.flatten.map .ok

end Sys2Proof.Machine
end

