-- ==== Sys2Proof/WellFormed.lean ====
section
/-! DEFINITION. Which commands name operands that exist in a configuration (spec/30_encoding.md R79): the
complement of the five kinds of out-of-range operand R79 lists. An ill-formed command is still a legal encoding;
the block completes it with BAD_REGISTER, BAD_INDEX, BAD_LENGTH or READ_ONLY. -/

namespace Sys2Proof

/-- A register field that selects one of W0 to W3 (R73). -/
def regInRange (r : BitVec 4) : Bool := r.toNat < nwReg

/-- A limb index below LIMBS (R74). -/
def limbInRange (c : Config) (idx : BitVec 16) : Bool := idx.toNat < c.limbs

/-- A GEN length at most WIDTH (R74). -/
def lenInRange (c : Config) (len : BitVec 16) : Bool := len.toNat ≤ c.width

/-- A CSR number that is present (R31). -/
def csrPresent (csr : BitVec 16) : Bool := csr.toNat ≤ 0x0005

/-- The one CSR that WRCSR may write: BORROW (R35). -/
def csrWritable (csr : BitVec 16) : Bool := csr.toNat == 0x0001

/-- Every operand of the command is in range in configuration `c`. -/
def Instr.wellFormed (c : Config) : Instr → Bool
  | .wrl rd idx _ => regInRange rd && limbInRange c idx
  | .rdl ra idx => regInRange ra && limbInRange c idx
  | .clr rd => regInRange rd
  | .mov rd ra => regInRange rd && regInRange ra
  | .sub rd ra rb => regInRange rd && regInRange ra && regInRange rb
  | .sbb rd ra rb => regInRange rd && regInRange ra && regInRange rb
  | .lt ra rb => regInRange ra && regInRange rb
  | .gt ra rb => regInRange ra && regInRange rb
  | .eq ra rb => regInRange ra && regInRange rb
  | .setmod ra => regInRange ra
  | .rdmod idx => limbInRange c idx
  | .gen rd len => regInRange rd && lenInRange c len
  | .sample rd => regInRange rd
  | .rdcsr csr => csrPresent csr
  | .wrcsr csr _ => csrPresent csr && csrWritable csr

end Sys2Proof
end

