-- ==== Sys2Proof/Certificates/Slice0/Obligations.lean ====
section
/-! DEFINITION. The statements for the provers. `Ready` (Sys2Proof/Safety.lean) is a state of the invariant in which the
host may issue a command and FATAL = 0. A next state is written out as the old one with the fields that change: all
others, the environment's scripts among them (the model's own, log 2 and log 5), are as before. That the completion
stays on the port until the next command begins is the model's choice (log 7). CAND after a command is left
existential: the model keeps it, and the spec calls it unobservable (log 10). -/

open Sys2Proof Sys2Proof.Machine

/-! ## Encoding -/

/-- Decoding the encoding of a command gives the command back, every operand at every value its field admits
(spec/30_encoding.md R71 to R76). -/
def Obligations.DecodeOfEncodeIsTheInstruction : Prop :=
  ∀ i : Instr, decode (encode i) = .ok i

/-- A command the decoder accepts is the encoding of what it decodes to; the data operand too, for the two commands that
read it (R70, R72, R76). That the encoder gives every other command the data operand 0 is the model's reading of R81's
sentence on the assembler (log 11, DEDUCED). -/
def Obligations.EncodeOfDecodeIsTheCommand : Prop :=
  ∀ (c : Command) (i : Instr), decode c = .ok i →
    encodeWord i = c.word ∧
      (fieldOp c.word = 0x01#8 ∨ fieldOp c.word = 0x31#8 → encode i = c) ∧
      (fieldOp c.word ≠ 0x01#8 → fieldOp c.word ≠ 0x31#8 → encodeData i = 0#64)

/-- The decoder accepts exactly the words that match a row of the opcode map on its mask (R76). -/
def Obligations.DecoderAcceptsExactlyTheTablesWords : Prop :=
  ∀ c : Command, (∃ i, decode c = .ok i) ↔ ∃ r ∈ opcodeRows, c.word &&& r.2 = r.1

/-- No command word matches two rows of the opcode map (R76: the opcode alone selects the command). -/
def Obligations.OpcodeRowsDoNotOverlap : Prop :=
  ∀ (w : CmdWord) (r q : CmdWord × CmdWord), r ∈ opcodeRows → q ∈ opcodeRows →
    w &&& r.2 = r.1 → w &&& q.2 = q.1 → r = q

/-- The worked encodings of R83, which the spec derives from R72 and R76. -/
def Obligations.WorkedEncodingsDecode : Prop :=
  decodeTableWord 32 0x10201000 = some (.sub 2#4 0#4 1#4) ∧
  decodeTableWord 32 0x11201000 = some (.sbb 2#4 0#4 1#4) ∧
  decodeTableWord 32 0x12001000 = some (.lt 0#4 1#4) ∧
  decodeTableWord 32 0x13001000 = some (.gt 0#4 1#4) ∧
  decodeTableWord 32 0x14033000 = some (.eq 3#4 3#4) ∧
  (∀ d, decode { word := 0x01100003#32, data := d } = .ok (.wrl 1#4 3#16 d)) ∧
  decodeTableWord 32 0x02020004 = some (.rdl 2#4 4#16) ∧
  decodeTableWord 32 0x03300000 = some (.clr 3#4) ∧
  decodeTableWord 32 0x04100000 = some (.mov 1#4 0#4) ∧
  decodeTableWord 32 0x20000000 = some (.setmod 0#4) ∧
  decodeTableWord 32 0x20030000 = some (.setmod 3#4) ∧
  decodeTableWord 32 0x21000002 = some (.rdmod 2#16) ∧
  decodeTableWord 32 0x22200046 = some (.gen 2#4 70#16) ∧
  decodeTableWord 32 0x22000140 = some (.gen 0#4 320#16) ∧
  decodeTableWord 32 0x23100000 = some (.sample 1#4) ∧
  decodeTableWord 32 0x30000001 = some (.rdcsr 1#16) ∧
  (∀ d, decode { word := 0x31000001#32, data := d } = .ok (.wrcsr 1#16 d))

/-- Every command but WRL and WRCSR ignores the data operand: the whole step is the same whatever its value (R70). -/
def Obligations.OnlyWrlAndWrcsrReadTheDataOperand : Prop :=
  ∀ (s : State) (w : CmdWord) (d d' : Limb) (rest : List HostMove), s.inflight = none →
    fieldOp w ≠ 0x01#8 → fieldOp w ≠ 0x31#8 →
    step { s with host := .command { word := w, data := d } :: rest } =
      step { s with host := .command { word := w, data := d' } :: rest }

/-! ## The step, the command port and reset -/

/-- Between commands, when the host's next move is a word that decodes to `i`, the step is `exec i` on the state with
that move taken and the previous response gone from the port (20_memory.md R59; the response is the model's, log 7). -/
def Obligations.StepRunsTheDecodedInstruction : Prop :=
  ∀ (s : State) (c : Command) (rest : List HostMove) (i : Instr), s.inflight = none →
    s.host = .command c :: rest → decode c = .ok i →
    step s = exec i { s with host := rest, response := none }

/-- Every step answers a next state: no error is a trap and no word stops the block (60_exceptions.md R210). -/
def Obligations.EveryStepAnswersANextState : Prop :=
  ∀ s : State, ∃ t, step s = .next t

/-- Between commands the block waits for the host: with no move, or a quiet one, nothing else changes
(70_reset_and_hazards.md R242). The host's script is the model's (log 5), and so is that the last completion stays on the
port (log 7). -/
def Obligations.IdleBlockKeepsItsState : Prop :=
  ∀ s : State, s.inflight = none →
    (s.host = [] → step s = .next s) ∧
      ∀ rest, s.host = .quiet :: rest → step s = .next { s with host := rest }

/-- An illegal opcode completes with ILLEGAL_OPCODE and a reserved bit with RESERVED_FIELD, whatever the other fields
hold, and with no other effect (R75, R77). The reserved bits of a row are its mask below bit 24. -/
def Obligations.IllegalWordsCompleteWithTheirCode : Prop :=
  ∀ (s : State) (c : Command) (rest : List HostMove), s.Ready → s.host = .command c :: rest →
    (IllegalOpcode (fieldOp c.word) →
      step s = .next ({ s with host := rest }.reporting .illegalOpcode 0#64)) ∧
    (∀ r ∈ opcodeRows, fieldOp c.word = fieldOp r.1 → c.word &&& r.2 &&& 0x00FFFFFF#32 ≠ 0#32 →
      step s = .next ({ s with host := rest }.reporting .reservedField 0#64))

/-- While FATAL = 1 every command word but RDCSR's, legal or not, completes with FAULTED and changes nothing; RDCSR is
checked and runs, LAST frozen; no source transaction is made; and only reset leaves this state (R216). -/
def Obligations.FatalStateRefusesAllButRdcsr : Prop :=
  ∀ s : State, s.Inv → s.fatal = true →
    (∀ c rest, s.host = .command c :: rest →
      (fieldOp c.word ≠ 0x30#8 →
        step s = .next { s with host := rest, response := some { status := .faulted, data := 0#64 } }) ∧
      (decode c = .error .reservedField → fieldOp c.word = 0x30#8 →
        step s = .next { s with host := rest, response := some { status := .reservedField, data := 0#64 } }) ∧
      ∀ csr, decode c = .ok (.rdcsr csr) →
        (∀ v, csrRead csr s = some v →
          step s = .next { s with host := rest, response := some { status := .ok, data := v } }) ∧
        (0x0005 < csr.toNat →
          step s = .next { s with host := rest, response := some { status := .badIndex, data := 0#64 } })) ∧
    ∀ t, step s = .next t → ¬ s.ResetNext → t.fatal = true ∧ t.cstate = .fault

/-- The reset input sets every state element to its reset value, in any state, a command in progress or not (R39); the
source is not touched unless a request was outstanding (R241), and the parameters of the instance are as before. That no
completion is left on the port is the model's choice where none was in progress (log 7), the record of a command in
progress that it empties is the model's own (log 3, with R240), and so are the host's moves (log 5). -/
def Obligations.ResetSetsEveryElement : Prop :=
  ∀ (s : State) (rest : List HostMove), s.host = .reset :: rest →
    ∃ t, step s = .next t ∧
      (∀ r, (t.readW r).length = s.cfg.limbs ∧ ∀ l ∈ t.readW r, l = 0#64) ∧
      t.mod.length = s.cfg.limbs ∧ (∀ l ∈ t.mod, l = 0#64) ∧ t.modv = false ∧ t.borrow = 0#64 ∧ t.ct = 0#1 ∧
      t.fatal = false ∧ t.last = 0x00#8 ∧ t.attempts = 0#64 ∧ t.cstate = .idle ∧
      t.cand.length = s.cfg.limbs ∧ (∀ l ∈ t.cand, l = 0#64) ∧ t.srcBusy = false ∧
      t.inflight = none ∧ t.response = none ∧ t.cfg = s.cfg ∧ t.host = rest ∧ (s.srcBusy = false → t.source = s.source)

/-- A reset while a command waits on the source drops the request: the later answer to it, after any further wait, is
ignored, and no completion is given (R240; that the next answer of the script is the one to the dropped request is the
model's choice, log 8). -/
def Obligations.ResetIgnoresTheLateAnswer : Prop :=
  ∀ (s : State) (f : InFlight) (rest : List HostMove) (n : Nat) (e : SrcEvent) (post : List SrcEvent), s.Inv →
    s.inflight = some f → s.host = .reset :: rest → e ≠ .pending →
    s.source = List.replicate n .pending ++ e :: post →
    ∃ t, step s = .next t ∧ t.inflight = none ∧ t.response = none ∧ t.srcBusy = false ∧ t.source = post

/-- Reset and the machine's invariant: from any instance with parameters in range, reset leads into the invariant. -/
def Obligations.ResetEstablishesTheInvariant : Prop :=
  State.reset.Inv ∧ ∀ s : State, s.cfg.Valid → (assertReset s).Inv

/-- The invariant is kept by every step: the wide registers keep LIMBS limbs, MODV = 1 implies val(MOD) ≠ 0 (R25),
ATTEMPTS ≤ MAX_ATTEMPTS (R30), LAST is the code of the last completion and stays RETRY_EXCEEDED in the fatal state
(R29, R167, R212), CSTATE agrees with FATAL between commands (R36), and a command in progress stands where its loops
allow. R25's invariant is the spec's own inference from R39 and R161. The record of a command in progress is the
model's (log 3), as are that CSTATE is IDLE while a GEN waits (log 9, DEDUCED) and the completion kept on the port
(log 7). -/
def Obligations.EveryStepKeepsTheInvariant : Prop :=
  ∀ s t : State, s.Inv → step s = .next t → t.Inv

/-! ## Subtraction and comparison -/

/-- The limb primitive: the difference mod 2^64, and the flag all ones exactly when a < b + c, else 0 (40_subtract.md R102,
which the spec derives from R101). -/
def Obligations.LimbSubtractIsExactWithBorrow : Prop :=
  ∀ a b f : Limb,
    ((limbSbb a b f).1.toNat : Int) = ((a.toNat : Int) - b.toNat - (f.getLsbD 63).toNat) % 2 ^ 64 ∧
      (limbSbb a b f).2 = if a.toNat < b.toNat + (f.getLsbD 63).toNat then ones64 else 0#64

/-- The wide primitive, for every number of limbs an instance can have: the difference mod 2^WIDTH, and the flag all ones
exactly when val(X) < val(Y) + c, else 0 (R105, which the spec derives from R102 and R104; LIMBS ≥ 1, R8). -/
def Obligations.WideSubtractIsExactWithBorrow : Prop :=
  ∀ (x y : Wide) (f : Limb), 1 ≤ x.length → x.length = y.length →
    (wideSbb x y f).1.length = x.length ∧
    (wideVal (wideSbb x y f).1 : Int) =
      ((wideVal x : Int) - wideVal y - (f.getLsbD 63).toNat) % 2 ^ (64 * x.length) ∧
    (wideSbb x y f).2 = if wideVal x < wideVal y + (f.getLsbD 63).toNat then ones64 else 0#64

/-- SUB completes: W[rd] is the difference mod 2^WIDTH of the old operands, BORROW tells whether it was negative, and
nothing else changes but LAST and the response; rd may be ra or rb (R106, R196). -/
def Obligations.SubWritesTheDifferenceAndBorrow : Prop :=
  ∀ (s : State) (rd ra rb : BitVec 4) (d a b : WReg), s.Ready →
    selectW rd = some d → selectW ra = some a → selectW rb = some b →
    ∃ D : Wide, D.length = s.cfg.limbs ∧
      (wideVal D : Int) = ((wideVal (s.readW a) : Int) - wideVal (s.readW b)) % 2 ^ s.cfg.width ∧
      exec (.sub rd ra rb) s =
        .next ({ s with
          w := s.w.set d D
          borrow := if wideVal (s.readW a) < wideVal (s.readW b) then ones64 else 0#64 }.reporting .ok 0#64)

/-- SBB completes: as SUB, with bit 63 of BORROW subtracted too (R107). -/
def Obligations.SbbSubtractsTheBorrowBitToo : Prop :=
  ∀ (s : State) (rd ra rb : BitVec 4) (d a b : WReg), s.Ready →
    selectW rd = some d → selectW ra = some a → selectW rb = some b →
    ∃ D : Wide, D.length = s.cfg.limbs ∧
      (wideVal D : Int) =
        ((wideVal (s.readW a) : Int) - wideVal (s.readW b) - (s.borrow.getLsbD 63).toNat) % 2 ^ s.cfg.width ∧
      exec (.sbb rd ra rb) s =
        .next ({ s with
          w := s.w.set d D
          borrow := if wideVal (s.readW a) < wideVal (s.readW b) + (s.borrow.getLsbD 63).toNat then ones64
                    else 0#64 }.reporting .ok 0#64)

/-- SUB on the low registers and SBB on the high ones subtract the two-register values, BORROW telling whether the
whole difference was negative; the low result must not overwrite a high operand or the high result's place. The second
part is the chain of any length, as steps of the machine: one SUB, then k - 1 SBB, and between two of them any steps that
are neither a reset nor the start of a command that writes BORROW. The operands are those each command finds and the
results those it leaves (R108, which the spec derives from R105 to R107). -/
def Obligations.SubThenSbbSubtractsTwoRegisterValues : Prop :=
  (∀ (s : State) (r0 p0 q0 r1 p1 q1 : BitVec 4) (d0 a0 b0 d1 a1 b1 : WReg), s.Ready →
    selectW r0 = some d0 → selectW p0 = some a0 → selectW q0 = some b0 →
    selectW r1 = some d1 → selectW p1 = some a1 → selectW q1 = some b1 →
    d0 ≠ a1 → d0 ≠ b1 → d0 ≠ d1 →
    ∃ t u, exec (.sub r0 p0 q0) s = .next t ∧ exec (.sbb r1 p1 q1) t = .next u ∧
      ((wideVal (u.readW d0) + 2 ^ s.cfg.width * wideVal (u.readW d1) : Nat) : Int) =
        (((wideVal (s.readW a0) + 2 ^ s.cfg.width * wideVal (s.readW a1) : Nat) : Int) -
          (wideVal (s.readW b0) + 2 ^ s.cfg.width * wideVal (s.readW b1) : Nat)) % 2 ^ (2 * s.cfg.width) ∧
      u.borrow =
        if wideVal (s.readW a0) + 2 ^ s.cfg.width * wideVal (s.readW a1) <
            wideVal (s.readW b0) + 2 ^ s.cfg.width * wideVal (s.readW b1) then ones64 else 0#64) ∧
  ∀ (k : Nat) (st mid : Nat → State) (rd ra rb : Nat → BitVec 4) (d a b : Nat → WReg), 1 ≤ k →
    (∀ i, i < k → (st i).Inv ∧ (st i).fatal = false ∧
      selectW (rd i) = some (d i) ∧ selectW (ra i) = some (a i) ∧ selectW (rb i) = some (b i) ∧
      (st i).Issues (if i = 0 then .sub (rd i) (ra i) (rb i) else .sbb (rd i) (ra i) (rb i)) ∧
      step (st i) = .next (mid i)) →
    (∀ i, i + 1 < k → ∃ n, StepsKeepBorrow n (mid i) (st (i + 1))) →
    (chainValue (st 0).cfg.width (fun i => (mid i).readW (d i)) k : Int) =
        ((chainValue (st 0).cfg.width (fun i => (st i).readW (a i)) k : Int) -
          chainValue (st 0).cfg.width (fun i => (st i).readW (b i)) k) % 2 ^ ((st 0).cfg.width * k) ∧
      (mid (k - 1)).borrow =
        if chainValue (st 0).cfg.width (fun i => (st i).readW (a i)) k <
            chainValue (st 0).cfg.width (fun i => (st i).readW (b i)) k then ones64 else 0#64

/-- LT, GT and EQ complete: CT and the data word are the comparison of the values, and nothing else changes but LAST and
the response, BORROW and the wide registers least of all (41_compare.md R123 to R125). -/
def Obligations.ComparisonsWriteCtAlone : Prop :=
  ∀ (s : State) (ra rb : BitVec 4) (a b : WReg), s.Ready → selectW ra = some a → selectW rb = some b →
    exec (.lt ra rb) s =
      .next ({ s with ct := if wideVal (s.readW a) < wideVal (s.readW b) then 1#1 else 0#1 }.reporting .ok
        (if wideVal (s.readW a) < wideVal (s.readW b) then 1#64 else 0#64)) ∧
    exec (.gt ra rb) s =
      .next ({ s with ct := if wideVal (s.readW b) < wideVal (s.readW a) then 1#1 else 0#1 }.reporting .ok
        (if wideVal (s.readW b) < wideVal (s.readW a) then 1#64 else 0#64)) ∧
    exec (.eq ra rb) s =
      .next ({ s with ct := if wideVal (s.readW a) = wideVal (s.readW b) then 1#1 else 0#1 }.reporting .ok
        (if wideVal (s.readW a) = wideVal (s.readW b) then 1#64 else 0#64))

/-- Of lt(X, Y), eq(X, Y) and lt(Y, X) exactly one is 1; lt compares the values, eq the values themselves, and gt is the
mirror (R126, which the spec derives from R120 to R122). -/
def Obligations.ComparisonTrichotomy : Prop :=
  ∀ x y : Wide, x.length = y.length →
    ((wideLt x y, wideEq x y, wideLt y x) = (1#1, 0#1, 0#1) ∨ (wideLt x y, wideEq x y, wideLt y x) = (0#1, 1#1, 0#1) ∨
      (wideLt x y, wideEq x y, wideLt y x) = (0#1, 0#1, 1#1)) ∧
    (wideLt x y = 1#1 ↔ wideVal x < wideVal y) ∧ (wideEq x y = 1#1 ↔ x = y) ∧
    (wideGt x y = 1#1 ↔ wideVal y < wideVal x)

/-! ## Register access -/

/-- A register field 0 to 3 selects its own register and 4 to 15 selects nothing (30_encoding.md R73); a register reads
back what was written and writing it leaves the others alone (10_state.md R22). -/
def Obligations.RegisterFileReadsBackWhatWasWritten : Prop :=
  (selectW 0#4 = some .w0 ∧ selectW 1#4 = some .w1 ∧ selectW 2#4 = some .w2 ∧ selectW 3#4 = some .w3) ∧
  (∀ r : BitVec 4, 4 ≤ r.toNat → selectW r = none) ∧
  ∀ (f : WFile) (r q : WReg) (x : Wide), (f.set r x).get q = if q = r then x else f.get q

/-- WRL completes: one limb of W[rd] is the data operand, its other limbs are as they were, and nothing else changes but
LAST and the response (44_register_access.md R190). -/
def Obligations.WrlWritesOneLimb : Prop :=
  ∀ (s : State) (rd : BitVec 4) (idx : BitVec 16) (data : Limb) (d : WReg), s.Ready →
    selectW rd = some d → idx.toNat < s.cfg.limbs →
    ∃ X : Wide, X.length = s.cfg.limbs ∧ wideLimb X idx.toNat = data ∧
      (∀ j, j ≠ idx.toNat → wideLimb X j = wideLimb (s.readW d) j) ∧
      exec (.wrl rd idx data) s = .next ({ s with w := s.w.set d X }.reporting .ok 0#64)

/-- RDL and RDMOD complete with the limb they name and change nothing but LAST and the response; again in the state they
leave, they leave that very state (R191, 43_sampling.md R163, 20_memory.md R57). RDMOD does so whatever MODV is. -/
def Obligations.RdlAndRdmodReadOneLimb : Prop :=
  ∀ (s : State) (idx : BitVec 16), s.Ready → idx.toNat < s.cfg.limbs →
    (∀ ra a, selectW ra = some a →
      exec (.rdl ra idx) s = .next (s.reporting .ok (wideLimb (s.readW a) idx.toNat)) ∧
      exec (.rdl ra idx) (s.reporting .ok (wideLimb (s.readW a) idx.toNat)) =
        .next (s.reporting .ok (wideLimb (s.readW a) idx.toNat))) ∧
    exec (.rdmod idx) s = .next (s.reporting .ok (wideLimb s.mod idx.toNat)) ∧
    exec (.rdmod idx) (s.reporting .ok (wideLimb s.mod idx.toNat)) =
      .next (s.reporting .ok (wideLimb s.mod idx.toNat))

/-- CLR and MOV complete: W[rd] is zero, or the old W[ra], and nothing else changes but LAST and the response
(R192, R193). -/
def Obligations.ClrAndMovWriteOneRegister : Prop :=
  ∀ (s : State) (rd : BitVec 4) (d : WReg), s.Ready → selectW rd = some d →
    (∃ X : Wide, X.length = s.cfg.limbs ∧ wideVal X = 0 ∧
      exec (.clr rd) s = .next ({ s with w := s.w.set d X }.reporting .ok 0#64)) ∧
    ∀ ra a, selectW ra = some a →
      exec (.mov rd ra) s = .next ({ s with w := s.w.set d (s.readW a) }.reporting .ok 0#64)

/-- RDCSR completes with the content the register had before this command's own completion, and changes nothing but LAST
and the response, LAST only when FATAL = 0 (R194; contents R32 to R34). -/
def Obligations.RdcsrReadsTheSixRegisters : Prop :=
  ∀ (s : State) (csr : BitVec 16), s.Inv → s.inflight = none → csr.toNat ≤ 5 →
    ∃ v : Limb,
      exec (.rdcsr csr) s =
        .next { s with last := if s.fatal then s.last else 0x00#8, response := some { status := .ok, data := v } } ∧
      (csr = 0#16 → v.toNat = statusValue s) ∧ (csr = 1#16 → v = s.borrow) ∧ (csr = 2#16 → v.toNat = s.ct.toNat) ∧
      (csr = 3#16 → v = s.attempts) ∧
      (csr = 4#16 → v.toNat = s.cfg.limbs + 2 ^ 16 * 4 + 2 ^ 24 * 64) ∧
      (csr = 5#16 → v.toNat = s.cfg.maxAttempts)

/-- WRCSR completes on BORROW: all 64 bits are stored as given, and nothing else changes but LAST and the response
(R195). -/
def Obligations.WrcsrStoresBorrow : Prop :=
  ∀ (s : State) (data : Limb), s.Ready →
    exec (.wrcsr 1#16 data) s = .next ({ s with borrow := data }.reporting .ok 0#64)

/-- Access rights to the CSRs: every CSR can be read at any time, while FATAL = 1 too; WRCSR writes BORROW alone, any
value; a write to a read-only CSR completes with READ_ONLY and an absent number with BAD_INDEX, changing nothing but
LAST (10_state.md R35; WRCSR while FATAL = 1 is refused before this, R216). -/
def Obligations.CsrAccessRights : Prop :=
  ∀ (s : State) (csr : BitVec 16) (data : Limb), s.Inv → s.inflight = none →
    (csr.toNat ≤ 5 → ∃ t v, exec (.rdcsr csr) s = .next t ∧ t.response = some { status := .ok, data := v }) ∧
    (s.fatal = false → csr = 1#16 → exec (.wrcsr csr data) s = .next ({ s with borrow := data }.reporting .ok 0#64)) ∧
    (s.fatal = false → csr.toNat ≤ 5 → csr ≠ 1#16 →
      exec (.wrcsr csr data) s = .next (s.reporting .readOnly 0#64)) ∧
    (5 < csr.toNat →
      exec (.rdcsr csr) s =
        .next { s with
          last := if s.fatal then s.last else 0x04#8
          response := some { status := .badIndex, data := 0#64 } } ∧
      (s.fatal = false → exec (.wrcsr csr data) s = .next (s.reporting .badIndex 0#64)))

/-! ## Errors and completion -/

/-- The first check of R80 that fails decides the status: register fields, then index, length or CSR, then the modulus;
and then nothing is written but LAST (R80, R215, R219). -/
def Obligations.FirstFailingCheckDecidesTheStatus : Prop :=
  ∀ (s : State) (i : Instr) (e : Status), s.Ready → firstCheckFailed s i = some e →
    exec i s = .next (s.reporting e 0#64)

/-- A command whose operands are in range (30_encoding.md R79) meets none of BAD_REGISTER, BAD_INDEX, BAD_LENGTH and
READ_ONLY, and one whose operands are not meets one of them. -/
def Obligations.WellFormedMeansNoOperandError : Prop :=
  ∀ (s : State) (i : Instr) (t : State), s.Ready → exec i s = .next t →
    (i.wellFormed s.cfg = true ↔
      ∀ r ∈ t.response, r.status ≠ .badRegister ∧ r.status ≠ .badIndex ∧ r.status ≠ .badLength ∧ r.status ≠ .readOnly)

/-- A command that ends with a code other than OK answers data 0 and writes no state but LAST and, for SETMOD with
ZERO_MODULUS, MODV; for SAMPLE with SOURCE_FAIL, ATTEMPTS; for SAMPLE with RETRY_EXCEEDED, ATTEMPTS and FATAL (with
CSTATE). CAND and the stream position move only for a command that drew (60_exceptions.md R212). -/
def Obligations.ErrorsWriteOnlyWhatTheyRecord : Prop :=
  ∀ (s : State) (i : Instr) (t : State) (r : Completion), s.Ready → exec i s = .next t → t.response = some r →
    r.status ≠ .ok →
    r.data = 0#64 ∧ t.last = r.status.code ∧ t.cfg = s.cfg ∧ t.w = s.w ∧ t.mod = s.mod ∧ t.borrow = s.borrow ∧
    t.ct = s.ct ∧ t.srcBusy = false ∧ t.inflight = none ∧ t.host = s.host ∧
    t.modv = (if r.status = .zeroModulus then false else s.modv) ∧
    t.fatal = decide (r.status = .retryExceeded) ∧
    t.cstate = (if r.status = .retryExceeded then .fault else .idle) ∧
    (r.status ≠ .sourceFail → r.status ≠ .retryExceeded → t.attempts = s.attempts ∧ t.cand = s.cand ∧ t.source = s.source) ∧
    ((∀ rd, i ≠ .sample rd) → t.attempts = s.attempts)

/-- The data word is 0 unless the status is OK and the command is one of RDL, RDMOD, RDCSR, LT, GT and EQ; and the status
of a completed command is then in LAST (R211, R212). -/
def Obligations.OnlyReadsAndComparisonsAnswerData : Prop :=
  ∀ (s : State) (i : Instr) (t : State) (r : Completion), s.Ready → exec i s = .next t → t.response = some r →
    t.last = r.status.code ∧
    (r.data ≠ 0#64 → r.status = .ok ∧
      ((∃ ra idx, i = .rdl ra idx) ∨ (∃ idx, i = .rdmod idx) ∨ (∃ csr, i = .rdcsr csr) ∨ (∃ ra rb, i = .lt ra rb) ∨
        (∃ ra rb, i = .gt ra rb) ∨ ∃ ra rb, i = .eq ra rb))

/-! ## Random bits -/

/-- GEN completes when the source answers every active limb: bit p of W[rd] is bit (p mod 8) of stream byte (p div 8)
below `len` and 0 from `len` on, whatever W[rd] held; exactly ceil(len / 64) transactions are made; nothing else changes
but LAST and the response (42_random_bits.md R147, R148, R151; R147 and R151 the spec derives from R145 and R146). -/
def Obligations.GenFillsTheLowBitsFromTheStream : Prop :=
  ∀ (s : State) (rd : BitVec 4) (len : BitVec 16) (d : WReg) (bs : List Fill) (rest : List SrcEvent), s.Ready →
    selectW rd = some d → 1 ≤ len.toNat → len.toNat ≤ s.cfg.width → bs.length = (len.toNat + 63) / 64 →
    s.source = bs.map .ok ++ rest →
    ∃ X C : Wide, X.length = s.cfg.limbs ∧
      (∀ p, p < s.cfg.width →
        wideBit X p = (decide (p < len.toNat) && ((streamBytes bs).getD (p / 8) 0#8).getLsbD (p % 8))) ∧
      exec (.gen rd len) s = .next ({ s with w := s.w.set d X, cand := C, source := rest }.reporting .ok 0#64)

/-- GEN with length 0 completes with OK, draws nothing and leaves the register untouched (R149). -/
def Obligations.GenOfLengthZeroDrawsNothing : Prop :=
  ∀ (s : State) (rd : BitVec 4) (d : WReg), s.Ready → selectW rd = some d →
    exec (.gen rd 0#16) s = .next (s.reporting .ok 0#64)

/-- GEN with a length above WIDTH completes with BAD_LENGTH, draws nothing and writes nothing but LAST (R150). -/
def Obligations.GenAboveTheWidthIsBadLength : Prop :=
  ∀ (s : State) (rd : BitVec 4) (len : BitVec 16) (d : WReg), s.Ready → selectW rd = some d →
    s.cfg.width < len.toNat → exec (.gen rd len) s = .next (s.reporting .badLength 0#64)

/-- A `fail` answer before the last active limb ends GEN with SOURCE_FAIL: the register keeps its value, FATAL stays 0 and
the bytes delivered are lost (R144, R148). The second part is about every step that begins a GEN or goes on with one that
has waited: unless the step ends the GEN with OK its register keeps its value, and in any case no other register, MOD,
MODV, BORROW, CT, FATAL or ATTEMPTS changes (R55, R219). -/
def Obligations.GenStopsAtASourceFailure : Prop :=
  (∀ (s : State) (rd : BitVec 4) (len : BitVec 16) (d : WReg) (bs : List Fill) (rest : List SrcEvent), s.Ready →
    selectW rd = some d → len.toNat ≤ s.cfg.width → bs.length < (len.toNat + 63) / 64 →
    s.source = bs.map .ok ++ .fail :: rest →
    ∃ C : Wide, exec (.gen rd len) s = .next ({ s with cand := C, source := rest }.reporting .sourceFail 0#64)) ∧
  ∀ (s t : State) (d : WReg), s.Inv → s.RunsGen d → ¬ s.ResetNext → step s = .next t →
    t.borrow = s.borrow ∧ t.ct = s.ct ∧ t.mod = s.mod ∧ t.modv = s.modv ∧ t.fatal = s.fatal ∧
    t.attempts = s.attempts ∧ (∀ q, q ≠ d → t.readW q = s.readW q) ∧
    ((∀ v, t.response ≠ some { status := .ok, data := v }) → t.readW d = s.readW d)

/-- A source that never answers: the command in progress never completes and the state stays as it is, whatever command
the host would like to issue next (R143, R246, 43_sampling.md R173; the host's script is the model's, log 5). -/
def Obligations.UnansweredRequestHangs : Prop :=
  ∀ (s : State) (f : InFlight), s.Inv → s.inflight = some f → s.source = [] →
    (s.host = [] → step s = .next s) ∧
    (∀ c rest, s.host = .command c :: rest → step s = .next s) ∧
    ∀ rest, s.host = .quiet :: rest → step s = .next { s with host := rest }

/-- Waiting changes nothing in the end: a command in progress that stops at a `pending` event and goes on in the next
step leaves what it leaves when that event is not there (R143; `pending` is the model's, log 3). And all state is kept
across a wait (R226): a step that ends with a command waiting, from its start or after other waits, changes nothing but
CAND, the record of the outstanding request, the completion (none yet), CSTATE as R165 has it (IDLE for GEN is the model's,
log 9), and what the source and the host have still to do (log 2, log 5). -/
def Obligations.WaitingDoesNotChangeTheOutcome : Prop :=
  (∀ (s u : State) (f : InFlight) (pre post : List SrcEvent), s.Inv → s.inflight = some f → s.host = [] →
    step { s with source := pre ++ .pending :: post } = .next u → u.source = post →
    step u = step { s with source := pre ++ post }) ∧
  ∀ (s t : State) (f : InFlight), s.Inv → step s = .next t → t.inflight = some f →
    (∀ g, s.inflight = some g → f.job = g.job) ∧
    (∃ used, s.source = used ++ t.source) ∧ (t.host = s.host ∨ ∃ m, s.host = m :: t.host) ∧
    t = { s with
      source := t.source
      host := t.host
      cand := t.cand
      inflight := some f
      srcBusy := true
      response := none
      cstate := match f.job with
        | .gen _ _ => .idle
        | .sample _ => .sampling }

/-- The same from the command's start: a GEN or SAMPLE that stops at a `pending` event on its way and goes on in the next
step leaves what it leaves in one step when that event is not there (R143; `pending` is the model's, log 3). -/
def Obligations.StartedCommandWaitsWithoutChangingTheOutcome : Prop :=
  ∀ (i : Instr) (s u : State) (pre post : List SrcEvent), s.Ready → s.host = [] →
    exec i { s with source := pre ++ .pending :: post } = .next u → u.source = post →
    step u = exec i { s with source := pre ++ post }

/-- The source is drawn from by GEN and SAMPLE alone (R141): its script stays as it is in any other step but a reset that
drops an outstanding request. -/
def Obligations.OnlyGenAndSampleDrawFromTheSource : Prop :=
  ∀ s t : State, s.Inv → step s = .next t → t.source ≠ s.source →
    (∃ d, s.RunsGen d ∨ s.RunsSample d) ∨ (s.ResetNext ∧ s.srcBusy = true)

/-! ## Modulus and sampling -/

/-- SETMOD admits a non-zero value: MOD and MODV are written; a zero value clears MODV, leaves MOD and completes with
ZERO_MODULUS, which is not fatal; nothing else changes but LAST and the response (43_sampling.md R161). -/
def Obligations.SetmodAdmitsExactlyNonZero : Prop :=
  ∀ (s : State) (ra : BitVec 4) (a : WReg), s.Ready → selectW ra = some a →
    (wideVal (s.readW a) ≠ 0 →
      exec (.setmod ra) s = .next ({ s with mod := s.readW a, modv := true }.reporting .ok 0#64)) ∧
    (wideVal (s.readW a) = 0 →
      exec (.setmod ra) s = .next ({ s with modv := false }.reporting .zeroModulus 0#64))

/-- SAMPLE completes on the first candidate below MOD: the draws before it are rejected, a draw equal to MOD too, W[rd] is
that candidate, ATTEMPTS counts the draws, exactly LIMBS transactions are made for each draw, and nothing else changes
but LAST and the response (R164, R166). -/
def Obligations.SampleAcceptsTheFirstDrawBelowTheModulus : Prop :=
  ∀ (s : State) (rd : BitVec 4) (d : WReg) (rejected : List (List Fill)) (accepted : List Fill) (rest : List SrcEvent),
    s.Ready → s.modv = true → selectW rd = some d →
    (∀ x ∈ rejected, x.length = s.cfg.limbs ∧ wideVal s.mod ≤ wideVal (drawValue x)) →
    accepted.length = s.cfg.limbs → wideVal (drawValue accepted) < wideVal s.mod →
    rejected.length < s.cfg.maxAttempts → s.source = scriptOf (rejected ++ [accepted]) ++ rest →
    ∃ C : Wide, exec (.sample rd) s =
      .next ({ s with
        w := s.w.set d (drawValue accepted)
        attempts := BitVec.ofNat 64 (rejected.length + 1)
        cand := C
        source := rest }.reporting .ok 0#64)

/-- The retry ceiling: MAX_ATTEMPTS draws, all rejected, end SAMPLE with RETRY_EXCEEDED; ATTEMPTS is MAX_ATTEMPTS, FATAL
is 1, CSTATE is FAULT, the wide registers are as they were, and no further transaction is made (R167). -/
def Obligations.SampleStopsAtTheRetryCeiling : Prop :=
  ∀ (s : State) (rd : BitVec 4) (d : WReg) (draws : List (List Fill)) (rest : List SrcEvent),
    s.Ready → s.modv = true → selectW rd = some d →
    (∀ x ∈ draws, x.length = s.cfg.limbs ∧ wideVal s.mod ≤ wideVal (drawValue x)) →
    draws.length = s.cfg.maxAttempts → s.source = scriptOf draws ++ rest →
    ∃ C : Wide, exec (.sample rd) s =
      .next ({ s with
        attempts := BitVec.ofNat 64 s.cfg.maxAttempts
        fatal := true
        cstate := .fault
        cand := C
        source := rest }.reporting .retryExceeded 0#64)

/-- A source failure during SAMPLE ends it with SOURCE_FAIL: ATTEMPTS is the number of draws completed before the failing
one, W[rd] is unchanged and FATAL is not set (R168). -/
def Obligations.SampleStopsAtASourceFailure : Prop :=
  ∀ (s : State) (rd : BitVec 4) (d : WReg) (rejected : List (List Fill)) (part : List Fill) (rest : List SrcEvent),
    s.Ready → s.modv = true → selectW rd = some d →
    (∀ x ∈ rejected, x.length = s.cfg.limbs ∧ wideVal s.mod ≤ wideVal (drawValue x)) →
    rejected.length < s.cfg.maxAttempts → part.length < s.cfg.limbs →
    s.source = scriptOf rejected ++ part.map .ok ++ .fail :: rest →
    ∃ C : Wide, exec (.sample rd) s =
      .next ({ s with
        attempts := BitVec.ofNat 64 rejected.length
        cand := C
        source := rest }.reporting .sourceFail 0#64)

/-- Whenever SAMPLE completes with OK, from any state of the invariant and however often it waited, W[rd] is below MOD
(R169, which the spec derives from R166 and R120). -/
def Obligations.SampleResultIsBelowTheModulus : Prop :=
  ∀ (s t : State) (d : WReg) (v : Limb), s.Inv → s.RunsSample d → step s = .next t →
    t.response = some { status := .ok, data := v } →
    wideVal (t.readW d) < wideVal t.mod ∧ t.mod = s.mod ∧ t.modv = true

/-- Every value of WIDTH bits is the candidate of exactly one run of answers of a draw: what makes a uniform source give
uniform candidates, and so a uniform result (R164; the uniformity is the spec's inference in R169, log 21). -/
def Obligations.EachCandidateHasExactlyOneAnswerRun : Prop :=
  ∀ (n v : Nat), v < 2 ^ (64 * n) → ∃ bs : List Fill, (bs.length = n ∧ wideVal (drawValue bs) = v) ∧
    ∀ bs' : List Fill, bs'.length = n ∧ wideVal (drawValue bs') = v → bs' = bs

/-- SAMPLE is a function of MOD, MAX_ATTEMPTS and the source's answers: two states that agree on these (and on LIMBS)
end with the same status, ATTEMPTS, FATAL, result and stream position (R170, which the spec derives from R166 and R152).
-/
def Obligations.SampleDependsOnModulusCeilingAndSource : Prop :=
  ∀ (s s' t t' : State) (rd : BitVec 4) (d : WReg), s.Ready → s'.Ready → s.modv = true → s'.modv = true →
    s'.cfg = s.cfg → s'.mod = s.mod → s'.source = s.source → selectW rd = some d →
    exec (.sample rd) s = .next t → exec (.sample rd) s' = .next t' →
    t'.response = t.response ∧ t'.fatal = t.fatal ∧ t'.source = t.source ∧ t'.inflight = t.inflight ∧
    (t.response ≠ none → t'.attempts = t.attempts ∧ t'.last = t.last) ∧
    (t.response = some { status := .ok, data := 0#64 } → t'.readW d = t.readW d)

/-- SAMPLE writes neither BORROW nor CT, nor MOD, nor any wide register but W[rd], and W[rd] only on acceptance (R172; MOD,
R24). ATTEMPTS and FATAL it does write (R166), as other statements say. -/
def Obligations.SampleWritesItsRegisterOnlyOnAcceptance : Prop :=
  ∀ (s t : State) (d : WReg), s.Inv → s.RunsSample d → ¬ s.ResetNext → step s = .next t →
    t.borrow = s.borrow ∧ t.ct = s.ct ∧ t.mod = s.mod ∧ (∀ q, q ≠ d → t.readW q = s.readW q) ∧
    ((∀ v, t.response ≠ some { status := .ok, data := v }) → t.readW d = s.readW d)

/-- What CAND holds between commands cannot be observed: it changes nothing of what a command does, CAND itself apart
(10_state.md R37, R172). -/
def Obligations.CandidateRegisterIsUnobservable : Prop :=
  ∀ (i : Instr) (s : State) (x : Wide), ∃ t t', exec i s = .next t ∧ exec i { s with cand := x } = .next t' ∧
    { t' with cand := t.cand } = t

/-- GEN makes at most LIMBS and SAMPLE at most MAX_ATTEMPTS × LIMBS source transactions, and each completes within them
when the source answers every request (70_reset_and_hazards.md R251, 42_random_bits.md R143). -/
def Obligations.GenAndSampleAreBounded : Prop :=
  ∀ (s : State), s.Ready →
    (∀ rd len, s.cfg.limbs ≤ s.source.length → SrcEvent.pending ∉ s.source.take s.cfg.limbs →
      ∃ t n, exec (.gen rd len) s = .next t ∧ t.response ≠ none ∧ n ≤ s.cfg.limbs ∧ t.source = s.source.drop n) ∧
    (∀ rd, s.cfg.maxAttempts * s.cfg.limbs ≤ s.source.length →
      SrcEvent.pending ∉ s.source.take (s.cfg.maxAttempts * s.cfg.limbs) →
      ∃ t n, exec (.sample rd) s = .next t ∧ t.response ≠ none ∧ n ≤ s.cfg.maxAttempts * s.cfg.limbs ∧
        t.source = s.source.drop n)

/-! ## Rules of the whole machine -/

/-- The controller's moves as a step shows them: ACCEPTED is never seen between steps; FAULT is left by reset alone, to
IDLE; FAULT and SAMPLING are entered by SAMPLE alone, SAMPLING only by one that passes its checks, and one that passes them
and waits for its first answer is in SAMPLING; SAMPLING goes to IDLE only when the SAMPLE has ended, with OK or
SOURCE_FAIL; and CSTATE is FAULT exactly when FATAL = 1 (R36, R165). The last part is the rows of R165 out of SAMPLING, in a
SAMPLE that has waited with `k` draws completed and its answers up to limb `n` in CAND: the candidate below MOD is accepted
and written; one not below MOD leads back to SAMPLING with the next draw begun, or to FAULT when it was the last; a failing
transaction leads to IDLE. -/
def Obligations.ControllerMovesAreThoseOfTheTable : Prop :=
  ∀ s t : State, s.Inv → step s = .next t →
    t.cstate ≠ .accepted ∧ (t.cstate = .fault ↔ t.fatal = true) ∧
    (s.cstate = .fault → ¬ s.ResetNext → t.cstate = .fault) ∧
    (t.cstate = .fault → s.cstate ≠ .fault → ∃ d, s.RunsSample d) ∧
    (t.cstate = .sampling → ∃ d, s.RunsSample d) ∧
    (s.cstate = .fault → s.ResetNext → t.cstate = .idle) ∧
    (t.cstate = .sampling → s.cstate ≠ .sampling →
      s.cstate = .idle ∧ s.modv = true ∧ ∃ rd d, s.Issues (.sample rd) ∧ selectW rd = some d) ∧
    (∀ rd d, s.Issues (.sample rd) → selectW rd = some d → s.modv = true → s.fatal = false →
      (s.source = [] ∨ ∃ post, s.source = .pending :: post) → t.cstate = .sampling) ∧
    (s.cstate = .sampling → t.cstate = .idle → ¬ s.ResetNext →
      t.inflight = none ∧
        (t.response = some { status := .ok, data := 0#64 } ∨ t.response = some { status := .sourceFail, data := 0#64 })) ∧
    ∀ (d : WReg) (n k : Nat) (bs : List Fill) (rest : List SrcEvent),
      s.inflight = some { job := .sample d, limb := n, draws := k } → ¬ s.ResetNext → s.source = bs.map .ok ++ rest →
      (n + bs.length = s.cfg.limbs → wideVal (s.cand.take n ++ drawValue bs) < wideVal s.mod →
        t.cstate = .idle ∧ t.response = some { status := .ok, data := 0#64 } ∧
          t.readW d = s.cand.take n ++ drawValue bs ∧ t.attempts.toNat = k + 1 ∧ t.source = rest) ∧
      (n + bs.length = s.cfg.limbs → wideVal s.mod ≤ wideVal (s.cand.take n ++ drawValue bs) →
        (k + 1 < s.cfg.maxAttempts → rest = [] ∨ (∃ post, rest = .pending :: post) →
          t.cstate = .sampling ∧ t.inflight = some { job := .sample d, limb := 0, draws := k + 1 }) ∧
        (k + 1 = s.cfg.maxAttempts →
          t.cstate = .fault ∧ t.response = some { status := .retryExceeded, data := 0#64 } ∧ t.source = rest)) ∧
      (n + bs.length < s.cfg.limbs → ∀ post, rest = .fail :: post →
        t.cstate = .idle ∧ t.response = some { status := .sourceFail, data := 0#64 } ∧ t.attempts.toNat = k)

/-- MOD and MODV are written by SETMOD and by reset alone (10_state.md R24, R25). -/
def Obligations.OnlySetmodWritesTheModulus : Prop :=
  ∀ s t : State, s.Inv → step s = .next t → t.mod ≠ s.mod ∨ t.modv ≠ s.modv →
    s.ResetNext ∨ ∃ ra, s.Issues (.setmod ra)

/-- BORROW is written by SUB, SBB, WRCSR and reset alone (R26). -/
def Obligations.OnlySubSbbAndWrcsrWriteBorrow : Prop :=
  ∀ s t : State, s.Inv → step s = .next t → t.borrow ≠ s.borrow →
    s.ResetNext ∨ (∃ rd ra rb, s.Issues (.sub rd ra rb)) ∨ (∃ rd ra rb, s.Issues (.sbb rd ra rb)) ∨
      ∃ csr data, s.Issues (.wrcsr csr data)

/-- CT is written by LT, GT, EQ and reset alone (R27). -/
def Obligations.OnlyComparisonsWriteCt : Prop :=
  ∀ s t : State, s.Inv → step s = .next t → t.ct ≠ s.ct →
    s.ResetNext ∨ (∃ ra rb, s.Issues (.lt ra rb)) ∨ (∃ ra rb, s.Issues (.gt ra rb)) ∨ ∃ ra rb, s.Issues (.eq ra rb)

/-- FATAL is set by SAMPLE alone, with RETRY_EXCEEDED, and cleared by reset alone (R28). -/
def Obligations.OnlySampleSetsAndOnlyResetClearsFatal : Prop :=
  ∀ s t : State, s.Inv → step s = .next t →
    (s.fatal = false → t.fatal = true →
      (∃ d, s.RunsSample d) ∧ t.response = some { status := .retryExceeded, data := 0#64 }) ∧
    (s.fatal = true → t.fatal = false → s.ResetNext)

/-- ATTEMPTS is written by SAMPLE and reset alone (R30). -/
def Obligations.OnlySampleWritesAttempts : Prop :=
  ∀ s t : State, s.Inv → step s = .next t → t.attempts ≠ s.attempts → s.ResetNext ∨ ∃ d, s.RunsSample d

/-- LAST changes only in a step that ends a command begun with FATAL = 0, and then to the code of its completion, or by
reset; and every completion of a command begun with FATAL = 0 leaves its code in LAST (R29, R212). A step that waits for the
host or for the source leaves it alone. (The completion read on the port and the host's moves are the model's, log 7,
log 5.) -/
def Obligations.LastChangesOnlyWhenACommandCompletes : Prop :=
  ∀ s t : State, s.Inv → step s = .next t →
    (t.last ≠ s.last → s.ResetNext ∨
      (s.fatal = false ∧ t.inflight = none ∧ (s.inflight ≠ none ∨ ∃ c rest, s.host = .command c :: rest) ∧
        ∃ r, t.response = some r ∧ t.last = r.status.code)) ∧
    (s.fatal = false → (s.inflight ≠ none ∨ ∃ c rest, s.host = .command c :: rest) →
      ∀ r, t.response = some r → t.last = r.status.code)

/-- A wide register is written only by a command whose rd names it, or by reset (R23); the parameters of the instance are
never written (R20). -/
def Obligations.WideRegistersChangeOnlyThroughTheirOwnNumber : Prop :=
  ∀ s t : State, s.Inv → step s = .next t →
    t.cfg = s.cfg ∧
    ∀ d, t.readW d ≠ s.readW d →
      s.ResetNext ∨ s.RunsGen d ∨ s.RunsSample d ∨
        ∃ i rd, s.Issues i ∧ directDest i = some rd ∧ selectW rd = some d

/-! ## Pseudo-instructions -/

/-- LDW takes exactly LIMBS values v0, v1, … and its command k is `WRL Wd, k, vk`, whatever the register field; running
them loads W0 to W3, and with a field of 4 to 15 each of them completes with BAD_REGISTER and nothing is written but LAST.
The other pseudo-instructions are the commands R82 lists (30_encoding.md R82). -/
def Obligations.PseudoInstructionsExpandAsListed : Prop :=
  (∀ (s : State) (rd : BitVec 4) (d : WReg) (vs : List Limb), s.Ready → selectW rd = some d →
    vs.length = s.cfg.limbs →
    ∃ is, (Pseudo.ldw rd vs).expand s.cfg = some is ∧ is.length = s.cfg.limbs ∧
      runAll is s = .next ({ s with w := s.w.set d vs }.reporting .ok 0#64)) ∧
  (∀ (s : State) (rd : BitVec 4) (vs : List Limb), s.Ready → 4 ≤ rd.toNat → vs.length = s.cfg.limbs →
    ∃ is, (Pseudo.ldw rd vs).expand s.cfg = some is ∧ runAll is s = .next (s.reporting .badRegister 0#64)) ∧
  (∀ (c : Config) (rd : BitVec 4) (vs : List Limb), vs.length = c.limbs →
    ∃ is, (Pseudo.ldw rd vs).expand c = some is ∧ is.length = c.limbs ∧
      ∀ k v, vs[k]? = some v → is[k]? = some (Instr.wrl rd (BitVec.ofNat 16 k) v)) ∧
  (∀ (c : Config) (rd : BitVec 4) (vs : List Limb), vs.length ≠ c.limbs → (Pseudo.ldw rd vs).expand c = none) ∧
  ∀ c : Config,
    (∀ ra, (Pseudo.rdw ra).expand c = some ((List.range c.limbs).map fun k => .rdl ra (BitVec.ofNat 16 k))) ∧
    Pseudo.rdstatus.expand c = some [.rdcsr 0#16] ∧ Pseudo.rdborrow.expand c = some [.rdcsr 1#16] ∧
    Pseudo.rdct.expand c = some [.rdcsr 2#16] ∧ Pseudo.rdattempts.expand c = some [.rdcsr 3#16] ∧
    Pseudo.rdconfig.expand c = some [.rdcsr 4#16] ∧ Pseudo.rdmaxatt.expand c = some [.rdcsr 5#16] ∧
    (∀ v, (Pseudo.wrborrow v).expand c = some [.wrcsr 1#16 v]) ∧
    Pseudo.clrborrow.expand c = some [.wrcsr 1#16 0#64] ∧
    Pseudo.setborrow.expand c = some [.wrcsr 1#16 0xFFFFFFFFFFFFFFFF#64]
end

