-- ==== Sys2Proof/Laws/State.lean ====
section
/-! SUPPORT. One lemma per field per update of State (true by rfl), and reading the register file back. -/

namespace Sys2Proof.Machine

@[simp] theorem writeW_cfg (s : State) (r : WReg) (x : Wide) : (s.writeW r x).cfg = s.cfg := rfl
@[simp] theorem writeW_w (s : State) (r : WReg) (x : Wide) : (s.writeW r x).w = s.w.set r x := rfl
@[simp] theorem writeW_mod (s : State) (r : WReg) (x : Wide) : (s.writeW r x).mod = s.mod := rfl
@[simp] theorem writeW_modv (s : State) (r : WReg) (x : Wide) : (s.writeW r x).modv = s.modv := rfl
@[simp] theorem writeW_borrow (s : State) (r : WReg) (x : Wide) : (s.writeW r x).borrow = s.borrow := rfl
@[simp] theorem writeW_ct (s : State) (r : WReg) (x : Wide) : (s.writeW r x).ct = s.ct := rfl
@[simp] theorem writeW_fatal (s : State) (r : WReg) (x : Wide) : (s.writeW r x).fatal = s.fatal := rfl
@[simp] theorem writeW_last (s : State) (r : WReg) (x : Wide) : (s.writeW r x).last = s.last := rfl
@[simp] theorem writeW_attempts (s : State) (r : WReg) (x : Wide) : (s.writeW r x).attempts = s.attempts := rfl
@[simp] theorem writeW_cstate (s : State) (r : WReg) (x : Wide) : (s.writeW r x).cstate = s.cstate := rfl
@[simp] theorem writeW_cand (s : State) (r : WReg) (x : Wide) : (s.writeW r x).cand = s.cand := rfl
@[simp] theorem writeW_srcBusy (s : State) (r : WReg) (x : Wide) : (s.writeW r x).srcBusy = s.srcBusy := rfl
@[simp] theorem writeW_inflight (s : State) (r : WReg) (x : Wide) : (s.writeW r x).inflight = s.inflight := rfl
@[simp] theorem writeW_response (s : State) (r : WReg) (x : Wide) : (s.writeW r x).response = s.response := rfl
@[simp] theorem writeW_source (s : State) (r : WReg) (x : Wide) : (s.writeW r x).source = s.source := rfl
@[simp] theorem writeW_host (s : State) (r : WReg) (x : Wide) : (s.writeW r x).host = s.host := rfl

@[simp] theorem finish_cfg (s : State) (b : Bool) (c : Status) (v : Limb) : (s.finish b c v).cfg = s.cfg := rfl
@[simp] theorem finish_w (s : State) (b : Bool) (c : Status) (v : Limb) : (s.finish b c v).w = s.w := rfl
@[simp] theorem finish_mod (s : State) (b : Bool) (c : Status) (v : Limb) : (s.finish b c v).mod = s.mod := rfl
@[simp] theorem finish_modv (s : State) (b : Bool) (c : Status) (v : Limb) : (s.finish b c v).modv = s.modv := rfl
@[simp] theorem finish_borrow (s : State) (b : Bool) (c : Status) (v : Limb) : (s.finish b c v).borrow = s.borrow := rfl
@[simp] theorem finish_ct (s : State) (b : Bool) (c : Status) (v : Limb) : (s.finish b c v).ct = s.ct := rfl
@[simp] theorem finish_fatal (s : State) (b : Bool) (c : Status) (v : Limb) : (s.finish b c v).fatal = s.fatal := rfl
@[simp] theorem finish_last (s : State) (b : Bool) (c : Status) (v : Limb) : (s.finish b c v).last = if b then s.last else c.code := rfl
@[simp] theorem finish_attempts (s : State) (b : Bool) (c : Status) (v : Limb) : (s.finish b c v).attempts = s.attempts := rfl
@[simp] theorem finish_cstate (s : State) (b : Bool) (c : Status) (v : Limb) : (s.finish b c v).cstate = if s.fatal then .fault else .idle := rfl
@[simp] theorem finish_cand (s : State) (b : Bool) (c : Status) (v : Limb) : (s.finish b c v).cand = s.cand := rfl
@[simp] theorem finish_srcBusy (s : State) (b : Bool) (c : Status) (v : Limb) : (s.finish b c v).srcBusy = false := rfl
@[simp] theorem finish_inflight (s : State) (b : Bool) (c : Status) (v : Limb) : (s.finish b c v).inflight = none := rfl
@[simp] theorem finish_response (s : State) (b : Bool) (c : Status) (v : Limb) : (s.finish b c v).response = some { status := c, data := v } := rfl
@[simp] theorem finish_source (s : State) (b : Bool) (c : Status) (v : Limb) : (s.finish b c v).source = s.source := rfl
@[simp] theorem finish_host (s : State) (b : Bool) (c : Status) (v : Limb) : (s.finish b c v).host = s.host := rfl

@[simp] theorem complete_cfg (s : State) (c : Status) (v : Limb) : (s.complete c v).cfg = s.cfg := rfl
@[simp] theorem complete_w (s : State) (c : Status) (v : Limb) : (s.complete c v).w = s.w := rfl
@[simp] theorem complete_mod (s : State) (c : Status) (v : Limb) : (s.complete c v).mod = s.mod := rfl
@[simp] theorem complete_modv (s : State) (c : Status) (v : Limb) : (s.complete c v).modv = s.modv := rfl
@[simp] theorem complete_borrow (s : State) (c : Status) (v : Limb) : (s.complete c v).borrow = s.borrow := rfl
@[simp] theorem complete_ct (s : State) (c : Status) (v : Limb) : (s.complete c v).ct = s.ct := rfl
@[simp] theorem complete_fatal (s : State) (c : Status) (v : Limb) : (s.complete c v).fatal = s.fatal := rfl
@[simp] theorem complete_last (s : State) (c : Status) (v : Limb) : (s.complete c v).last = if s.fatal then s.last else c.code := rfl
@[simp] theorem complete_attempts (s : State) (c : Status) (v : Limb) : (s.complete c v).attempts = s.attempts := rfl
@[simp] theorem complete_cstate (s : State) (c : Status) (v : Limb) : (s.complete c v).cstate = if s.fatal then .fault else .idle := rfl
@[simp] theorem complete_cand (s : State) (c : Status) (v : Limb) : (s.complete c v).cand = s.cand := rfl
@[simp] theorem complete_srcBusy (s : State) (c : Status) (v : Limb) : (s.complete c v).srcBusy = false := rfl
@[simp] theorem complete_inflight (s : State) (c : Status) (v : Limb) : (s.complete c v).inflight = none := rfl
@[simp] theorem complete_response (s : State) (c : Status) (v : Limb) : (s.complete c v).response = some { status := c, data := v } := rfl
@[simp] theorem complete_source (s : State) (c : Status) (v : Limb) : (s.complete c v).source = s.source := rfl
@[simp] theorem complete_host (s : State) (c : Status) (v : Limb) : (s.complete c v).host = s.host := rfl

@[simp] theorem await_cfg (s : State) (f : InFlight) : (s.await f).cfg = s.cfg := rfl
@[simp] theorem await_w (s : State) (f : InFlight) : (s.await f).w = s.w := rfl
@[simp] theorem await_mod (s : State) (f : InFlight) : (s.await f).mod = s.mod := rfl
@[simp] theorem await_modv (s : State) (f : InFlight) : (s.await f).modv = s.modv := rfl
@[simp] theorem await_borrow (s : State) (f : InFlight) : (s.await f).borrow = s.borrow := rfl
@[simp] theorem await_ct (s : State) (f : InFlight) : (s.await f).ct = s.ct := rfl
@[simp] theorem await_fatal (s : State) (f : InFlight) : (s.await f).fatal = s.fatal := rfl
@[simp] theorem await_last (s : State) (f : InFlight) : (s.await f).last = s.last := rfl
@[simp] theorem await_attempts (s : State) (f : InFlight) : (s.await f).attempts = s.attempts := rfl
@[simp] theorem await_cstate (s : State) (f : InFlight) : (s.await f).cstate = s.cstate := rfl
@[simp] theorem await_cand (s : State) (f : InFlight) : (s.await f).cand = s.cand := rfl
@[simp] theorem await_srcBusy (s : State) (f : InFlight) : (s.await f).srcBusy = true := rfl
@[simp] theorem await_inflight (s : State) (f : InFlight) : (s.await f).inflight = some f := rfl
@[simp] theorem await_response (s : State) (f : InFlight) : (s.await f).response = none := rfl
@[simp] theorem await_source (s : State) (f : InFlight) : (s.await f).source = s.source := rfl
@[simp] theorem await_host (s : State) (f : InFlight) : (s.await f).host = s.host := rfl

@[simp] theorem reporting_cfg (s : State) (c : Status) (v : Limb) : (s.reporting c v).cfg = s.cfg := rfl
@[simp] theorem reporting_w (s : State) (c : Status) (v : Limb) : (s.reporting c v).w = s.w := rfl
@[simp] theorem reporting_mod (s : State) (c : Status) (v : Limb) : (s.reporting c v).mod = s.mod := rfl
@[simp] theorem reporting_modv (s : State) (c : Status) (v : Limb) : (s.reporting c v).modv = s.modv := rfl
@[simp] theorem reporting_borrow (s : State) (c : Status) (v : Limb) : (s.reporting c v).borrow = s.borrow := rfl
@[simp] theorem reporting_ct (s : State) (c : Status) (v : Limb) : (s.reporting c v).ct = s.ct := rfl
@[simp] theorem reporting_fatal (s : State) (c : Status) (v : Limb) : (s.reporting c v).fatal = s.fatal := rfl
@[simp] theorem reporting_last (s : State) (c : Status) (v : Limb) : (s.reporting c v).last = c.code := rfl
@[simp] theorem reporting_attempts (s : State) (c : Status) (v : Limb) : (s.reporting c v).attempts = s.attempts := rfl
@[simp] theorem reporting_cstate (s : State) (c : Status) (v : Limb) : (s.reporting c v).cstate = s.cstate := rfl
@[simp] theorem reporting_cand (s : State) (c : Status) (v : Limb) : (s.reporting c v).cand = s.cand := rfl
@[simp] theorem reporting_srcBusy (s : State) (c : Status) (v : Limb) : (s.reporting c v).srcBusy = s.srcBusy := rfl
@[simp] theorem reporting_inflight (s : State) (c : Status) (v : Limb) : (s.reporting c v).inflight = s.inflight := rfl
@[simp] theorem reporting_response (s : State) (c : Status) (v : Limb) : (s.reporting c v).response = some { status := c, data := v } := rfl
@[simp] theorem reporting_source (s : State) (c : Status) (v : Limb) : (s.reporting c v).source = s.source := rfl
@[simp] theorem reporting_host (s : State) (c : Status) (v : Limb) : (s.reporting c v).host = s.host := rfl

@[simp] theorem assertReset_cfg (s : State) : (assertReset s).cfg = s.cfg := rfl
@[simp] theorem assertReset_w (s : State) : (assertReset s).w = { w0 := wideZero s.cfg.limbs, w1 := wideZero s.cfg.limbs, w2 := wideZero s.cfg.limbs, w3 := wideZero s.cfg.limbs } := rfl
@[simp] theorem assertReset_mod (s : State) : (assertReset s).mod = wideZero s.cfg.limbs := rfl
@[simp] theorem assertReset_modv (s : State) : (assertReset s).modv = false := rfl
@[simp] theorem assertReset_borrow (s : State) : (assertReset s).borrow = 0#64 := rfl
@[simp] theorem assertReset_ct (s : State) : (assertReset s).ct = 0#1 := rfl
@[simp] theorem assertReset_fatal (s : State) : (assertReset s).fatal = false := rfl
@[simp] theorem assertReset_last (s : State) : (assertReset s).last = 0x00#8 := rfl
@[simp] theorem assertReset_attempts (s : State) : (assertReset s).attempts = 0#64 := rfl
@[simp] theorem assertReset_cstate (s : State) : (assertReset s).cstate = .idle := rfl
@[simp] theorem assertReset_cand (s : State) : (assertReset s).cand = wideZero s.cfg.limbs := rfl
@[simp] theorem assertReset_srcBusy (s : State) : (assertReset s).srcBusy = false := rfl
@[simp] theorem assertReset_inflight (s : State) : (assertReset s).inflight = none := rfl
@[simp] theorem assertReset_response (s : State) : (assertReset s).response = none := rfl
@[simp] theorem assertReset_source (s : State) : (assertReset s).source = if s.srcBusy then dropLateAnswer s.source else s.source := rfl
@[simp] theorem assertReset_host (s : State) : (assertReset s).host = s.host := rfl

/-- Reading the register file after a write. -/
theorem wfile_get_set (f : WFile) (r q : WReg) (x : Wide) : (f.set r x).get q = if q = r then x else f.get q := by
  cases r <;> cases q <;> rfl

@[simp] theorem wfile_get_set_same (f : WFile) (r : WReg) (x : Wide) : (f.set r x).get r = x := by
  simp [wfile_get_set]

theorem wfile_get_set_of_ne (f : WFile) {r q : WReg} (x : Wide) (h : q ≠ r) : (f.set r x).get q = f.get q := by
  simp [wfile_get_set, h]

/-- Writing back what a register holds changes nothing. -/
@[simp] theorem wfile_set_get (f : WFile) (r : WReg) : f.set r (f.get r) = f := by
  cases r <;> rfl

/-- The reset input brings an instance in the reference configuration, with nothing scripted, to `State.reset`. -/
theorem assertReset_eq_reset (s : State) (hc : s.cfg = Config.reference) (hs : s.source = []) (hh : s.host = []) :
    assertReset s = State.reset := by
  simp [assertReset, hc, hs, hh, dropLateAnswer]
  rfl

end Sys2Proof.Machine
end

