-- ==== Sys2Proof/Laws/Ops.lean ====
section
/-! SUPPORT. What the shared operations do, said once: the checks of R80, completing, and the source transactions of a
command in progress. Later proofs cite these and do not unfold the operations. -/

namespace Sys2Proof.Machine

/-- A register field selects nothing exactly when it is 4 or more (R73). -/
theorem selectW_eq_none (r : BitVec 4) : selectW r = none ↔ nwReg ≤ r.toNat := by
  revert r; decide

/-- A register field below 4 selects a register. -/
theorem selectW_isSome (r : BitVec 4) : (selectW r).isSome = decide (r.toNat < nwReg) := by
  revert r; decide

/-- A CSR number is not present exactly when it is above 5 (R31). -/
theorem csrRead_eq_none (csr : BitVec 16) (s : State) : csrRead csr s = none ↔ 0x0005 < csr.toNat := by
  unfold csrRead
  split <;> simp_all [← BitVec.toNat_inj]
  omega

/-- While FATAL = 0 the first check passes. -/
theorem unlessFatal_of_not_fatal {s : State} (h : s.fatal = false) (t : State) : unlessFatal s t = t := by
  simp [unlessFatal, h]

theorem unlessFatal_of_fatal {s : State} (h : s.fatal = true) (t : State) :
    unlessFatal s t = s.complete .faulted 0#64 := by
  simp [unlessFatal, h]

theorem withReg_of_some {s : State} {r : BitVec 4} {d : WReg} (h : selectW r = some d) (k : WReg → State) :
    withReg s r k = k d := by
  simp [withReg, h]

theorem withReg_of_none {s : State} {r : BitVec 4} (h : selectW r = none) (k : WReg → State) :
    withReg s r k = s.complete .badRegister 0#64 := by
  simp [withReg, h]

theorem withLimbIndex_of_lt {s : State} {idx : BitVec 16} (h : idx.toNat < s.cfg.limbs) (k : Nat → State) :
    withLimbIndex s idx k = k idx.toNat := by
  simp [withLimbIndex, h]

theorem withLimbIndex_of_le {s : State} {idx : BitVec 16} (h : s.cfg.limbs ≤ idx.toNat) (k : Nat → State) :
    withLimbIndex s idx k = s.complete .badIndex 0#64 := by
  simp [withLimbIndex, Nat.not_lt.mpr h]

theorem withLength_of_le {s : State} {len : BitVec 16} (h : len.toNat ≤ s.cfg.width) (k : Nat → State) :
    withLength s len k = k len.toNat := by
  simp [withLength, h]

theorem withLength_of_lt {s : State} {len : BitVec 16} (h : s.cfg.width < len.toNat) (k : Nat → State) :
    withLength s len k = s.complete .badLength 0#64 := by
  simp [withLength, Nat.not_le.mpr h]

theorem withCsr_of_some {s : State} {csr : BitVec 16} {v : Limb} (h : csrRead csr s = some v) (k : Limb → State) :
    withCsr s csr k = k v := by
  simp [withCsr, h]

theorem withCsr_of_none {s : State} {csr : BitVec 16} (h : csrRead csr s = none) (k : Limb → State) :
    withCsr s csr k = s.complete .badIndex 0#64 := by
  simp [withCsr, h]

/-- Between commands, with FATAL = 0, a completion writes LAST and the response and nothing else (R212). -/
theorem complete_eq_reporting {s : State} (hf : s.fatal = false) (hb : s.srcBusy = false) (hc : s.cstate = .idle)
    (hi : s.inflight = none) (c : Status) (v : Limb) : s.complete c v = s.reporting c v := by
  cases s
  simp_all [State.complete, State.finish, State.reporting]

/-- What the head of SAMPLE's loop answers (R166, R167). -/
theorem sampleHead_cases (rd : WReg) (k : Nat) (s : State) :
    (k = s.cfg.maxAttempts ∧
      sampleHead rd k s =
        .done ({ s with attempts := BitVec.ofNat 64 k, fatal := true, cstate := .fault }.finish false .retryExceeded 0#64)) ∨
    (k ≠ s.cfg.maxAttempts ∧
      sampleHead rd k s = .more { job := .sample rd, limb := 0, draws := k } { s with cand := wideZero s.cfg.limbs }) := by
  unfold sampleHead
  split
  · exact .inl ⟨‹_›, rfl⟩
  · exact .inr ⟨‹_›, rfl⟩

/-- What one `ok` answer leads to (R146, R148, R166): the next limb of the same draw, a finished GEN, an accepted
candidate, or the loop head of SAMPLE with one draw more. -/
theorem takeFill_cases (f : InFlight) (b : Fill) (s : State) :
    (f.limb + 1 < activeLimbs (f.job.bits s.cfg) ∧
      takeFill f b s = .more { f with limb := f.limb + 1 }
        { s with cand := s.cand.set f.limb (drawnLimb (f.job.bits s.cfg) f.limb b) }) ∨
    (activeLimbs (f.job.bits s.cfg) ≤ f.limb + 1 ∧
      takeFill f b s = drawComplete f { s with cand := s.cand.set f.limb (drawnLimb (f.job.bits s.cfg) f.limb b) }) := by
  unfold takeFill
  simp only
  split
  · exact .inl ⟨‹_›, rfl⟩
  · exact .inr ⟨Nat.not_lt.mp ‹_›, rfl⟩

/-- The four ways the source transactions of a command go on (R142, R143, R144). -/
theorem drive_nil (f : InFlight) (s : State) : drive [] f s = { s with source := [] }.await f := rfl

theorem drive_pending (src : List SrcEvent) (f : InFlight) (s : State) :
    drive (.pending :: src) f s = { s with source := src }.await f := rfl

theorem drive_fail (src : List SrcEvent) (f : InFlight) (s : State) :
    drive (.fail :: src) f s = sourceFailed f { s with source := src } := rfl

theorem drive_ok_more {b : Fill} {src : List SrcEvent} {f f1 : InFlight} {s s1 : State}
    (h : takeFill f b { s with source := src } = .more f1 s1) : drive (.ok b :: src) f s = drive src f1 s1 := by
  simp [drive, h]

theorem drive_ok_done {b : Fill} {src : List SrcEvent} {f : InFlight} {s t : State}
    (h : takeFill f b { s with source := src } = .done t) : drive (.ok b :: src) f s = t := by
  simp [drive, h]

/-- A property of a command in progress that every answer keeps, and that leads to `Q` however the command stops or
waits, holds `Q` of what the source transactions leave: the induction over the script, made once. -/
theorem drive_induction {P : InFlight → State → Prop} {Q : State → Prop}
    (hwait : ∀ f s src, P f s → Q ({ s with source := src }.await f))
    (hfail : ∀ f s src, P f s → Q (sourceFailed f { s with source := src }))
    (hdone : ∀ f s b src t, P f s → takeFill f b { s with source := src } = .done t → Q t)
    (hmore : ∀ f s b src f1 s1, P f s → takeFill f b { s with source := src } = .more f1 s1 → P f1 s1) :
    ∀ (src : List SrcEvent) (f : InFlight) (s : State), P f s → Q (drive src f s) := by
  intro src
  induction src with
  | nil => intro f s h; exact hwait f s [] h
  | cons e src ih =>
    intro f s h
    cases e with
    | pending => exact hwait f s src h
    | fail => exact hfail f s src h
    | ok b =>
      cases ht : takeFill f b { s with source := src } with
      | done t => rw [drive_ok_done ht]; exact hdone f s b src t h ht
      | more f1 s1 => rw [drive_ok_more ht]; exact ih f1 s1 (hmore f s b src f1 s1 h ht)

end Sys2Proof.Machine
end

