-- ==== Sys2Proof/Laws/Arith.lean ====
section
/-! SUPPORT. Wide values as numbers (spec/00_scope.md R14), the borrow bit, and what a state that is ready for a command
gives. -/

namespace Sys2Proof.Machine

/-- The borrow bit is bit 63 (R100). -/
theorem borrowBit_toNat (f : Limb) : (borrowBit f).toNat = (f.getLsbD 63).toNat := by
  simp only [borrowBit, BitVec.extractLsb'_toNat, Nat.shiftRight_eq_div_pow]
  rw [BitVec.getLsbD_eq_getElem (by decide : 63 < 64)]
  simp only [BitVec.getElem_eq_testBit_toNat, Nat.testBit_eq_decide_div_mod_eq]
  have := f.isLt
  simp only [Nat.reducePow]
  by_cases h : f.toNat / 9223372036854775808 % 2 = 1
  · simp [h]
  · simp [h]; omega

/-- A value of `n` limbs is below 2^(64·n). -/
theorem wideVal_lt (x : Wide) : wideVal x < 2 ^ (64 * x.length) := by
  induction x with
  | nil => simp [wideVal]
  | cons l ls ih =>
    have := l.isLt
    simp only [wideVal, List.length_cons]
    rw [show 64 * (ls.length + 1) = 64 + 64 * ls.length by ring, pow_add]
    nlinarith

/-- Values of equal length are equal exactly when they are the same limbs. -/
theorem wideVal_inj {x y : Wide} (h : x.length = y.length) : wideVal x = wideVal y ↔ x = y := by
  refine ⟨fun e => ?_, fun e => by rw [e]⟩
  induction x generalizing y with
  | nil => cases y with | cons => simp at h | nil => rfl
  | cons a x ih =>
    cases y with
    | nil => simp at h
    | cons b y =>
      simp only [List.length_cons, Nat.add_right_cancel_iff] at h
      simp only [wideVal] at e
      have := a.isLt
      have := b.isLt
      rw [BitVec.eq_of_toNat_eq (show a.toNat = b.toNat by omega), ih h (by omega)]

@[simp] theorem wideVal_zero (n : Nat) : wideVal (wideZero n) = 0 := by
  induction n with
  | zero => rfl
  | succ n ih => simp only [wideZero] at ih; simp [wideZero, List.replicate_succ, wideVal, ih]

@[simp] theorem length_wideZero (n : Nat) : (wideZero n).length = n := by simp [wideZero]

/-- The accumulated XOR is zero exactly when it was and the values are the same. -/
theorem xorAccumulate_eq_zero {x y : Wide} (acc : Limb) (h : x.length = y.length) :
    xorAccumulate x y acc = 0#64 ↔ acc = 0#64 ∧ x = y := by
  induction x generalizing y acc with
  | nil => cases y with | cons => simp at h | nil => simp [xorAccumulate]
  | cons a x ih =>
    cases y with
    | nil => simp at h
    | cons b y =>
      simp only [List.length_cons, Nat.add_right_cancel_iff] at h
      rw [xorAccumulate, ih _ h, BitVec.or_eq_zero_iff, BitVec.xor_eq_zero_iff, List.cons.injEq, and_assoc]

/-- Appending bit vectors as numbers. -/
theorem append_toNat_eq {n m : Nat} (a : BitVec n) (b : BitVec m) : (a ++ b).toNat = a.toNat * 2 ^ m + b.toNat := by
  rw [BitVec.toNat_append, ← Nat.shiftLeft_add_eq_or_of_lt b.isLt, Nat.shiftLeft_eq]

/-- What `Ready` gives at once. -/
theorem State.Ready.idle {s : State} (h : s.Ready) :
    s.fatal = false ∧ s.srcBusy = false ∧ s.cstate = .idle ∧ s.inflight = none := by
  obtain ⟨⟨_, _, _, _, _, h6, _⟩, hi, hf⟩ := h
  have := h6 hi
  simp_all

/-- In the invariant every wide register holds LIMBS limbs. -/
theorem State.Inv.length_readW {s : State} (h : s.Inv) (a : WReg) : (s.readW a).length = s.cfg.limbs := by
  obtain ⟨_, hw, _⟩ := h
  cases a <;> simp [State.readW, WFile.get, hw.1, hw.2.1, hw.2.2.1, hw.2.2.2]

/-- A ready state, changed in nothing that completing looks at, completes by LAST and the response alone. -/
theorem State.Ready.complete_eq {s s' : State} (h : s.Ready) (h1 : s'.fatal = s.fatal) (h2 : s'.srcBusy = s.srcBusy)
    (h3 : s'.cstate = s.cstate) (h4 : s'.inflight = s.inflight) (c : Status) (v : Limb) :
    s'.complete c v = s'.reporting c v := by
  obtain ⟨hf, hbz, hc, hi⟩ := h.idle
  exact complete_eq_reporting (h1.trans hf) (h2.trans hbz) (h3.trans hc) (h4.trans hi) c v

end Sys2Proof.Machine
end

