-- ==== Sys2Proof/Laws/Decode.lean ====
section
/-! SUPPORT. The fields of a packed command word, and a word from its fields (spec/30_encoding.md R71 to R74): what the
round trips of decoder and encoder are made of. -/

namespace Sys2Proof

theorem packWord_toNat (op : BitVec 8) (rd ra : BitVec 4) (low : BitVec 16) :
    (packWord op rd ra low).toNat = op.toNat * 2 ^ 24 + rd.toNat * 2 ^ 20 + ra.toNat * 2 ^ 16 + low.toNat := by
  have hl := low.isLt
  show (op ++ rd ++ ra ++ low).toNat = _
  simp only [BitVec.toNat_append]
  rw [← Nat.shiftLeft_add_eq_or_of_lt rd.isLt, ← Nat.shiftLeft_add_eq_or_of_lt ra.isLt,
    ← Nat.shiftLeft_add_eq_or_of_lt hl]
  simp only [Nat.shiftLeft_eq]
  omega

theorem lowRb_toNat (rb : BitVec 4) : (lowRb rb).toNat = rb.toNat * 2 ^ 12 := by
  show (rb ++ 0#12).toNat = _
  rw [BitVec.toNat_append, ← Nat.shiftLeft_add_eq_or_of_lt (by decide)]
  simp [Nat.shiftLeft_eq]

@[simp] theorem fieldOp_packWord (op : BitVec 8) (rd ra : BitVec 4) (low : BitVec 16) :
    fieldOp (packWord op rd ra low) = op := by
  apply BitVec.eq_of_toNat_eq
  have := op.isLt; have := rd.isLt; have := ra.isLt; have := low.isLt
  simp only [fieldOp, BitVec.extractLsb'_toNat, packWord_toNat, Nat.shiftRight_eq_div_pow]
  omega

@[simp] theorem fieldRd_packWord (op : BitVec 8) (rd ra : BitVec 4) (low : BitVec 16) :
    fieldRd (packWord op rd ra low) = rd := by
  apply BitVec.eq_of_toNat_eq
  have := op.isLt; have := rd.isLt; have := ra.isLt; have := low.isLt
  simp only [fieldRd, BitVec.extractLsb'_toNat, packWord_toNat, Nat.shiftRight_eq_div_pow]
  omega

@[simp] theorem fieldRa_packWord (op : BitVec 8) (rd ra : BitVec 4) (low : BitVec 16) :
    fieldRa (packWord op rd ra low) = ra := by
  apply BitVec.eq_of_toNat_eq
  have := op.isLt; have := rd.isLt; have := ra.isLt; have := low.isLt
  simp only [fieldRa, BitVec.extractLsb'_toNat, packWord_toNat, Nat.shiftRight_eq_div_pow]
  omega

@[simp] theorem fieldImm_packWord (op : BitVec 8) (rd ra : BitVec 4) (low : BitVec 16) :
    fieldImm (packWord op rd ra low) = low := by
  apply BitVec.eq_of_toNat_eq
  have := op.isLt; have := rd.isLt; have := ra.isLt; have := low.isLt
  simp only [fieldImm, BitVec.extractLsb'_toNat, packWord_toNat, Nat.shiftRight_eq_div_pow]
  omega

@[simp] theorem fieldRb_packWord (op : BitVec 8) (rd ra rb : BitVec 4) :
    fieldRb (packWord op rd ra (lowRb rb)) = rb := by
  apply BitVec.eq_of_toNat_eq
  have := op.isLt; have := rd.isLt; have := ra.isLt; have := rb.isLt
  simp only [fieldRb, BitVec.extractLsb'_toNat, packWord_toNat, lowRb_toNat, Nat.shiftRight_eq_div_pow]
  omega

/-- A word is packed from its own fields. -/
theorem packWord_fields (w : CmdWord) : packWord (fieldOp w) (fieldRd w) (fieldRa w) (fieldImm w) = w := by
  apply BitVec.eq_of_toNat_eq
  have := w.isLt
  simp only [packWord_toNat, fieldOp, fieldRd, fieldRa, fieldImm, BitVec.extractLsb'_toNat, Nat.shiftRight_eq_div_pow]
  omega

/-- Masking a packed word masks its fields. -/
theorem packWord_and (op op' : BitVec 8) (rd rd' ra ra' : BitVec 4) (low low' : BitVec 16) :
    packWord op rd ra low &&& packWord op' rd' ra' low' =
      packWord (op &&& op') (rd &&& rd') (ra &&& ra') (low &&& low') := by
  show (op ++ rd ++ ra ++ low) &&& (op' ++ rd' ++ ra' ++ low') = _
  simp only [BitVec.and_append]
  rfl

/-- The twelve low bits of a half-word that holds rb are zero. -/
theorem lowRb_and (rb : BitVec 4) : lowRb rb &&& 0x0FFF#16 = 0#16 := by
  revert rb; decide

end Sys2Proof
end

