-- ==== Sys2Proof/Laws/Draw.lean ====
section
/-! SUPPORT. What a run of `ok` answers does to a draw (spec/42_random_bits.md R146): the limbs it fills, and the whole
draw. -/

namespace Sys2Proof.Machine

/-- CAND after a run of answers, from limb `i` on, of a draw of `n` bits. -/
def fillFrom (n : Nat) : Nat → List Fill → Wide → Wide
  | _, [], c => c
  | i, b :: bs, c => fillFrom n (i + 1) bs (c.set i (drawnLimb n i b))

theorem fillFrom_append (n i : Nat) (bs : List Fill) (b : Fill) (c : Wide) :
    fillFrom n i (bs ++ [b]) c = (fillFrom n i bs c).set (i + bs.length) (drawnLimb n (i + bs.length) b) := by
  induction bs generalizing i c with
  | nil => rfl
  | cons b' bs ih =>
    simp only [List.cons_append, fillFrom, ih, List.length_cons]
    rw [show i + 1 + bs.length = i + (bs.length + 1) by omega]

/-- The script a command in progress reads is the argument of `drive`, not the field it replaces. -/
theorem drive_source (src x : List SrcEvent) (f : InFlight) (s : State) :
    drive src f { s with source := x } = drive src f s := by
  cases src with
  | nil => rfl
  | cons e src => cases e <;> rfl

/-- Answers that do not complete the draw fill its limbs, one each. -/
theorem drive_fill (bs : List Fill) : ∀ (src : List SrcEvent) (f : InFlight) (s : State),
    f.limb + bs.length < activeLimbs (f.job.bits s.cfg) →
    drive (bs.map .ok ++ src) f s = drive src { f with limb := f.limb + bs.length }
      { s with cand := fillFrom (f.job.bits s.cfg) f.limb bs s.cand } := by
  induction bs with
  | nil => intro src f s _; rfl
  | cons b bs ih =>
    intro src f s h
    simp only [List.length_cons] at h
    have ht : takeFill f b { s with source := bs.map .ok ++ src } = .more { f with limb := f.limb + 1 }
        { s with source := bs.map .ok ++ src, cand := s.cand.set f.limb (drawnLimb (f.job.bits s.cfg) f.limb b) } := by
      rcases takeFill_cases f b { s with source := bs.map .ok ++ src } with ⟨_, e⟩ | ⟨h1, _⟩
      · exact e
      · change activeLimbs (f.job.bits s.cfg) ≤ f.limb + 1 at h1; omega
    simp only [List.map_cons, List.cons_append]
    rw [drive_ok_more ht, ih]
    · rw [show (b :: bs).length = bs.length + 1 from rfl, show f.limb + (bs.length + 1) = f.limb + 1 + bs.length by omega]
      exact drive_source src (bs.map .ok ++ src) { f with limb := f.limb + 1 + bs.length }
        { s with cand := fillFrom (f.job.bits s.cfg) f.limb (b :: bs) s.cand }
    · show f.limb + 1 + bs.length < activeLimbs (f.job.bits s.cfg)
      omega

/-- A draw whose answers are all there is complete with them, and the script goes on after them. -/
theorem drive_draw (bs : List Fill) (src : List SrcEvent) (f : InFlight) (s : State) (hb : bs ≠ [])
    (h : f.limb + bs.length = activeLimbs (f.job.bits s.cfg)) :
    drive (bs.map .ok ++ src) f s =
      (drawComplete { f with limb := activeLimbs (f.job.bits s.cfg) - 1 }
        { s with source := src, cand := fillFrom (f.job.bits s.cfg) f.limb bs s.cand }).run := by
  obtain ⟨bs', b, rfl⟩ : ∃ l b, bs = l ++ [b] :=
    ⟨bs.dropLast, bs.getLast hb, (List.dropLast_append_getLast hb).symm⟩
  simp only [List.length_append, List.length_singleton] at h
  rw [List.map_append, List.append_assoc, drive_fill _ _ _ _ (by omega)]
  simp only [List.map_cons, List.map_nil, List.singleton_append]
  have ht : takeFill { f with limb := f.limb + bs'.length } b
        { s with cand := fillFrom (f.job.bits s.cfg) f.limb bs' s.cand, source := src } =
      drawComplete { f with limb := activeLimbs (f.job.bits s.cfg) - 1 }
        { s with source := src, cand := fillFrom (f.job.bits s.cfg) f.limb (bs' ++ [b]) s.cand } := by
    rcases takeFill_cases { f with limb := f.limb + bs'.length } b
      { s with cand := fillFrom (f.job.bits s.cfg) f.limb bs' s.cand, source := src } with ⟨h1, _⟩ | ⟨_, e⟩
    · simp only at h1; omega
    · rw [e, fillFrom_append]
      have : activeLimbs (f.job.bits s.cfg) - 1 = f.limb + bs'.length := by omega
      rw [this]
  simp only [drive]
  rw [ht]
  generalize hd : drawComplete _ _ = p
  cases p with
  | done t => rfl
  | more f1 s1 =>
    simp only [Progress.run]
    have : s1.source = src := by
      unfold drawComplete at hd
      split at hd
      · cases hd
      · split at hd
        · cases hd
        · rename_i rd _ _
          rcases sampleHead_cases rd (f.draws + 1)
            { s with source := src, cand := fillFrom (f.job.bits s.cfg) f.limb (bs' ++ [b]) s.cand } with ⟨_, e⟩ | ⟨_, e⟩
          · simp only at hd; rw [e] at hd; cases hd
          · simp only at hd; rw [e] at hd; cases hd; rfl
    rw [this]

/-- Filling a cleared CAND: the limbs answered, the rest zero. -/
theorem fillFrom_zero (n : Nat) (bs : List Fill) (i k : Nat) (pre : Wide) (hi : pre.length = i) (hk : bs.length ≤ k) :
    fillFrom n i bs (pre ++ wideZero k) =
      pre ++ (bs.zipIdx i).map (fun p => drawnLimb n p.2 p.1) ++ wideZero (k - bs.length) := by
  induction bs generalizing i k pre with
  | nil => simp [fillFrom]
  | cons b bs ih =>
    simp only [List.length_cons] at hk
    obtain ⟨k, rfl⟩ : ∃ k', k = k' + 1 := ⟨k - 1, by omega⟩
    simp only [fillFrom, wideZero, List.replicate_succ]
    rw [List.set_append_right _ _ (by omega)]
    simp only [hi, Nat.sub_self, List.set_cons_zero]
    rw [show pre ++ drawnLimb n i b :: List.replicate k 0#64 = (pre ++ [drawnLimb n i b]) ++ wideZero k by
      simp [wideZero], ih _ _ _ (by simp [hi]) (by omega)]
    simp [List.zipIdx_cons, wideZero]

/-- A draw at the storage width has one active limb per limb (R164). -/
theorem activeLimbs_width (c : Config) : activeLimbs c.width = c.limbs := by
  simp only [activeLimbs, Config.width, limbW]; omega

/-- Bit `j` of an answer's limb is bit `j mod 8` of its byte `j div 8` (R54). -/
theorem fillWord_bit (b : Fill) (j : Nat) (h : j < 64) :
    (fillWord b).getLsbD j = (b.bytes.getD (j / 8) 0#8).getLsbD (j % 8) := by
  change ((b.b7 ++ b.b6 ++ b.b5 ++ b.b4 ++ b.b3 ++ b.b2 ++ b.b1 ++ b.b0).getLsbD j) = _
  simp only [BitVec.getLsbD_append, Fill.bytes]
  interval_cases j <;> simp [List.getD]

end Sys2Proof.Machine
end

