-- ==== Sys2Proof/Laws/PerInstr.lean ====
section
/-! SUPPORT. Statements about every command as syntax, one lemma per constructor. `TableRow`: the word of a command
agrees with its row's match value on its row's mask (spec/30_encoding.md R76, spec/opcode_table.json). -/

namespace Sys2Proof.Laws

/-- The match column of the opcode map (R76). -/
def rowMatch : Instr → CmdWord
  | .wrl _ _ _ => 0x01000000#32
  | .rdl _ _ => 0x02000000#32
  | .clr _ => 0x03000000#32
  | .mov _ _ => 0x04000000#32
  | .sub _ _ _ => 0x10000000#32
  | .sbb _ _ _ => 0x11000000#32
  | .lt _ _ => 0x12000000#32
  | .gt _ _ => 0x13000000#32
  | .eq _ _ => 0x14000000#32
  | .setmod _ => 0x20000000#32
  | .rdmod _ => 0x21000000#32
  | .gen _ _ => 0x22000000#32
  | .sample _ => 0x23000000#32
  | .rdcsr _ => 0x30000000#32
  | .wrcsr _ _ => 0x31000000#32

/-- The mask column of the opcode map (R76). -/
def rowMask : Instr → CmdWord
  | .wrl _ _ _ => 0xFF0F0000#32
  | .rdl _ _ => 0xFFF00000#32
  | .clr _ => 0xFF0FFFFF#32
  | .mov _ _ => 0xFF00FFFF#32
  | .sub _ _ _ => 0xFF000FFF#32
  | .sbb _ _ _ => 0xFF000FFF#32
  | .lt _ _ => 0xFFF00FFF#32
  | .gt _ _ => 0xFFF00FFF#32
  | .eq _ _ => 0xFFF00FFF#32
  | .setmod _ => 0xFFF0FFFF#32
  | .rdmod _ => 0xFFFF0000#32
  | .gen _ _ => 0xFF0F0000#32
  | .sample _ => 0xFF0FFFFF#32
  | .rdcsr _ => 0xFFFF0000#32
  | .wrcsr _ _ => 0xFFFF0000#32

/-- The word of `i`, masked, is its row's match value. -/
def TableRow.Statement (i : Instr) : Prop := encodeWord i &&& rowMask i = rowMatch i

theorem TableRow.wrl (rd : BitVec 4) (idx : BitVec 16) (data : Limb) : TableRow.Statement (.wrl rd idx data) := by
  have hm : rowMask (.wrl rd idx data) = packWord 0xFF#8 0x0#4 0xF#4 0x0000#16 := rfl
  rw [TableRow.Statement, hm, encodeWord, packWord_and]
  simp
  rfl

theorem TableRow.rdl (ra : BitVec 4) (idx : BitVec 16) : TableRow.Statement (.rdl ra idx) := by
  have hm : rowMask (.rdl ra idx) = packWord 0xFF#8 0xF#4 0x0#4 0x0000#16 := rfl
  rw [TableRow.Statement, hm, encodeWord, packWord_and]
  simp
  rfl

theorem TableRow.clr (rd : BitVec 4) : TableRow.Statement (.clr rd) := by
  have hm : rowMask (.clr rd) = packWord 0xFF#8 0x0#4 0xF#4 0xFFFF#16 := rfl
  rw [TableRow.Statement, hm, encodeWord, packWord_and]
  simp
  rfl

theorem TableRow.mov (rd ra : BitVec 4) : TableRow.Statement (.mov rd ra) := by
  have hm : rowMask (.mov rd ra) = packWord 0xFF#8 0x0#4 0x0#4 0xFFFF#16 := rfl
  rw [TableRow.Statement, hm, encodeWord, packWord_and]
  simp
  rfl

theorem TableRow.sub (rd ra rb : BitVec 4) : TableRow.Statement (.sub rd ra rb) := by
  have hm : rowMask (.sub rd ra rb) = packWord 0xFF#8 0x0#4 0x0#4 0x0FFF#16 := rfl
  rw [TableRow.Statement, hm, encodeWord, packWord_and]
  simp [lowRb_and]
  rfl

theorem TableRow.sbb (rd ra rb : BitVec 4) : TableRow.Statement (.sbb rd ra rb) := by
  have hm : rowMask (.sbb rd ra rb) = packWord 0xFF#8 0x0#4 0x0#4 0x0FFF#16 := rfl
  rw [TableRow.Statement, hm, encodeWord, packWord_and]
  simp [lowRb_and]
  rfl

theorem TableRow.lt (ra rb : BitVec 4) : TableRow.Statement (.lt ra rb) := by
  have hm : rowMask (.lt ra rb) = packWord 0xFF#8 0xF#4 0x0#4 0x0FFF#16 := rfl
  rw [TableRow.Statement, hm, encodeWord, packWord_and]
  simp [lowRb_and]
  rfl

theorem TableRow.gt (ra rb : BitVec 4) : TableRow.Statement (.gt ra rb) := by
  have hm : rowMask (.gt ra rb) = packWord 0xFF#8 0xF#4 0x0#4 0x0FFF#16 := rfl
  rw [TableRow.Statement, hm, encodeWord, packWord_and]
  simp [lowRb_and]
  rfl

theorem TableRow.eq (ra rb : BitVec 4) : TableRow.Statement (.eq ra rb) := by
  have hm : rowMask (.eq ra rb) = packWord 0xFF#8 0xF#4 0x0#4 0x0FFF#16 := rfl
  rw [TableRow.Statement, hm, encodeWord, packWord_and]
  simp [lowRb_and]
  rfl

theorem TableRow.setmod (ra : BitVec 4) : TableRow.Statement (.setmod ra) := by
  have hm : rowMask (.setmod ra) = packWord 0xFF#8 0xF#4 0x0#4 0xFFFF#16 := rfl
  rw [TableRow.Statement, hm, encodeWord, packWord_and]
  simp
  rfl

theorem TableRow.rdmod (idx : BitVec 16) : TableRow.Statement (.rdmod idx) := by
  have hm : rowMask (.rdmod idx) = packWord 0xFF#8 0xF#4 0xF#4 0x0000#16 := rfl
  rw [TableRow.Statement, hm, encodeWord, packWord_and]
  simp
  rfl

theorem TableRow.gen (rd : BitVec 4) (len : BitVec 16) : TableRow.Statement (.gen rd len) := by
  have hm : rowMask (.gen rd len) = packWord 0xFF#8 0x0#4 0xF#4 0x0000#16 := rfl
  rw [TableRow.Statement, hm, encodeWord, packWord_and]
  simp
  rfl

theorem TableRow.sample (rd : BitVec 4) : TableRow.Statement (.sample rd) := by
  have hm : rowMask (.sample rd) = packWord 0xFF#8 0x0#4 0xF#4 0xFFFF#16 := rfl
  rw [TableRow.Statement, hm, encodeWord, packWord_and]
  simp
  rfl

theorem TableRow.rdcsr (csr : BitVec 16) : TableRow.Statement (.rdcsr csr) := by
  have hm : rowMask (.rdcsr csr) = packWord 0xFF#8 0xF#4 0xF#4 0x0000#16 := rfl
  rw [TableRow.Statement, hm, encodeWord, packWord_and]
  simp
  rfl

theorem TableRow.wrcsr (csr : BitVec 16) (data : Limb) : TableRow.Statement (.wrcsr csr data) := by
  have hm : rowMask (.wrcsr csr data) = packWord 0xFF#8 0xF#4 0xF#4 0x0000#16 := rfl
  rw [TableRow.Statement, hm, encodeWord, packWord_and]
  simp
  rfl

end Sys2Proof.Laws
end

