-- ==== Sys2Proof/Laws/Step.lean ====
section
/-! SUPPORT. What a step can do, said once (spec/30_encoding.md R80, 42_random_bits.md R143, 70_reset_and_hazards.md R240),
and the small lemmas of a chain of subtractions (40_subtract.md R108). -/

namespace Sys2Proof.Machine

/-- A step goes on with a command in progress, or takes the host's next move: none, a quiet one, the reset input, or a
command. -/
theorem step_cases {s t : State} (h : step s = .next t) :
    (∃ f, s.inflight = some f ∧ t = waitingStep f s) ∨
    (s.inflight = none ∧
      ((s.host = [] ∧ t = s) ∨
       (∃ rest, s.host = .quiet :: rest ∧ t = { s with host := rest }) ∨
       (∃ rest, s.host = .reset :: rest ∧ t = assertReset { s with host := rest }) ∨
       ∃ c rest, s.host = .command c :: rest ∧ runCommand c { s with host := rest, response := none } = .next t)) := by
  unfold step portStep at h
  split at h
  · rename_i f hf
    exact .inl ⟨f, hf, (Host.Outcome.next.inj h).symm⟩
  · rename_i hi
    refine .inr ⟨hi, ?_⟩
    split at h
    · rename_i hh
      exact .inl ⟨hh, (Host.Outcome.next.inj h).symm⟩
    · rename_i rest hh
      exact .inr (.inl ⟨rest, hh, (Host.Outcome.next.inj h).symm⟩)
    · rename_i rest hh
      exact .inr (.inr (.inl ⟨rest, hh, (Host.Outcome.next.inj h).symm⟩))
    · rename_i c rest hh
      exact .inr (.inr (.inr ⟨c, rest, hh, h⟩))

/-- A command is refused in the fatal state, or is no command, or runs. -/
theorem runCommand_cases {c : Command} {s t : State} (h : runCommand c s = .next t) :
    (refusedWhileFatal s c.word = true ∧ t = s.complete .faulted 0#64) ∨
    (refusedWhileFatal s c.word = false ∧
      ((∃ e, decode c = .error e ∧ t = s.complete (decodeStatus e) 0#64) ∨
       ∃ i, decode c = .ok i ∧ exec i s = .next t)) := by
  unfold runCommand at h
  split at h
  · exact .inl ⟨‹_›, (Host.Outcome.next.inj h).symm⟩
  · refine .inr ⟨Bool.eq_false_iff.mpr ‹_›, ?_⟩
    split at h
    · rename_i e he
      exact .inl ⟨e, he, (Host.Outcome.next.inj h).symm⟩
    · rename_i i hi
      exact .inr ⟨i, hi, h⟩

/-- A step of a waiting command is a reset, or goes on with the source; only the host's moves may be fewer then. -/
theorem waitingStep_cases (f : InFlight) (s : State) :
    (∃ rest, s.host = .reset :: rest ∧ waitingStep f s = assertReset { s with host := rest }) ∨
    (¬ s.ResetNext ∧ ∃ hs, (hs = s.host ∨ s.host = .quiet :: hs) ∧
      waitingStep f s = drive s.source f { s with host := hs }) := by
  unfold waitingStep State.ResetNext
  split
  · rename_i rest hh
    exact .inl ⟨rest, hh, rfl⟩
  · rename_i rest hh
    refine .inr ⟨?_, rest, .inr hh, rfl⟩
    rintro ⟨_, h⟩
    rw [hh] at h
    cases h
  · rename_i h1 _
    exact .inr ⟨fun ⟨rest, h⟩ => h1 rest h, s.host, .inl rfl, rfl⟩

@[simp] theorem chainValue_zero (width : Nat) (x : Nat → Wide) : chainValue width x 0 = 0 := rfl

@[simp] theorem chainValue_succ (width : Nat) (x : Nat → Wide) (k : Nat) :
    chainValue width x (k + 1) = chainValue width x k + 2 ^ (width * k) * wideVal (x k) := rfl

@[simp] theorem stepsKeepBorrow_zero (s t : State) : StepsKeepBorrow 0 s t ↔ s = t := Iff.rfl

/-- What every such step keeps, the whole run keeps: the induction over the steps, made once. -/
theorem StepsKeepBorrow.induction {P : State → Prop}
    (hstep : ∀ s u, P s → ¬ s.ResetNext → (∀ i, s.Issues i → writesBorrow i = false) → step s = .next u → P u) :
    ∀ (n : Nat) (s t : State), StepsKeepBorrow n s t → P s → P t := by
  intro n
  induction n with
  | zero =>
    intro s t h hs
    cases h
    exact hs
  | succ n ih =>
    rintro s t ⟨hr, hw, u, hu, hrun⟩ hs
    exact ih u t hrun (hstep s u hs hr hw hu)

end Sys2Proof.Machine
end

