-- ==== Sys2Proof/Tests/Slice0.lean ====
section
/-! SUPPORT. The model's own tests: the WellFormed checks refuse ill-formed terms, words written out from the spec's
encodings decode, single steps answer what the spec's vectors (spec/95_test_vectors.md) say, and every obligation with
hypotheses has a witness that meets them all. -/

namespace Sys2Proof.Tests

open Sys2Proof.Machine

/-! ## WellFormed: each check refuses an ill-formed term (30_encoding.md R79) -/

theorem test_wellFormed_refuses_rd : (Instr.clr 4#4).wellFormed Config.reference = false := by decide
theorem test_wellFormed_refuses_ra : (Instr.mov 0#4 15#4).wellFormed Config.reference = false := by decide
theorem test_wellFormed_refuses_rb : (Instr.sub 0#4 1#4 4#4).wellFormed Config.reference = false := by decide
theorem test_wellFormed_refuses_index : (Instr.wrl 0#4 5#16 0#64).wellFormed Config.reference = false := by decide
theorem test_wellFormed_refuses_rdmod_index : (Instr.rdmod 5#16).wellFormed Config.reference = false := by decide
theorem test_wellFormed_refuses_length : (Instr.gen 0#4 321#16).wellFormed Config.reference = false := by decide
theorem test_wellFormed_refuses_absent_csr : (Instr.rdcsr 6#16).wellFormed Config.reference = false := by decide
theorem test_wellFormed_refuses_absent_csr_write : (Instr.wrcsr 6#16 0#64).wellFormed Config.reference = false := by decide
theorem test_wellFormed_refuses_read_only_csr : (Instr.wrcsr 0#16 0#64).wellFormed Config.reference = false := by decide
theorem test_wellFormed_accepts :
    (Instr.wrl 3#4 4#16 0#64).wellFormed Config.reference = true ∧
      (Instr.gen 3#4 320#16).wellFormed Config.reference = true ∧
      (Instr.wrcsr 1#16 0#64).wellFormed Config.reference = true := by decide

/-! ## Decoding: one word per command (R83, and the vectors' words), decoded and encoded -/

/-- 0x01, rd 0001, four zeros, imm16 3, with its data operand above the word. -/
theorem test_decode_wrl :
    decodeTableWord 96 (0x01100003 + 0x0123456789ABCDEF * 2 ^ 32) = some (.wrl 1#4 3#16 0x0123456789ABCDEF#64) ∧
      encode (.wrl 1#4 3#16 7#64) = { word := 0x01100003#32, data := 7#64 } := by decide
theorem test_decode_rdl :
    decodeTableWord 32 0x02020004 = some (.rdl 2#4 4#16) ∧ encodeWord (.rdl 2#4 4#16) = 0x02020004#32 := by decide
theorem test_decode_clr : decodeTableWord 32 0x03300000 = some (.clr 3#4) ∧ encodeWord (.clr 3#4) = 0x03300000#32 := by
  decide
theorem test_decode_mov :
    decodeTableWord 32 0x04100000 = some (.mov 1#4 0#4) ∧ encodeWord (.mov 1#4 0#4) = 0x04100000#32 := by decide
theorem test_decode_sub :
    decodeTableWord 32 0x10201000 = some (.sub 2#4 0#4 1#4) ∧ encodeWord (.sub 2#4 0#4 1#4) = 0x10201000#32 := by decide
theorem test_decode_sbb :
    decodeTableWord 32 0x11113000 = some (.sbb 1#4 1#4 3#4) ∧ encodeWord (.sbb 1#4 1#4 3#4) = 0x11113000#32 := by decide
theorem test_decode_lt :
    decodeTableWord 32 0x12001000 = some (.lt 0#4 1#4) ∧ encodeWord (.lt 0#4 1#4) = 0x12001000#32 := by decide
theorem test_decode_gt :
    decodeTableWord 32 0x13001000 = some (.gt 0#4 1#4) ∧ encodeWord (.gt 0#4 1#4) = 0x13001000#32 := by decide
theorem test_decode_eq :
    decodeTableWord 32 0x14033000 = some (.eq 3#4 3#4) ∧ encodeWord (.eq 3#4 3#4) = 0x14033000#32 := by decide
theorem test_decode_setmod :
    decodeTableWord 32 0x20030000 = some (.setmod 3#4) ∧ encodeWord (.setmod 3#4) = 0x20030000#32 := by decide
theorem test_decode_rdmod :
    decodeTableWord 32 0x21000002 = some (.rdmod 2#16) ∧ encodeWord (.rdmod 2#16) = 0x21000002#32 := by decide
theorem test_decode_gen :
    decodeTableWord 32 0x22200046 = some (.gen 2#4 70#16) ∧ encodeWord (.gen 2#4 70#16) = 0x22200046#32 := by decide
theorem test_decode_sample :
    decodeTableWord 32 0x23100000 = some (.sample 1#4) ∧ encodeWord (.sample 1#4) = 0x23100000#32 := by decide
theorem test_decode_rdcsr :
    decodeTableWord 32 0x30000001 = some (.rdcsr 1#16) ∧ encodeWord (.rdcsr 1#16) = 0x30000001#32 := by decide
/-- A 32-bit row: the data operand above it is zero. -/
theorem test_decode_wrcsr :
    decodeTableWord 32 0x31000001 = some (.wrcsr 1#16 0#64) ∧
      encode (.wrcsr 1#16 ones64) = { word := 0x31000001#32, data := ones64 } := by decide

/-- V80 to V85 and V90 as decoding errors; 0x1200_5000 is a legal encoding. -/
theorem test_decode_errors :
    decode { word := 0x00000000#32, data := 0#64 } = .error .illegalOpcode ∧
      decode { word := 0xFF000000#32, data := 0#64 } = .error .illegalOpcode ∧
      decode { word := 0x14001001#32, data := 0#64 } = .error .reservedField ∧
      decode { word := 0x12100000#32, data := 0#64 } = .error .reservedField ∧
      decode { word := 0x10500001#32, data := 0#64 } = .error .reservedField ∧
      decode { word := 0x30010000#32, data := 0#64 } = .error .reservedField ∧
      decode { word := 0x12005000#32, data := 0#64 } = .ok (.lt 0#4 5#4) := ⟨rfl, rfl, rfl, rfl, rfl, rfl, rfl⟩

/-! ## One step -/

/-- The state after the host has issued one command and the block has taken one step. -/
def after (w : CmdWord) (data : Limb) (s : State) : Option State :=
  match step (placeCommand { word := w, data := data } s) with
  | .next t => some t
  | .fault _ => none
  | .refused _ => none

/-- Status, data word and what `view` shows after one command. -/
def ends {α : Type} (w : CmdWord) (data : Limb) (s : State) (view : State → α) : Option (Status × Limb × α) :=
  (after w data s).bind fun t => t.response.map fun r => (r.status, r.data, view t)

/-- Reset, reference configuration, with W0 and W1 loaded. -/
def with01 (x y : Wide) : State :=
  { State.reset with w := { w0 := x, w1 := y, w2 := wideZero 5, w3 := wideZero 5 } }

/-- Eight bytes with consecutive values from `n` on. -/
def counting (n : Nat) : SrcEvent :=
  .ok { b0 := .ofNat 8 n, b1 := .ofNat 8 (n + 1), b2 := .ofNat 8 (n + 2), b3 := .ofNat 8 (n + 3), b4 := .ofNat 8 (n + 4),
        b5 := .ofNat 8 (n + 5), b6 := .ofNat 8 (n + 6), b7 := .ofNat 8 (n + 7) }

/-- Eight equal bytes. -/
def same (b : Byte) : Fill := { b0 := b, b1 := b, b2 := b, b3 := b, b4 := b, b5 := b, b6 := b, b7 := b }

/-- The first byte `x`, seven bytes 0xFF. -/
def firstThenOnes (x : Byte) : Fill := { same 0xFF#8 with b0 := x }

/-- V3, V4, V6, V7 and V8. -/
theorem test_limb_primitive :
    limbSbb 0#64 0#64 ones64 = (ones64, ones64) ∧ limbSbb 0#64 ones64 ones64 = (0#64, ones64) ∧
      limbSbb ones64 0#64 ones64 = (0xFFFFFFFFFFFFFFFE#64, 0#64) ∧
      limbSbb 5#64 5#64 0x7FFFFFFFFFFFFFFF#64 = (0#64, 0#64) ∧
      limbSbb 5#64 5#64 0x8000000000000000#64 = (ones64, ones64) := by decide

/-- V12. -/
theorem test_sub_wraps :
    ends 0x10201000#32 0#64 (with01 [1#64, 0#64, 0#64, 0#64, 0#64] [2#64, 0#64, 0#64, 0#64, 0#64])
      (fun t => (t.w.w2, t.borrow)) = some (.ok, 0#64, List.replicate 5 ones64, ones64) := by decide
/-- V19: `SUB W0, W0, W1`. -/
theorem test_sub_in_place :
    ends 0x10001000#32 0#64 (with01 [0#64, 0#64, 0#64, 0#64, 1#64] [ones64, ones64, ones64, ones64, 0#64])
      (fun t => (t.w.w0, t.borrow)) = some (.ok, 0#64, [1#64, 0#64, 0#64, 0#64, 0#64], 0#64) := by decide
/-- V16. -/
theorem test_sbb_takes_the_borrow :
    ends 0x11201000#32 0#64 { State.reset with borrow := ones64 } (fun t => (t.w.w2, t.borrow)) =
      some (.ok, 0#64, List.replicate 5 ones64, ones64) := by decide
/-- V18. -/
theorem test_sbb_reads_bit_63_alone :
    ends 0x11201000#32 0#64
      { with01 [5#64, 0#64, 0#64, 0#64, 0#64] [5#64, 0#64, 0#64, 0#64, 0#64] with borrow := 0x7FFFFFFFFFFFFFFF#64 }
      (fun t => (t.w.w2, t.borrow)) = some (.ok, 0#64, wideZero 5, 0#64) := by decide
/-- V24; BORROW is kept. -/
theorem test_lt :
    ends 0x12001000#32 0#64
      { with01 [5#64, 0#64, 0#64, 0#64, 7#64] [6#64, 0#64, 0#64, 0#64, 7#64] with borrow := 3#64 }
      (fun t => (t.ct, t.borrow)) = some (.ok, 1#64, 1#1, 3#64) := by decide
/-- V23. -/
theorem test_gt :
    ends 0x13001000#32 0#64 (with01 [0#64, 0#64, 0#64, 0#64, 1#64] [ones64, ones64, ones64, ones64, 0#64])
      (fun t => t.ct) = some (.ok, 1#64, 1#1) := by decide
/-- V26: an XOR accumulation would answer 1. -/
theorem test_eq_accumulates_by_or :
    ends 0x14001000#32 0#64 { with01 [1#64, 1#64, 0#64, 0#64, 0#64] (wideZero 5) with ct := 1#1 } (fun t => t.ct) =
      some (.ok, 0#64, 0#1) := by decide
/-- V25. -/
theorem test_eq_of_equals :
    ends 0x14001000#32 0#64 (with01 [7#64, 8#64, 9#64, 10#64, 11#64] [7#64, 8#64, 9#64, 10#64, 11#64]) (fun t => t.ct) =
      some (.ok, 1#64, 1#1) := by decide
/-- V55. -/
theorem test_setmod_zero :
    ends 0x20030000#32 0#64 { State.reset with modv := true, mod := [9#64, 0#64, 0#64, 0#64, 0#64] }
      (fun t => (t.modv, t.mod)) = some (.zeroModulus, 0#64, false, [9#64, 0#64, 0#64, 0#64, 0#64]) := by decide
/-- V57. -/
theorem test_setmod_top_bit :
    ends 0x20000000#32 0#64 (with01 [0#64, 0#64, 0#64, 0#64, 0x8000000000000000#64] (wideZero 5))
      (fun t => (t.modv, t.mod)) =
      some (.ok, 0#64, true, [0#64, 0#64, 0#64, 0#64, 0x8000000000000000#64]) := by decide
/-- V58. -/
theorem test_rdmod :
    ends 0x21000000#32 0#64 { State.reset with mod := [0xFFFFFFFFFFFFFFFE#64, ones64, ones64, ones64, ones64] }
      (fun _ => ()) = some (.ok, 0xFFFFFFFFFFFFFFFE#64, ()) ∧
    ends 0x21000005#32 0#64 { State.reset with mod := [0xFFFFFFFFFFFFFFFE#64, ones64, ones64, ones64, ones64] }
      (fun _ => ()) = some (.badIndex, 0#64, ()) := by decide
/-- V46. -/
theorem test_gen_70_bits :
    ends 0x22200046#32 0#64 { State.reset with source := [counting 0, counting 8, counting 16] }
      (fun t => (t.w.w2, t.source.length)) =
      some (.ok, 0#64, [0x0706050403020100#64, 8#64, 0#64, 0#64, 0#64], 1) := by decide
/-- V54: the second transaction fails. -/
theorem test_gen_source_failure :
    ends 0x22000080#32 0#64 { with01 [9#64, 9#64, 9#64, 9#64, 9#64] (wideZero 5) with source := [counting 0, .fail] }
      (fun t => (t.w.w0, t.fatal)) = some (.sourceFail, 0#64, [9#64, 9#64, 9#64, 9#64, 9#64], false) := by decide
/-- V60: the all-ones draw and the draw equal to MOD are rejected. -/
theorem test_sample_third_draw :
    ends 0x23100000#32 0#64
      { State.reset with
        mod := [0xFFFFFFFFFFFFFFFE#64, ones64, ones64, ones64, ones64]
        modv := true
        source := (List.replicate 5 (same 0xFF#8) ++ firstThenOnes 0xFE#8 :: List.replicate 4 (same 0xFF#8) ++
          firstThenOnes 0xFD#8 :: List.replicate 4 (same 0xFF#8)).map .ok }
      (fun t => (t.w.w1, t.attempts, t.source.length)) =
      some (.ok, 0#64, [0xFFFFFFFFFFFFFFFD#64, ones64, ones64, ones64, ones64], 3#64, 0) := by decide
/-- V64: the retry ceiling. -/
theorem test_sample_retry_exceeded :
    ends 0x23100000#32 0#64
      { State.reset with
        cfg := { limbs := 5, maxAttempts := 2 }
        mod := [1#64, 0#64, 0#64, 0#64, 0#64]
        modv := true
        source := List.replicate 11 (.ok (same 0xFF#8)) }
      (fun t => decide (t.w.w1 = wideZero 5 ∧ t.attempts = 2#64 ∧ t.fatal = true ∧ t.cstate = .fault ∧
        t.source.length = 1)) = some (.retryExceeded, 0#64, true) := by decide
/-- V70. -/
theorem test_wrl :
    ends 0x01100003#32 0x0123456789ABCDEF#64 State.reset (fun t => t.w.w1) =
      some (.ok, 0#64, [0#64, 0#64, 0#64, 0x0123456789ABCDEF#64, 0#64]) := by decide
/-- V72. -/
theorem test_wrl_bad_index :
    ends 0x01100005#32 1#64 State.reset (fun t => t.w.w1) = some (.badIndex, 0#64, wideZero 5) := by decide
/-- V71. -/
theorem test_rdl :
    ends 0x02010003#32 0#64 (with01 (wideZero 5) [0#64, 0#64, 0#64, 0x0123456789ABCDEF#64, 0#64]) (fun t => t.w.w1) =
      some (.ok, 0x0123456789ABCDEF#64, [0#64, 0#64, 0#64, 0x0123456789ABCDEF#64, 0#64]) := by decide
/-- `CLR W1` clears W1 alone (R192). -/
theorem test_clr :
    ends 0x03100000#32 0#64 (with01 [5#64, 0#64, 0#64, 0#64, 7#64] [6#64, 0#64, 0#64, 0#64, 7#64])
      (fun t => (t.w.w0, t.w.w1)) = some (.ok, 0#64, [5#64, 0#64, 0#64, 0#64, 7#64], wideZero 5) := by decide
/-- V88: CLR while FATAL = 1, LAST frozen. -/
theorem test_clr_faulted :
    ends 0x03000000#32 0#64
      { with01 [5#64, 0#64, 0#64, 0#64, 7#64] (wideZero 5) with fatal := true, last := 0x0A#8, cstate := .fault }
      (fun t => (t.w.w0, t.last)) = some (.faulted, 0#64, [5#64, 0#64, 0#64, 0#64, 7#64], 0x0A#8) := by decide
/-- `MOV W1, W0` (R193). -/
theorem test_mov :
    ends 0x04100000#32 0#64 (with01 [5#64, 0#64, 0#64, 0#64, 7#64] (wideZero 5)) (fun t => (t.w.w0, t.w.w1)) =
      some (.ok, 0#64, [5#64, 0#64, 0#64, 0#64, 7#64], [5#64, 0#64, 0#64, 0#64, 7#64]) := by decide
/-- V73. -/
theorem test_rdcsr_config :
    ends 0x30000004#32 0#64 State.reset (fun _ => ()) = some (.ok, 0x40040005#64, ()) := by decide
/-- P5 row 4: STATUS in the fatal state. -/
theorem test_rdcsr_status :
    ends 0x30000000#32 0#64 { State.reset with modv := true, fatal := true, last := 0x0A#8, cstate := .fault }
      (fun t => t.last) = some (.ok, 0x30A#64, 0x0A#8) := by decide
/-- V75. -/
theorem test_wrcsr_borrow :
    ends 0x31000001#32 0x8000000000000000#64 State.reset (fun t => t.borrow) =
      some (.ok, 0#64, 0x8000000000000000#64) := by decide
/-- V76. -/
theorem test_wrcsr_read_only :
    ends 0x31000002#32 1#64 State.reset (fun t => t.ct) = some (.readOnly, 0#64, 0#1) := by decide
/-- V80, V83, V84, V85 and V87: the order of the checks. -/
theorem test_check_order :
    ends 0x00000000#32 0#64 State.reset (fun t => t.last) = some (.illegalOpcode, 0#64, 0x01#8) ∧
      ends 0x12100000#32 0#64 State.reset (fun t => t.last) = some (.reservedField, 0#64, 0x02#8) ∧
      ends 0x12005000#32 0#64 State.reset (fun t => t.last) = some (.badRegister, 0#64, 0x03#8) ∧
      ends 0x10500001#32 0#64 State.reset (fun t => t.last) = some (.reservedField, 0#64, 0x02#8) ∧
      ends 0x22500141#32 0#64 State.reset (fun t => t.last) = some (.badRegister, 0#64, 0x03#8) := by decide

/-- `State.withFetchWord` makes the very next step run the word, from reset. -/
theorem test_withFetchWord :
    (match step (State.reset.withFetchWord 32 0x30000004) with
      | .next t => t.response
      | _ => none) = some { status := .ok, data := 0x40040005#64 } := by decide

/-! ## Assembler lines (R81, R82) -/

theorem test_assemble_command :
    assembleLine Config.reference "SUB W2, W0, W1 ; low words".toList = some [.sub 2#4 0#4 1#4] := by decide
theorem test_assemble_csr :
    assembleLine Config.reference "WRCSR BORROW, 0x8000_0000_0000_0000".toList =
      some [.wrcsr 1#16 0x8000000000000000#64] := by decide
/-- P1 rows 1 to 5 (the braces by their codes). -/
theorem test_assemble_ldw :
    assembleLine Config.reference ("LDW W0, ".toList ++ [Char.ofNat 123] ++ "0,0,0,0,1".toList ++ [Char.ofNat 125]) =
      some [.wrl 0#4 0#16 0#64, .wrl 0#4 1#16 0#64, .wrl 0#4 2#16 0#64, .wrl 0#4 3#16 0#64, .wrl 0#4 4#16 1#64] := by
  decide
/-- P3 row 19: a register that is not there still has an encoding. -/
theorem test_assemble_absent_register :
    assembleLine Config.reference "LT W0, W5".toList = some [.lt 0#4 5#4] ∧
      assembleLine Config.reference "CLR W16".toList = none := by decide

/-- Where `_` may stand in a number (log 17). -/
theorem test_number_separators :
    number "1_000".toList = some 1000 ∧ number "0xF_F".toList = some 255 ∧ number "5_".toList = none ∧
      number "0x_".toList = none ∧ number "_5".toList = none ∧ number "0x_5".toList = none := by decide

/-! ## Witnesses: concrete states and operands that meet the hypotheses of each obligation -/

/-- Two limbs, two attempts: W0 = 1, W1 = 2, W2 = 2^64, W3 = 0; MOD = 1 admitted. -/
def base : State :=
  { assertReset { State.reset with cfg := { limbs := 2, maxAttempts := 2 } } with
    w := { w0 := [1#64, 0#64], w1 := [2#64, 0#64], w2 := [0#64, 1#64], w3 := [0#64, 0#64] }
    mod := [1#64, 0#64]
    modv := true
    borrow := ones64 }

/-- The same after the retry ceiling. -/
def fatalBase : State := { base with fatal := true, cstate := .fault, last := 0x0A#8, attempts := 2#64 }

/-- A GEN of 70 bits into W1 waits for its second answer. -/
def waitingGen : State :=
  { base with srcBusy := true, cand := [5#64, 0#64], inflight := some { job := .gen .w1 70, limb := 1, draws := 0 } }

/-- A SAMPLE into W0 waits in its second draw. -/
def waitingSample : State :=
  { base with
    cstate := .sampling
    srcBusy := true
    inflight := some { job := .sample .w0, limb := 0, draws := 1 } }

theorem witness_ready : base.Ready := by decide
theorem witness_fatal : fatalBase.Inv ∧ fatalBase.fatal = true := by decide
theorem witness_waitingGen : waitingGen.Inv ∧ waitingGen.inflight ≠ none := by decide
theorem witness_waitingSample : waitingSample.Inv ∧ waitingSample.inflight ≠ none := by decide

theorem witness_EncodeOfDecodeIsTheCommand :
    decode { word := 0x01100003#32, data := 7#64 } = .ok (.wrl 1#4 3#16 7#64) ∧
      decode { word := 0x31000001#32, data := 7#64 } = .ok (.wrcsr 1#16 7#64) ∧
      decode { word := 0x03300000#32, data := 7#64 } = .ok (.clr 3#4) := ⟨rfl, rfl, rfl⟩

theorem witness_OpcodeRowsDoNotOverlap :
    (0x03000000#32, 0xFF0FFFFF#32) ∈ opcodeRows ∧ 0x03300000#32 &&& 0xFF0FFFFF#32 = 0x03000000#32 := by decide

theorem witness_OnlyWrlAndWrcsrReadTheDataOperand :
    base.inflight = none ∧ fieldOp 0x03300000#32 ≠ 0x01#8 ∧ fieldOp 0x03300000#32 ≠ 0x31#8 := by decide

theorem witness_StepRunsTheDecodedInstruction :
    (placeCommand { word := 0x03300000#32, data := 0#64 } base).inflight = none ∧
      (placeCommand { word := 0x03300000#32, data := 0#64 } base).host =
        [.command { word := 0x03300000#32, data := 0#64 }] ∧
      decode { word := 0x03300000#32, data := 0#64 } = .ok (.clr 3#4) := ⟨rfl, rfl, rfl⟩

theorem witness_IdleBlockKeepsItsState :
    base.inflight = none ∧ base.host = [] ∧ ({ base with host := [.quiet] } : State).host = .quiet :: [] :=
  ⟨rfl, rfl, rfl⟩

/-- Each range of illegal opcodes at its ends, and a reserved bit of an assigned opcode. -/
theorem witness_IllegalWordsCompleteWithTheirCode :
    (placeCommand { word := 0#32, data := 0#64 } base).Ready ∧
      (∀ op ∈ [0x00#8, 0x05#8, 0x0F#8, 0x15#8, 0x1F#8, 0x24#8, 0x2F#8, 0x32#8, 0xFF#8],
        IllegalOpcode (fieldOp (packWord op 0#4 0#4 0#16))) ∧
      (placeCommand { word := 0x14001001#32, data := 0#64 } base).Ready ∧
      (0x14000000#32, 0xFFF00FFF#32) ∈ opcodeRows ∧ fieldOp 0x14001001#32 = fieldOp 0x14000000#32 ∧
      0x14001001#32 &&& 0xFFF00FFF#32 &&& 0x00FFFFFF#32 ≠ 0#32 := by
  refine ⟨by decide, ?_, by decide, by decide, by decide, by decide⟩
  unfold IllegalOpcode
  decide

/-- The fatal state with a command that is refused, an ill-formed RDCSR, CSR 5 and CSR 6. -/
theorem witness_FatalStateRefusesAllButRdcsr :
    (placeCommand { word := 0x03200000#32, data := 0#64 } fatalBase).Inv ∧ fatalBase.fatal = true ∧
      fieldOp 0x03200000#32 ≠ 0x30#8 ∧
      decode { word := 0x30010000#32, data := 0#64 } = .error .reservedField ∧ fieldOp 0x30010000#32 = 0x30#8 ∧
      decode { word := 0x30000005#32, data := 0#64 } = .ok (.rdcsr 5#16) ∧ csrRead 5#16 fatalBase = some 2#64 ∧
      decode { word := 0x30000006#32, data := 0#64 } = .ok (.rdcsr 6#16) ∧ 0x0005 < (6#16).toNat ∧
      (∃ t, step fatalBase = .next t) ∧ ¬ fatalBase.ResetNext :=
  ⟨by decide, rfl, by decide, rfl, by decide, rfl, rfl, rfl, by decide, ⟨_, rfl⟩, by rintro ⟨_, h⟩; cases h⟩

/-- With a command in progress, and with none. -/
theorem witness_ResetSetsEveryElement :
    ({ waitingGen with host := [.reset] } : State).host = .reset :: [] ∧ waitingGen.srcBusy = true ∧
      ({ base with host := [.reset] } : State).host = .reset :: [] ∧ base.srcBusy = false := ⟨rfl, rfl, rfl, rfl⟩

theorem witness_ResetIgnoresTheLateAnswer :
    ({ waitingGen with host := [.reset], source := [.pending, .fail, counting 0] } : State).Inv ∧
      ({ waitingGen with host := [.reset] } : State).host = .reset :: [] ∧ SrcEvent.fail ≠ .pending ∧
      [.pending, .fail, counting 0] = List.replicate 1 .pending ++ .fail :: [counting 0] := by decide

theorem witness_ResetEstablishesTheInvariant : base.cfg.Valid := by decide

theorem witness_EveryStepKeepsTheInvariant :
    (∃ t, (placeCommand { word := 0x10201000#32, data := 0#64 } base).Inv ∧
      step (placeCommand { word := 0x10201000#32, data := 0#64 } base) = .next t) ∧
    ∃ t, ({ waitingSample with source := [.ok (same 0xFF#8), .ok (same 0xFF#8)] } : State).Inv ∧
      step { waitingSample with source := [.ok (same 0xFF#8), .ok (same 0xFF#8)] } = .next t :=
  ⟨⟨_, by decide, rfl⟩, ⟨_, by decide, rfl⟩⟩

/-- For WideSubtractIsExactWithBorrow and ComparisonTrichotomy. -/
theorem witness_wide_values :
    1 ≤ ([0#64, 1#64] : Wide).length ∧ ([0#64, 1#64] : Wide).length = ([1#64, 0#64] : Wide).length := by decide

/-- For SubWritesTheDifferenceAndBorrow, SbbSubtractsTheBorrowBitToo and ComparisonsWriteCtAlone. -/
theorem witness_three_registers :
    base.Ready ∧ selectW 2#4 = some .w2 ∧ selectW 0#4 = some .w0 ∧ selectW 1#4 = some .w1 := by decide

/-- P2: low words W0 and W2, high words W1 and W3, results in W0 and W1. -/
theorem witness_SubThenSbbSubtractsTwoRegisterValues :
    base.Ready ∧ selectW 0#4 = some .w0 ∧ selectW 2#4 = some .w2 ∧ selectW 1#4 = some .w1 ∧ selectW 3#4 = some .w3 ∧
      WReg.w0 ≠ .w1 ∧ WReg.w0 ≠ .w3 := by decide

/-- A chain of three links on W1, W0 and W3, the second and the third with a step between: SUB, SBB, `EQ`, SBB. -/
def chainStart : State :=
  { base with
    host := [.command { word := 0x10310000#32, data := 0#64 }, .command { word := 0x11310000#32, data := 0#64 },
      .command { word := 0x14001000#32, data := 0#64 }, .command { word := 0x11310000#32, data := 0#64 }] }

/-- The state `n` steps on. -/
def stepsOn : Nat → State → State
  | 0, s => s
  | n + 1, s =>
    match step s with
    | .next t => stepsOn n t
    | _ => s

theorem witness_chained_subtraction :
    let st : Nat → State := fun i => if i = 0 then chainStart else if i = 1 then stepsOn 1 chainStart else stepsOn 3 chainStart
    let mid : Nat → State := fun i => stepsOn 1 (st i)
    (∀ i, i < 3 → (st i).Inv ∧ (st i).fatal = false ∧
      selectW 3#4 = some .w3 ∧ selectW 1#4 = some .w1 ∧ selectW 0#4 = some .w0 ∧
      (st i).Issues (if i = 0 then .sub 3#4 1#4 0#4 else .sbb 3#4 1#4 0#4) ∧ step (st i) = .next (mid i)) ∧
    ∀ i, i + 1 < 3 → ∃ n, StepsKeepBorrow n (mid i) (st (i + 1)) := by
  refine ⟨fun i h => ?_, fun i h => ?_⟩
  · match i, h with
    | 0, _ => exact ⟨by decide, rfl, rfl, rfl, rfl, ⟨rfl, _, _, rfl, rfl⟩, rfl⟩
    | 1, _ => exact ⟨by decide, rfl, rfl, rfl, rfl, ⟨rfl, _, _, rfl, rfl⟩, rfl⟩
    | 2, _ => exact ⟨by decide, rfl, rfl, rfl, rfl, ⟨rfl, _, _, rfl, rfl⟩, rfl⟩
  · match i, h with
    | 0, _ => exact ⟨0, rfl⟩
    | 1, _ =>
      refine ⟨1, ?_, ?_, _, rfl, rfl⟩
      · rintro ⟨_, h⟩
        cases h
      · rintro i ⟨_, c, rest, hc, hd⟩
        cases hc
        cases hd
        rfl

theorem witness_RegisterFileReadsBackWhatWasWritten : 4 ≤ (4#4).toNat ∧ 4 ≤ (15#4).toNat := by decide

/-- For WrlWritesOneLimb, RdlAndRdmodReadOneLimb and ClrAndMovWriteOneRegister: the lowest and the highest limb. -/
theorem witness_register_access :
    base.Ready ∧ selectW 3#4 = some .w3 ∧ selectW 0#4 = some .w0 ∧ (0#16).toNat < base.cfg.limbs ∧
      (1#16).toNat < base.cfg.limbs := by decide

/-- For RdcsrReadsTheSixRegisters, CsrAccessRights and WrcsrStoresBorrow: numbers 0, 5 and 6, FATAL 0 and 1. -/
theorem witness_csrs :
    base.Inv ∧ fatalBase.Inv ∧ base.inflight = none ∧ fatalBase.inflight = none ∧ base.fatal = false ∧
      (0#16).toNat ≤ 5 ∧ (5#16).toNat ≤ 5 ∧ (0#16 ≠ 1#16) ∧ 5 < (6#16).toNat :=
  ⟨by decide, by decide, rfl, rfl, rfl, by decide⟩

/-- Each error of the checks at the boundary of its range. -/
theorem witness_FirstFailingCheckDecidesTheStatus :
    base.Ready ∧ firstCheckFailed base (.clr 4#4) = some .badRegister ∧
      firstCheckFailed base (.rdl 0#4 2#16) = some .badIndex ∧ firstCheckFailed base (.gen 0#4 129#16) = some .badLength ∧
      firstCheckFailed base (.rdcsr 6#16) = some .badIndex ∧
      firstCheckFailed base (.wrcsr 5#16 0#64) = some .readOnly ∧
      ({ base with modv := false } : State).Ready ∧
      firstCheckFailed { base with modv := false } (.sample 0#4) = some .noModulus :=
  ⟨by decide, rfl, rfl, rfl, rfl, rfl, by decide, rfl⟩

theorem witness_WellFormedMeansNoOperandError :
    base.Ready ∧ (∃ t, exec (.clr 4#4) base = .next t) ∧ (∃ t, exec (.clr 3#4) base = .next t) ∧
      (Instr.clr 4#4).wellFormed base.cfg = false ∧ (Instr.clr 3#4).wellFormed base.cfg = true :=
  ⟨by decide, ⟨_, rfl⟩, ⟨_, rfl⟩, rfl, rfl⟩

/-- SETMOD of zero, and SAMPLE at a failing source and at the ceiling. -/
theorem witness_ErrorsWriteOnlyWhatTheyRecord :
    base.Ready ∧
      (∃ t, exec (.setmod 3#4) base = .next t ∧ t.response = some { status := .zeroModulus, data := 0#64 }) ∧
      (∃ t, exec (.sample 1#4) { base with source := [.fail] } = .next t ∧
        t.response = some { status := .sourceFail, data := 0#64 }) ∧
      ∃ t, exec (.sample 1#4) { base with source := List.replicate 4 (.ok (same 0xFF#8)) } = .next t ∧
        t.response = some { status := .retryExceeded, data := 0#64 } :=
  ⟨by decide, ⟨_, rfl, rfl⟩, ⟨_, rfl, rfl⟩, ⟨_, rfl, rfl⟩⟩

theorem witness_OnlyReadsAndComparisonsAnswerData :
    ∃ t, base.Ready ∧ exec (.rdl 1#4 0#16) base = .next t ∧ t.response = some { status := .ok, data := 2#64 } :=
  ⟨_, by decide, rfl, rfl⟩

/-- The shortest and the longest length. -/
theorem witness_GenFillsTheLowBitsFromTheStream :
    ({ base with source := [.ok (same 1#8), .ok (same 2#8)] } : State).Ready ∧ selectW 2#4 = some .w2 ∧
      1 ≤ (1#16).toNat ∧ (128#16).toNat ≤ base.cfg.width ∧ [same 1#8].length = ((1#16).toNat + 63) / 64 ∧
      [same 1#8, same 2#8].length = ((128#16).toNat + 63) / 64 ∧
      [.ok (same 1#8), .ok (same 2#8)] = [same 1#8].map SrcEvent.ok ++ [.ok (same 2#8)] := by decide

/-- For GenOfLengthZeroDrawsNothing and GenAboveTheWidthIsBadLength. -/
theorem witness_gen_lengths : base.Ready ∧ selectW 0#4 = some .w0 ∧ base.cfg.width < (129#16).toNat := by decide

theorem witness_GenStopsAtASourceFailure :
    ({ base with source := [.ok (same 1#8), .fail] } : State).Ready ∧ selectW 0#4 = some .w0 ∧
      (128#16).toNat ≤ base.cfg.width ∧ [same 1#8].length < ((128#16).toNat + 63) / 64 ∧
      [.ok (same 1#8), .fail] = [same 1#8].map SrcEvent.ok ++ .fail :: [] := by decide

/-- A GEN that fails after a wait, and one that begins. -/
theorem witness_GenKeepsItsRegister :
    (∃ t, ({ waitingGen with source := [.fail] } : State).Inv ∧
      ({ waitingGen with source := [.fail] } : State).RunsGen .w1 ∧
      ¬ ({ waitingGen with source := [.fail] } : State).ResetNext ∧ step { waitingGen with source := [.fail] } = .next t ∧
      t.response = some { status := .sourceFail, data := 0#64 }) ∧
    ∃ t, (placeCommand { word := 0x22100046#32, data := 0#64 } base).Inv ∧
      (placeCommand { word := 0x22100046#32, data := 0#64 } base).RunsGen .w1 ∧
      step (placeCommand { word := 0x22100046#32, data := 0#64 } base) = .next t ∧ t.response = none :=
  ⟨⟨_, by decide, .inr ⟨_, _, rfl, rfl⟩, (by rintro ⟨_, h⟩; cases h), rfl, rfl⟩,
    ⟨_, by decide, .inl ⟨_, _, ⟨rfl, _, _, rfl, rfl⟩, rfl⟩, rfl, rfl⟩⟩

theorem witness_UnansweredRequestHangs :
    waitingGen.Inv ∧ waitingGen.inflight = some { job := .gen .w1 70, limb := 1, draws := 0 } ∧ waitingGen.source = [] ∧
      waitingGen.host = [] ∧ ({ waitingGen with host := [.quiet] } : State).host = .quiet :: [] := by decide

theorem witness_WaitingDoesNotChangeTheOutcome :
    ∃ u, waitingSample.Inv ∧ waitingSample.host = [] ∧
      step { waitingSample with source := [.ok (same 0#8)] ++ .pending :: [.ok (same 0#8)] } = .next u ∧
      u.source = [.ok (same 0#8)] := ⟨_, by decide, rfl, rfl, rfl⟩

/-- Steps that end with a command waiting: from a start, and from an earlier wait. -/
theorem witness_steps_that_wait :
    (∃ t, (placeCommand { word := 0x22100046#32, data := 0#64 } base).Inv ∧
      step (placeCommand { word := 0x22100046#32, data := 0#64 } base) = .next t ∧
      t.inflight = some { job := .gen .w1 70, limb := 0, draws := 0 }) ∧
    ∃ t, ({ waitingSample with source := [.ok (same 1#8)] } : State).Inv ∧
      step { waitingSample with source := [.ok (same 1#8)] } = .next t ∧
      t.inflight = some { job := .sample .w0, limb := 1, draws := 1 } :=
  ⟨⟨_, by decide, rfl, rfl⟩, ⟨_, by decide, rfl, rfl⟩⟩

theorem witness_StartedCommandWaitsWithoutChangingTheOutcome :
    ∃ u, base.Ready ∧ base.host = [] ∧
      exec (.gen 1#4 70#16) { base with source := [.ok (same 1#8)] ++ .pending :: [.ok (same 2#8)] } = .next u ∧
      u.source = [.ok (same 2#8)] := ⟨_, by decide, rfl, rfl, rfl⟩

theorem witness_OnlyGenAndSampleDrawFromTheSource :
    ∃ t, ({ waitingGen with source := [.fail] } : State).Inv ∧ step { waitingGen with source := [.fail] } = .next t ∧
      t.source ≠ [.fail] := ⟨_, by decide, rfl, by decide⟩

/-- A non-zero value and a zero value. -/
theorem witness_SetmodAdmitsExactlyNonZero :
    base.Ready ∧ selectW 0#4 = some .w0 ∧ wideVal (base.readW .w0) ≠ 0 ∧ selectW 3#4 = some .w3 ∧
      wideVal (base.readW .w3) = 0 := by decide

/-- A rejected draw equal to MOD = 1, then the accepted draw 0. -/
theorem witness_SampleAcceptsTheFirstDrawBelowTheModulus :
    let one : Fill := { same 0#8 with b0 := 1#8 }
    ({ base with source := scriptOf ([[one, same 0#8]] ++ [[same 0#8, same 0#8]]) ++ [] } : State).Ready ∧
      base.modv = true ∧ selectW 1#4 = some .w1 ∧
      (∀ x ∈ [[one, same 0#8]], x.length = base.cfg.limbs ∧ wideVal base.mod ≤ wideVal (drawValue x)) ∧
      [same 0#8, same 0#8].length = base.cfg.limbs ∧ wideVal (drawValue [same 0#8, same 0#8]) < wideVal base.mod ∧
      [[one, same 0#8]].length < base.cfg.maxAttempts := by decide

theorem witness_SampleStopsAtTheRetryCeiling :
    let draw : List Fill := [same 0xFF#8, same 0xFF#8]
    ({ base with source := scriptOf [draw, draw] ++ [] } : State).Ready ∧ base.modv = true ∧ selectW 1#4 = some .w1 ∧
      (∀ x ∈ [draw, draw], x.length = base.cfg.limbs ∧ wideVal base.mod ≤ wideVal (drawValue x)) ∧
      [draw, draw].length = base.cfg.maxAttempts := by decide

theorem witness_SampleStopsAtASourceFailure :
    let draw : List Fill := [same 0xFF#8, same 0xFF#8]
    ({ base with source := scriptOf [draw] ++ [same 0#8].map SrcEvent.ok ++ .fail :: [] } : State).Ready ∧
      base.modv = true ∧ selectW 1#4 = some .w1 ∧
      (∀ x ∈ [draw], x.length = base.cfg.limbs ∧ wideVal base.mod ≤ wideVal (drawValue x)) ∧
      [draw].length < base.cfg.maxAttempts ∧ [same 0#8].length < base.cfg.limbs := by decide

theorem witness_SampleResultIsBelowTheModulus :
    ∃ t, ({ waitingSample with source := [.ok (same 0#8), .ok (same 0#8)] } : State).Inv ∧
      ({ waitingSample with source := [.ok (same 0#8), .ok (same 0#8)] } : State).RunsSample .w0 ∧
      step { waitingSample with source := [.ok (same 0#8), .ok (same 0#8)] } = .next t ∧
      t.response = some { status := .ok, data := 0#64 } := ⟨_, by decide, .inr ⟨_, rfl, rfl⟩, rfl, rfl⟩

theorem witness_EachCandidateHasExactlyOneAnswerRun : 2 ^ 64 + 5 < 2 ^ (64 * 2) := by decide

theorem witness_SampleDependsOnModulusCeilingAndSource :
    let s : State := { base with source := [.ok (same 0#8), .ok (same 0#8)] }
    let s' : State := { s with borrow := 0#64, cand := [7#64, 7#64] }
    s.Ready ∧ s'.Ready ∧ s.modv = true ∧ s'.modv = true ∧ s'.cfg = s.cfg ∧ s'.mod = s.mod ∧ s'.source = s.source ∧
      selectW 1#4 = some .w1 ∧
      (∃ t, exec (.sample 1#4) s = .next t ∧ t.response = some { status := .ok, data := 0#64 }) ∧
      ∃ t', exec (.sample 1#4) s' = .next t' :=
  ⟨by decide, by decide, rfl, rfl, rfl, rfl, rfl, rfl, ⟨_, rfl, rfl⟩, ⟨_, rfl⟩⟩

theorem witness_SampleWritesItsRegisterOnlyOnAcceptance :
    ∃ t, ({ waitingSample with source := [.fail] } : State).Inv ∧
      ({ waitingSample with source := [.fail] } : State).RunsSample .w0 ∧
      ¬ ({ waitingSample with source := [.fail] } : State).ResetNext ∧
      step { waitingSample with source := [.fail] } = .next t ∧
      t.response = some { status := .sourceFail, data := 0#64 } :=
  ⟨_, by decide, .inr ⟨_, rfl, rfl⟩, (by rintro ⟨_, h⟩; cases h), rfl, rfl⟩

theorem witness_GenAndSampleAreBounded :
    let s : State := { base with source := List.replicate 4 (.ok (same 0xFF#8)) }
    s.Ready ∧ s.cfg.limbs ≤ s.source.length ∧ SrcEvent.pending ∉ s.source.take s.cfg.limbs ∧
      s.cfg.maxAttempts * s.cfg.limbs ≤ s.source.length ∧
      SrcEvent.pending ∉ s.source.take (s.cfg.maxAttempts * s.cfg.limbs) := by decide

/-- For ControllerMovesAreThoseOfTheTable and OnlySampleSetsAndOnlyResetClearsFatal: a SAMPLE that enters the fatal state,
and the fatal state itself. -/
theorem witness_controller :
    (∃ t, ({ waitingSample with source := [.ok (same 0xFF#8), .ok (same 0xFF#8)] } : State).Inv ∧
      step { waitingSample with source := [.ok (same 0xFF#8), .ok (same 0xFF#8)] } = .next t ∧ t.fatal = true ∧
      t.cstate = .fault) ∧
    fatalBase.Inv ∧ fatalBase.cstate = .fault ∧ ¬ fatalBase.ResetNext ∧
    ∃ t, ({ fatalBase with host := [.reset] } : State).Inv ∧ step { fatalBase with host := [.reset] } = .next t ∧
      t.fatal = false :=
  ⟨⟨_, by decide, rfl, rfl, rfl⟩, by decide, rfl, (by rintro ⟨_, h⟩; cases h), ⟨_, by decide, rfl, rfl⟩⟩

/-- The rows out of SAMPLING with two limbs, one of them already drawn: accepted, rejected with a draw left and with none,
failed; and a SAMPLE that passes its checks and waits. MOD = 1. -/
theorem witness_controller_rows :
    let s (k : Nat) (src : List SrcEvent) : State :=
      { waitingSample with inflight := some { job := .sample .w0, limb := 1, draws := k }, source := src }
    (s 1 [.ok (same 0#8)]).Inv ∧ ¬ (s 1 [.ok (same 0#8)]).ResetNext ∧
      [.ok (same 0#8)] = [same 0#8].map SrcEvent.ok ++ [] ∧ 1 + [same 0#8].length = base.cfg.limbs ∧
      wideVal (waitingSample.cand.take 1 ++ drawValue [same 0#8]) < wideVal waitingSample.mod ∧
      (s 0 [.ok (same 1#8)]).Inv ∧
      wideVal waitingSample.mod ≤ wideVal (waitingSample.cand.take 1 ++ drawValue [same 1#8]) ∧
      0 + 1 < base.cfg.maxAttempts ∧ 1 + 1 = base.cfg.maxAttempts ∧
      (s 1 [.fail]).Inv ∧ 1 + ([] : List Fill).length < base.cfg.limbs ∧
      (placeCommand { word := 0x23000000#32, data := 0#64 } base).Issues (.sample 0#4) ∧ base.source = [] ∧
      base.modv = true ∧ base.fatal = false :=
  ⟨by decide, (by rintro ⟨_, h⟩; cases h), rfl, rfl, by decide, by decide, by decide, by decide, rfl, by decide, by decide,
    ⟨rfl, _, _, rfl, rfl⟩, rfl, rfl, rfl⟩

/-- An error, from LAST = 0x00: `CLR W4`; and a command in progress that ends with SOURCE_FAIL. -/
theorem witness_LastChangesOnlyWhenACommandCompletes :
    (∃ t, (placeCommand { word := 0x03400000#32, data := 0#64 } base).Inv ∧ base.fatal = false ∧
      step (placeCommand { word := 0x03400000#32, data := 0#64 } base) = .next t ∧ t.last ≠ base.last ∧
      t.response = some { status := .badRegister, data := 0#64 }) ∧
    ∃ t, ({ waitingGen with source := [.fail] } : State).Inv ∧ step { waitingGen with source := [.fail] } = .next t ∧
      t.last ≠ waitingGen.last :=
  ⟨⟨_, by decide, rfl, rfl, by decide, rfl⟩, ⟨_, by decide, rfl, by decide⟩⟩

/-- For OnlySetmodWritesTheModulus: `SETMOD W1`. -/
theorem witness_OnlySetmodWritesTheModulus :
    ∃ t, (placeCommand { word := 0x20010000#32, data := 0#64 } base).Inv ∧
      step (placeCommand { word := 0x20010000#32, data := 0#64 } base) = .next t ∧ t.mod ≠ base.mod :=
  ⟨_, by decide, rfl, by decide⟩

/-- For OnlySubSbbAndWrcsrWriteBorrow and WideRegistersChangeOnlyThroughTheirOwnNumber: `SUB W3, W1, W0`. -/
theorem witness_writers_of_borrow_and_registers :
    ∃ t, (placeCommand { word := 0x10310000#32, data := 0#64 } base).Inv ∧
      step (placeCommand { word := 0x10310000#32, data := 0#64 } base) = .next t ∧ t.borrow ≠ base.borrow ∧
      t.readW .w3 ≠ base.readW .w3 := ⟨_, by decide, rfl, by decide, by decide⟩

/-- For OnlyComparisonsWriteCt: `LT W0, W1`. -/
theorem witness_OnlyComparisonsWriteCt :
    ∃ t, (placeCommand { word := 0x12001000#32, data := 0#64 } base).Inv ∧
      step (placeCommand { word := 0x12001000#32, data := 0#64 } base) = .next t ∧ t.ct ≠ base.ct :=
  ⟨_, by decide, rfl, by decide⟩

theorem witness_OnlySampleWritesAttempts :
    ∃ t, ({ waitingSample with source := [.fail] } : State).Inv ∧ step { waitingSample with source := [.fail] } = .next t ∧
      t.attempts ≠ waitingSample.attempts := ⟨_, by decide, rfl, by decide⟩

/-- Exactly LIMBS values, and one value too few; register fields 3 and 4. -/
theorem witness_PseudoInstructionsExpandAsListed :
    base.Ready ∧ selectW 3#4 = some .w3 ∧ 4 ≤ (4#4).toNat ∧ ([3#64, 4#64] : List Limb).length = base.cfg.limbs ∧
      ([3#64, 4#64] : List Limb)[1]? = some 4#64 ∧
      ([3#64] : List Limb).length ≠ base.cfg.limbs := by decide

end Sys2Proof.Tests
end

section
/-! PROOF. What RDCSR and WRCSR do for each kind of CSR number (spec/10_state.md R35, 44_register_access.md R194, R195),
and the access rights put together from that. -/

namespace Sys2Proof.Machine

/-- Between commands, in the fatal state too, a completion writes LAST (frozen while FATAL = 1) and the response and
nothing else (R212). -/
theorem State.Inv.complete_eq {s : State} (h : s.Inv) (hi : s.inflight = none) (c : Status) (v : Limb) :
    s.complete c v =
      { s with
        last := if s.fatal then s.last else c.code
        response := some { status := c, data := v } } := by
  obtain ⟨_, _, _, _, _, hidle, _⟩ := h
  obtain ⟨hbusy, hstate⟩ := hidle hi
  cases s
  simp_all [State.complete, State.finish]

/-- The CSR numbers up to 5 are present (R31). -/
theorem exists_csrRead_of_le {csr : BitVec 16} (h : csr.toNat ≤ 5) (s : State) : ∃ v, csrRead csr s = some v :=
  Option.ne_none_iff_exists'.mp fun hn => Nat.not_lt.mpr h ((csrRead_eq_none csr s).mp hn)

/-- RDCSR of a present number, whatever FATAL is (R194). -/
theorem exec_rdcsr_of_some {s : State} {csr : BitVec 16} {v : Limb} (h : csrRead csr s = some v) :
    exec (.rdcsr csr) s = .next (s.complete .ok v) := by
  rw [exec, execRdcsr, withCsr_of_some h]

/-- RDCSR of an absent number, whatever FATAL is (R80). -/
theorem exec_rdcsr_of_none {s : State} {csr : BitVec 16} (h : csrRead csr s = none) :
    exec (.rdcsr csr) s = .next (s.complete .badIndex 0#64) := by
  rw [exec, execRdcsr, withCsr_of_none h]

/-- WRCSR of a present number while FATAL = 0: BORROW is stored, any other is read-only (R35, R195). -/
theorem exec_wrcsr_of_some {s : State} {csr : BitVec 16} {v : Limb} (hf : s.fatal = false)
    (h : csrRead csr s = some v) (data : Limb) :
    exec (.wrcsr csr data) s =
      .next (if csr = 1#16 then { s with borrow := data }.complete .ok 0#64 else s.complete .readOnly 0#64) := by
  rw [exec, execWrcsr, unlessFatal_of_not_fatal hf, withCsr_of_some h, withWritableCsr]

/-- WRCSR of an absent number while FATAL = 0 (R80). -/
theorem exec_wrcsr_of_none {s : State} {csr : BitVec 16} (hf : s.fatal = false) (h : csrRead csr s = none)
    (data : Limb) : exec (.wrcsr csr data) s = .next (s.complete .badIndex 0#64) := by
  rw [exec, execWrcsr, unlessFatal_of_not_fatal hf, withCsr_of_none h]

/-- Settles O29, by whether the number is present and, for WRCSR, whether it is BORROW's. -/
theorem csrAccessRights : Obligations.CsrAccessRights := by
  intro s csr data hinv hi
  have ready (hf : s.fatal = false) : s.Ready := ⟨hinv, hi, hf⟩
  refine ⟨fun hle => ?read, fun hf hcsr => ?write, fun hf hle hne => ?readOnly, fun hlt => ?absent⟩
  case read =>
    obtain ⟨v, hv⟩ := exists_csrRead_of_le hle s
    exact ⟨_, v, exec_rdcsr_of_some hv, complete_response s .ok v⟩
  case write =>
    have hv : csrRead csr s = some s.borrow := by rw [hcsr]; rfl
    rw [exec_wrcsr_of_some hf hv, if_pos hcsr]
    refine congrArg _ ((ready hf).complete_eq ?_ ?_ ?_ ?_ _ _) <;> rfl
  case readOnly =>
    obtain ⟨v, hv⟩ := exists_csrRead_of_le hle s
    rw [exec_wrcsr_of_some hf hv, if_neg hne]
    exact congrArg _ ((ready hf).complete_eq rfl rfl rfl rfl _ _)
  case absent =>
    have hn : csrRead csr s = none := (csrRead_eq_none csr s).mpr hlt
    refine ⟨?_, fun hf => ?_⟩
    · exact (exec_rdcsr_of_none hn).trans (congrArg _ (hinv.complete_eq hi _ _))
    · rw [exec_wrcsr_of_none hf hn]
      exact congrArg _ ((ready hf).complete_eq rfl rfl rfl rfl _ _)

end Sys2Proof.Machine
end

section
/-! PROOF. How the decoder answers a command word that is no command (spec/30_encoding.md R75 to R77), and the step that
completes such a word with its code. -/

namespace Sys2Proof.Machine

/-- The opcodes R77 lists have no row. -/
theorem reservedMask_of_illegalOpcode {op : BitVec 8} (h : IllegalOpcode op) : reservedMask op = none := by
  unfold reservedMask
  split
  case h_16 => rfl
  all_goals exact absurd h (by unfold IllegalOpcode; decide)

/-- The reserved bits under a row's opcode are the row's mask below bit 24 (R76). -/
theorem reservedMask_of_mem_opcodeRows {r : CmdWord × CmdWord} (h : r ∈ opcodeRows) :
    reservedMask (fieldOp r.1) = some (r.2 &&& 0x00FFFFFF#32) := by
  simp only [opcodeRows] at h
  fin_cases h <;> rfl

/-- An opcode with a row selects a command (R76). -/
theorem exists_buildInstr_of_reservedMask {c : Command} {m : CmdWord} (h : reservedMask (fieldOp c.word) = some m) :
    ∃ i, buildInstr c = some i := by
  unfold reservedMask at h
  split at h
  case h_16 => cases h
  all_goals
    rename_i hop
    simp [buildInstr, hop]

/-- An illegal opcode is answered before any other field is looked at (R77, R80). -/
theorem decode_of_illegalOpcode {c : Command} (h : IllegalOpcode (fieldOp c.word)) :
    decode c = .error .illegalOpcode := by
  rw [decode, reservedMask_of_illegalOpcode h]

/-- Under an assigned opcode a reserved bit that is 1 is an error (R75). -/
theorem decode_of_reserved_bit {c : Command} {m : CmdWord} (hm : reservedMask (fieldOp c.word) = some m)
    (h : c.word &&& m ≠ 0#32) : decode c = .error .reservedField := by
  obtain ⟨i, hi⟩ := exists_buildInstr_of_reservedMask hm
  simp only [decode, hm, hi, if_neg h]

/-- While FATAL = 0 a word that is no command completes with the code of its error (R80). -/
theorem runCommand_of_decode_error {c : Command} {s : State} {e : DecodeError} (hf : s.fatal = false)
    (h : decode c = .error e) : runCommand c s = .next (s.complete (decodeStatus e) 0#64) := by
  simp [runCommand, refusedWhileFatal, hf, h]

/-- Between commands the step takes the host's command (R59). -/
theorem step_of_command {s : State} {c : Command} {rest : List HostMove} (hi : s.inflight = none)
    (hh : s.host = .command c :: rest) : step s = runCommand c { s with host := rest, response := none } := by
  simp only [step, portStep, hi, hh]

/-- A ready state completes a word that is no command by LAST and the response alone (R75, R77, R212). -/
theorem State.Ready.step_of_decode_error {s : State} (hs : s.Ready) {c : Command} {rest : List HostMove}
    (hh : s.host = .command c :: rest) {e : DecodeError} (he : decode c = .error e) :
    step s = .next ({ s with host := rest }.reporting (decodeStatus e) 0#64) := by
  obtain ⟨hf, _, _, hi⟩ := hs.idle
  calc step s
      = runCommand c { s with host := rest, response := none } := step_of_command hi hh
    _ = .next (State.complete { s with host := rest, response := none } (decodeStatus e) 0#64) :=
        runCommand_of_decode_error hf he
    _ = .next (State.reporting { s with host := rest } (decodeStatus e) 0#64) :=
        congrArg _ (hs.complete_eq (s' := { s with host := rest, response := none }) rfl rfl rfl rfl _ _)

/-- Settles O10: the decoder rejects the word with its error, and a ready state reports that error. -/
theorem illegalWordsCompleteWithTheirCode : Obligations.IllegalWordsCompleteWithTheirCode := by
  intro s c rest hs hh
  refine ⟨fun hop => ?illegal, fun r hr hop hbit => ?reserved⟩
  case illegal => exact hs.step_of_decode_error hh (decode_of_illegalOpcode hop)
  case reserved =>
    have hmask : reservedMask (fieldOp c.word) = some (r.2 &&& 0x00FFFFFF#32) :=
      hop ▸ reservedMask_of_mem_opcodeRows hr
    rw [BitVec.and_assoc] at hbit
    exact hs.step_of_decode_error hh (decode_of_reserved_bit hmask hbit)

end Sys2Proof.Machine
end

section
/-! PROOF. GEN at the two ends of its length (spec/42_random_bits.md R149, R150): length 0 and a length above WIDTH both
complete before the source is asked for anything. -/

namespace Sys2Proof.Machine

/-- GEN of length 0 to a register that exists passes every check and completes with OK there and then (R80, R149). -/
theorem exec_gen_zero {s : State} {rd : BitVec 4} {d : WReg} (hf : s.fatal = false) (hd : selectW rd = some d) :
    exec (.gen rd 0#16) s = .next (s.complete .ok 0#64) := by
  have hlen : (0#16).toNat ≤ s.cfg.width := Nat.zero_le _
  rw [exec, execGen, unlessFatal_of_not_fatal hf, withReg_of_some hd, withLength_of_le hlen,
    if_pos BitVec.toNat_zero]

/-- GEN of a length above WIDTH to a register that exists stops at the check of the length (R80, R150). -/
theorem exec_gen_of_width_lt {s : State} {rd : BitVec 4} {len : BitVec 16} {d : WReg} (hf : s.fatal = false)
    (hd : selectW rd = some d) (hlen : s.cfg.width < len.toNat) :
    exec (.gen rd len) s = .next (s.complete .badLength 0#64) := by
  rw [exec, execGen, unlessFatal_of_not_fatal hf, withReg_of_some hd, withLength_of_lt hlen]

/-- Settles O35: GEN of length 0 completes at once, and from a ready state that writes LAST and the response alone. -/
theorem genOfLengthZeroDrawsNothing : Obligations.GenOfLengthZeroDrawsNothing := by
  intro s rd d hs hd
  obtain ⟨hf, _, _, _⟩ := hs.idle
  exact (exec_gen_zero hf hd).trans (congrArg _ (hs.complete_eq rfl rfl rfl rfl _ _))

/-- Settles O36: the check of the length fails, and from a ready state the error writes LAST and the response alone. -/
theorem genAboveTheWidthIsBadLength : Obligations.GenAboveTheWidthIsBadLength := by
  intro s rd len d hs hd hlen
  obtain ⟨hf, _, _, _⟩ := hs.idle
  exact (exec_gen_of_width_lt hf hd hlen).trans (congrArg _ (hs.complete_eq rfl rfl rfl rfl _ _))

end Sys2Proof.Machine
end

section
/-! PROOF. The fatal state (spec/60_exceptions.md R216): what the port answers to a command word while FATAL = 1, and that
no step but a reset leaves the state. -/

namespace Sys2Proof.Machine

/-- What the decoder accepts is the command its opcode selects (R76). -/
theorem buildInstr_of_decode {c : Command} {i : Instr} (h : decode c = .ok i) : buildInstr c = some i := by
  unfold decode at h
  split at h
  case h_1 hbuild =>
    split at h
    · exact hbuild.trans (congrArg some (Except.ok.inj h))
    · cases h
  case h_2 => cases h

/-- A word the decoder accepts has the opcode of RDCSR exactly when it decodes to an RDCSR (R76). -/
theorem fieldOp_eq_rdcsr_iff {c : Command} {i : Instr} (h : decode c = .ok i) :
    fieldOp c.word = 0x30#8 ↔ ∃ csr, i = .rdcsr csr := by
  have hbuild := buildInstr_of_decode h
  unfold buildInstr at hbuild
  split at hbuild
  case h_16 => cases hbuild
  all_goals
    rename_i hop
    cases hbuild
    simp [hop]

/-- In the fatal state the first check of R80 passes the opcode of RDCSR alone. -/
theorem refusedWhileFatal_eq_false_iff {s : State} (hf : s.fatal = true) (w : CmdWord) :
    refusedWhileFatal s w = false ↔ fieldOp w = 0x30#8 := by
  simp [refusedWhileFatal, hf]

/-- In the fatal state every other opcode, legal or not, is answered with FAULTED (R216). -/
theorem runCommand_of_fatal_of_ne_rdcsr {s : State} {c : Command} (hf : s.fatal = true)
    (hop : fieldOp c.word ≠ 0x30#8) : runCommand c s = .next (s.complete .faulted 0#64) := by
  rw [runCommand, if_pos]
  exact eq_true_of_ne_false (mt (refusedWhileFatal_eq_false_iff hf c.word).mp hop)

/-- A word with a reserved bit and the opcode of RDCSR is answered in the fatal state as in any other (R216). -/
theorem runCommand_of_fatal_of_decode_error {s : State} {c : Command} {e : DecodeError} (hf : s.fatal = true)
    (hop : fieldOp c.word = 0x30#8) (he : decode c = .error e) :
    runCommand c s = .next (s.complete (decodeStatus e) 0#64) := by
  simp [runCommand, (refusedWhileFatal_eq_false_iff hf c.word).mpr hop, he]

/-- An RDCSR runs in the fatal state (R216). -/
theorem runCommand_of_fatal_of_rdcsr {s : State} {c : Command} {csr : BitVec 16} (hf : s.fatal = true)
    (hd : decode c = .ok (.rdcsr csr)) : runCommand c s = exec (.rdcsr csr) s := by
  have hop : fieldOp c.word = 0x30#8 := (fieldOp_eq_rdcsr_iff hd).mpr ⟨csr, rfl⟩
  simp [runCommand, (refusedWhileFatal_eq_false_iff hf c.word).mpr hop, hd]

/-- RDCSR completes and does nothing else, whether its number is present or not (R194). -/
theorem exec_rdcsr_completes (csr : BitVec 16) (s : State) :
    ∃ code v, exec (.rdcsr csr) s = .next (s.complete code v) := by
  cases hv : csrRead csr s with
  | some v => exact ⟨_, _, exec_rdcsr_of_some hv⟩
  | none => exact ⟨_, _, exec_rdcsr_of_none hv⟩

/-- In the fatal state every command completes and does nothing else (R216). -/
theorem runCommand_completes_of_fatal {s t : State} {c : Command} (hf : s.fatal = true)
    (h : runCommand c s = .next t) : ∃ code v, t = s.complete code v := by
  obtain ⟨-, rfl⟩ | ⟨hpass, ⟨e, -, rfl⟩ | ⟨i, hd, hexec⟩⟩ := runCommand_cases h
  · exact ⟨_, _, rfl⟩
  · exact ⟨_, _, rfl⟩
  · obtain ⟨csr, rfl⟩ := (fieldOp_eq_rdcsr_iff hd).mp ((refusedWhileFatal_eq_false_iff hf c.word).mp hpass)
    obtain ⟨code, v, hdone⟩ := exec_rdcsr_completes csr s
    exact ⟨code, v, Host.Outcome.next.inj (hexec.symm.trans hdone)⟩

/-- In the fatal state no command is in progress and CSTATE is FAULT (R36). -/
theorem State.Inv.idle_of_fatal {s : State} (h : s.Inv) (hf : s.fatal = true) :
    s.inflight = none ∧ s.cstate = .fault := by
  obtain ⟨_, _, _, _, _, hidle, hwait⟩ := h
  have hi : s.inflight = none := by
    refine Option.eq_none_iff_forall_not_mem.mpr fun f hmem => ?_
    obtain ⟨_, _, hf', _⟩ := hwait f hmem
    simp [hf] at hf'
  exact ⟨hi, (hidle hi).2.trans (if_pos hf)⟩

/-- Taking the host's command from the port keeps the invariant. -/
theorem State.Inv.take_command {s : State} (h : s.Inv) (hi : s.inflight = none) (rest : List HostMove) :
    State.Inv { s with host := rest, response := none } := by
  obtain ⟨hcfg, hw, hmod, hatt, ⟨hlast, hfatal, _⟩, hidle, _⟩ := h
  exact ⟨hcfg, hw, hmod, hatt, ⟨hlast, hfatal, nofun⟩, hidle, fun f hmem => absurd hmem (by simp [hi])⟩

/-- In the fatal state a command taken from the host completes by its response alone, LAST frozen (R212, R216). -/
theorem State.Inv.complete_eq_of_fatal {s : State} (h : s.Inv) (hf : s.fatal = true) (rest : List HostMove)
    (code : Status) (v : Limb) :
    State.complete { s with host := rest, response := none } code v =
      { s with host := rest, response := some { status := code, data := v } } := by
  obtain ⟨hi, _⟩ := h.idle_of_fatal hf
  rw [(h.take_command hi rest).complete_eq hi, if_pos hf]

/-- No step but a reset leaves the fatal state: it waits for the host, or a command completes (R216). -/
theorem State.Inv.step_keeps_fatal {s t : State} (h : s.Inv) (hf : s.fatal = true) (hstep : step s = .next t)
    (hreset : ¬ s.ResetNext) : t.fatal = true ∧ t.cstate = .fault := by
  obtain ⟨hi, hc⟩ := h.idle_of_fatal hf
  obtain ⟨f, hsome, -⟩ | ⟨-, ⟨-, rfl⟩ | ⟨rest, -, rfl⟩ | ⟨rest, hh, -⟩ | ⟨c, rest, -, hrun⟩⟩ := step_cases hstep
  · simp [hi] at hsome
  · exact ⟨hf, hc⟩
  · exact ⟨hf, hc⟩
  · exact absurd ⟨rest, hh⟩ hreset
  · obtain ⟨code, v, rfl⟩ := runCommand_completes_of_fatal (s := { s with host := rest, response := none }) hf hrun
    exact ⟨hf, if_pos hf⟩

/-- Settles O11: each kind of command word completes with its code and by its response alone, and every other step but a
reset leaves FATAL and CSTATE as they are. -/
theorem fatalStateRefusesAllButRdcsr : Obligations.FatalStateRefusesAllButRdcsr := by
  intro s hs hf
  obtain ⟨hi, _⟩ := hs.idle_of_fatal hf
  refine ⟨fun c rest hh => ?_, fun t => hs.step_keeps_fatal hf⟩
  rw [step_of_command hi hh]
  simp only [← hs.complete_eq_of_fatal hf rest]
  have hfTaken : State.fatal { s with host := rest, response := none } = true := hf
  refine ⟨fun hop => ?refused, fun he hop => ?reserved, fun csr hd => ⟨fun v hv => ?present, fun hlt => ?absent⟩⟩
  case refused => exact runCommand_of_fatal_of_ne_rdcsr hfTaken hop
  case reserved => exact runCommand_of_fatal_of_decode_error hfTaken hop he
  case present => exact (runCommand_of_fatal_of_rdcsr hfTaken hd).trans (exec_rdcsr_of_some hv)
  case absent =>
    exact (runCommand_of_fatal_of_rdcsr hfTaken hd).trans (exec_rdcsr_of_none ((csrRead_eq_none csr _).mpr hlt))

end Sys2Proof.Machine
end

section
/-! PROOF. The decoder against the encoder and against the opcode map (spec/30_encoding.md R70 to R77, R83). -/

namespace Sys2Proof.Machine

open Sys2Proof.Laws

/-- The decoder accepts a command exactly when its opcode is assigned and its reserved bits are zero (R75, R77). -/
theorem decode_eq_ok_iff {c : Command} {i : Instr} :
    decode c = .ok i ↔
      buildInstr c = some i ∧ ∃ m, reservedMask (fieldOp c.word) = some m ∧ c.word &&& m = 0#32 := by
  unfold decode
  split
  case h_1 m j hm hj =>
    rw [hm, hj]
    split
    case isTrue hz => simp [hz]
    case isFalse hz => simp [hz]
  case h_2 hnone =>
    refine ⟨nofun, ?_⟩
    rintro ⟨hi, m, hm, _⟩
    exact (hnone m i hm hi).elim

/-! ## From the instruction to its word -/

/-- Every command's word agrees with its row of the opcode map (R76). -/
theorem encodeWord_and_rowMask : ∀ i : Instr, encodeWord i &&& rowMask i = rowMatch i
  | .wrl rd idx data => TableRow.wrl rd idx data
  | .rdl ra idx => TableRow.rdl ra idx
  | .clr rd => TableRow.clr rd
  | .mov rd ra => TableRow.mov rd ra
  | .sub rd ra rb => TableRow.sub rd ra rb
  | .sbb rd ra rb => TableRow.sbb rd ra rb
  | .lt ra rb => TableRow.lt ra rb
  | .gt ra rb => TableRow.gt ra rb
  | .eq ra rb => TableRow.eq ra rb
  | .setmod ra => TableRow.setmod ra
  | .rdmod idx => TableRow.rdmod idx
  | .gen rd len => TableRow.gen rd len
  | .sample rd => TableRow.sample rd
  | .rdcsr csr => TableRow.rdcsr csr
  | .wrcsr csr data => TableRow.wrcsr csr data

/-- A command's row stands in the opcode map. -/
theorem row_mem_opcodeRows (i : Instr) : (rowMatch i, rowMask i) ∈ opcodeRows := by
  cases i <;> simp [rowMatch, rowMask, opcodeRows]

/-- The mask of every row covers the opcode (R76). -/
theorem fieldOp_row_mask {r : CmdWord × CmdWord} (hr : r ∈ opcodeRows) : fieldOp r.2 = 0xFF#8 := by
  simp only [opcodeRows] at hr
  fin_cases hr <;> rfl

/-- The match value of every row is zero below the opcode (R76). -/
theorem row_match_and_low {r : CmdWord × CmdWord} (hr : r ∈ opcodeRows) : r.1 &&& 0x00FFFFFF#32 = 0#32 := by
  simp only [opcodeRows] at hr
  fin_cases hr <;> rfl

/-- A word that matches a row has the row's opcode. -/
theorem fieldOp_of_row {w : CmdWord} {r : CmdWord × CmdWord} (hr : r ∈ opcodeRows) (h : w &&& r.2 = r.1) :
    fieldOp w = fieldOp r.1 := by
  have hand : fieldOp (w &&& r.2) = fieldOp w &&& fieldOp r.2 := BitVec.extractLsb'_and
  rw [← h, hand, fieldOp_row_mask hr]
  exact BitVec.and_allOnes.symm

/-- A word that matches a row has an assigned opcode and zero reserved bits. -/
theorem reserved_zero_of_row {w : CmdWord} {r : CmdWord × CmdWord} (hr : r ∈ opcodeRows) (h : w &&& r.2 = r.1) :
    ∃ m, reservedMask (fieldOp w) = some m ∧ w &&& m = 0#32 := by
  refine ⟨r.2 &&& 0x00FFFFFF#32, fieldOp_of_row hr h ▸ reservedMask_of_mem_opcodeRows hr, ?_⟩
  rw [← BitVec.and_assoc, h, row_match_and_low hr]

/-- The fields of a command's word are the command's own operands. -/
theorem buildInstr_encode (i : Instr) : buildInstr (encode i) = some i := by
  cases i <;> simp [encode, encodeWord, encodeData, buildInstr]

/-- Settles O1: the opcode selects the command, the fields are its operands, and its row keeps the reserved bits zero. -/
theorem decodeOfEncodeIsTheInstruction : Obligations.DecodeOfEncodeIsTheInstruction := fun i =>
  decode_eq_ok_iff.mpr
    ⟨buildInstr_encode i, reserved_zero_of_row (row_mem_opcodeRows i) (encodeWord_and_rowMask i)⟩

/-! ## From the word to its instruction -/

/-- A word is packed from fields that are its own. -/
theorem packWord_eq_of_fields {w : CmdWord} {op : BitVec 8} {rd ra : BitVec 4} {low : BitVec 16} (hop : fieldOp w = op)
    (hrd : rd = fieldRd w) (hra : ra = fieldRa w) (hlow : low = fieldImm w) : packWord op rd ra low = w := by
  rw [← hop, hrd, hra, hlow, packWord_fields]

/-- Where the reserved bits of a word are zero and cover rd, rd is zero (R75). -/
theorem zero_eq_fieldRd {w m : CmdWord} (hz : w &&& m = 0#32) (hm : fieldRd m = 15#4) : 0#4 = fieldRd w := by
  have hand : fieldRd (w &&& m) = fieldRd w &&& fieldRd m := BitVec.extractLsb'_and
  rw [hz, hm] at hand
  exact hand.trans BitVec.and_allOnes

/-- Where the reserved bits of a word are zero and cover ra, ra is zero (R75). -/
theorem zero_eq_fieldRa {w m : CmdWord} (hz : w &&& m = 0#32) (hm : fieldRa m = 15#4) : 0#4 = fieldRa w := by
  have hand : fieldRa (w &&& m) = fieldRa w &&& fieldRa m := BitVec.extractLsb'_and
  rw [hz, hm] at hand
  exact hand.trans BitVec.and_allOnes

/-- Where the reserved bits of a word are zero and cover its low half, that half is zero (R75). -/
theorem zero_eq_fieldImm {w m : CmdWord} (hz : w &&& m = 0#32) (hm : fieldImm m = 0xFFFF#16) : 0#16 = fieldImm w := by
  have hand : fieldImm (w &&& m) = fieldImm w &&& fieldImm m := BitVec.extractLsb'_and
  rw [hz, hm] at hand
  exact hand.trans BitVec.and_allOnes

/-- Where the reserved bits of a word are zero and cover the twelve low ones, its low half holds rb alone (R72, R75). -/
theorem lowRb_eq_fieldImm {w m : CmdWord} (hz : w &&& m = 0#32) (hm : fieldImm m = 0x0FFF#16) :
    lowRb (fieldRb w) = fieldImm w := by
  have hand : fieldImm (w &&& m) = fieldImm w &&& fieldImm m := BitVec.extractLsb'_and
  rw [hz, hm] at hand
  have hmod : 0 = (fieldImm w).toNat % 2 ^ 12 := by
    have := congrArg BitVec.toNat hand
    rwa [BitVec.toNat_and, show (0x0FFF#16).toNat = 2 ^ 12 - 1 from rfl, Nat.and_two_pow_sub_one_eq_mod] at this
  apply BitVec.eq_of_toNat_eq
  simp only [lowRb_toNat, fieldRb, fieldImm, BitVec.extractLsb'_toNat, Nat.shiftRight_eq_div_pow] at hmod ⊢
  omega

/-- A word whose opcode is assigned and whose reserved bits are zero is the word of the command it selects (R72). -/
theorem encodeWord_of_buildInstr {c : Command} {i : Instr} {m : CmdWord} (hi : buildInstr c = some i)
    (hm : reservedMask (fieldOp c.word) = some m) (hz : c.word &&& m = 0#32) : encodeWord i = c.word := by
  unfold buildInstr at hi
  split at hi
  case h_16 => cases hi
  all_goals
    rename_i hop
    rw [hop] at hm
    cases hi
    cases hm
  case h_1 => exact packWord_eq_of_fields hop rfl (zero_eq_fieldRa hz rfl) rfl
  case h_2 => exact packWord_eq_of_fields hop (zero_eq_fieldRd hz rfl) rfl rfl
  case h_3 => exact packWord_eq_of_fields hop rfl (zero_eq_fieldRa hz rfl) (zero_eq_fieldImm hz rfl)
  case h_4 => exact packWord_eq_of_fields hop rfl rfl (zero_eq_fieldImm hz rfl)
  case h_5 => exact packWord_eq_of_fields hop rfl rfl (lowRb_eq_fieldImm hz rfl)
  case h_6 => exact packWord_eq_of_fields hop rfl rfl (lowRb_eq_fieldImm hz rfl)
  case h_7 => exact packWord_eq_of_fields hop (zero_eq_fieldRd hz rfl) rfl (lowRb_eq_fieldImm hz rfl)
  case h_8 => exact packWord_eq_of_fields hop (zero_eq_fieldRd hz rfl) rfl (lowRb_eq_fieldImm hz rfl)
  case h_9 => exact packWord_eq_of_fields hop (zero_eq_fieldRd hz rfl) rfl (lowRb_eq_fieldImm hz rfl)
  case h_10 => exact packWord_eq_of_fields hop (zero_eq_fieldRd hz rfl) rfl (zero_eq_fieldImm hz rfl)
  case h_11 => exact packWord_eq_of_fields hop (zero_eq_fieldRd hz rfl) (zero_eq_fieldRa hz rfl) rfl
  case h_12 => exact packWord_eq_of_fields hop rfl (zero_eq_fieldRa hz rfl) rfl
  case h_13 => exact packWord_eq_of_fields hop rfl (zero_eq_fieldRa hz rfl) (zero_eq_fieldImm hz rfl)
  case h_14 => exact packWord_eq_of_fields hop (zero_eq_fieldRd hz rfl) (zero_eq_fieldRa hz rfl) rfl
  case h_15 => exact packWord_eq_of_fields hop (zero_eq_fieldRd hz rfl) (zero_eq_fieldRa hz rfl) rfl

/-- A command the decoder accepts has the word of what it decodes to. -/
theorem encodeWord_of_decode {c : Command} {i : Instr} (h : decode c = .ok i) : encodeWord i = c.word := by
  obtain ⟨hi, m, hm, hz⟩ := decode_eq_ok_iff.mp h
  exact encodeWord_of_buildInstr hi hm hz

/-- WRL and WRCSR hold the data operand of the command, every other instruction none (R70). -/
theorem encodeData_of_buildInstr {c : Command} {i : Instr} (hi : buildInstr c = some i) :
    encodeData i = if fieldOp c.word = 0x01#8 ∨ fieldOp c.word = 0x31#8 then c.data else 0#64 := by
  unfold buildInstr at hi
  split at hi
  case h_16 => cases hi
  all_goals
    rename_i hop
    cases hi
    simp [hop, encodeData]

/-- Settles O2: opcode, operands and zero reserved bits are all there is in a word; the data operand is read off by
`encodeData_of_buildInstr`. -/
theorem encodeOfDecodeIsTheCommand : Obligations.EncodeOfDecodeIsTheCommand := by
  intro c i h
  have hword : encodeWord i = c.word := encodeWord_of_decode h
  have hdata := encodeData_of_buildInstr (buildInstr_of_decode h)
  refine ⟨hword, fun hop => ?_, fun hwrl hwrcsr => ?_⟩
  · rw [encode, hword, hdata, if_pos hop]
  · rw [hdata, if_neg (not_or.mpr ⟨hwrl, hwrcsr⟩)]

/-! ## The opcode map -/

/-- Settles O3: an accepted word is an encoding, which matches its command's row; a word that matches a row has an
assigned opcode and zero reserved bits. -/
theorem decoderAcceptsExactlyTheTablesWords : Obligations.DecoderAcceptsExactlyTheTablesWords := by
  refine fun c => ⟨fun ⟨i, h⟩ => ?accepted, fun ⟨r, hr, hrow⟩ => ?row⟩
  case accepted =>
    exact ⟨(rowMatch i, rowMask i), row_mem_opcodeRows i, encodeWord_of_decode h ▸ encodeWord_and_rowMask i⟩
  case row =>
    obtain ⟨m, hm, hz⟩ := reserved_zero_of_row hr hrow
    obtain ⟨i, hi⟩ := exists_buildInstr_of_reservedMask hm
    exact ⟨i, decode_eq_ok_iff.mpr ⟨hi, m, hm, hz⟩⟩

/-- The rows of the opcode map differ in their opcodes. -/
theorem opcodes_nodup : (opcodeRows.map fun r => fieldOp r.1).Nodup := by decide

/-- Settles O4: a word that matches a row has the row's opcode, and the rows differ in their opcodes. -/
theorem opcodeRowsDoNotOverlap : Obligations.OpcodeRowsDoNotOverlap := fun _ _ _ hr hq hwr hwq =>
  List.inj_on_of_nodup_map opcodes_nodup hr hq ((fieldOp_of_row hr hwr).symm.trans (fieldOp_of_row hq hwq))

/-- Settles O5: the decoder is run on each word; WRL and WRCSR, with any data, are encodings. -/
theorem workedEncodingsDecode : Obligations.WorkedEncodingsDecode := by
  refine ⟨?_, ?_, ?_, ?_, ?_, fun d => ?wrl, ?_, ?_, ?_, ?_, ?_, ?_, ?_, ?_, ?_, ?_, fun d => ?wrcsr⟩
  case wrl => exact decodeOfEncodeIsTheInstruction (.wrl 1#4 3#16 d)
  case wrcsr => exact decodeOfEncodeIsTheInstruction (.wrcsr 1#16 d)
  all_goals decide

/-! ## The data operand -/

/-- The decoder hands the data operand to WRL and WRCSR alone (R70). -/
theorem decode_data_irrelevant {w : CmdWord} (hwrl : fieldOp w ≠ 0x01#8) (hwrcsr : fieldOp w ≠ 0x31#8) (d d' : Limb) :
    decode { word := w, data := d } = decode { word := w, data := d' } := by
  have hbuild : buildInstr { word := w, data := d } = buildInstr { word := w, data := d' } := by
    simp only [buildInstr]
    split
    case h_1 hop => exact absurd hop hwrl
    case h_15 hop => exact absurd hop hwrcsr
    all_goals rfl
  unfold decode
  rw [hbuild]

/-- Settles O6: the step looks at the data operand through the decoder alone. -/
theorem onlyWrlAndWrcsrReadTheDataOperand : Obligations.OnlyWrlAndWrcsrReadTheDataOperand := by
  intro s w d d' rest hi hwrl hwrcsr
  have hrun (t : State) : runCommand { word := w, data := d } t = runCommand { word := w, data := d' } t := by
    unfold runCommand
    rw [decode_data_irrelevant hwrl hwrcsr d d']
  have hstep (x : Limb) : step { s with host := .command { word := w, data := x } :: rest } =
      runCommand { word := w, data := x } { s with host := rest, response := none } :=
    step_of_command (s := { s with host := .command { word := w, data := x } :: rest }) hi rfl
  rw [hstep, hstep, hrun]

end Sys2Proof.Machine
end

section
/-! PROOF. A command that draws from the source (spec/42_random_bits.md R142 to R148, 43_sampling.md R165 to R168): what holds
of it from one answer to the next, and the five ways the source transactions of a step can end. -/

namespace Sys2Proof.Machine

/-- The part of the invariant that completing and waiting do not write. -/
structure State.Sound (s : State) : Prop where
  cfg : s.cfg.Valid
  widths : s.WidthsOk
  modulus : s.ModulusOk
  attempts : s.AttemptsOk

theorem State.Inv.sound {s : State} (h : s.Inv) : s.Sound := by
  obtain ⟨hcfg, hwidths, hmod, hatt, _⟩ := h
  exact ⟨hcfg, hwidths, hmod, hatt⟩

/-- What holds of a command in progress when the source is about to answer its request. -/
structure State.Running (f : InFlight) (s : State) : Prop where
  sound : s.Sound
  last : s.last.toNat ≤ 0x0A
  fatal : s.fatal = false
  limb : f.limb < activeLimbs (f.job.bits s.cfg)
  unanswered : (s.cand.drop f.limb).all (· == 0#64) = true
  job : f.job.okIn s f.draws = true

theorem State.Running.length_cand {f : InFlight} {s : State} (h : s.Running f) : s.cand.length = s.cfg.limbs := by
  obtain ⟨_, _, _, _, _, hcand⟩ := h.sound.widths
  exact hcand

/-- The state with another CAND and another script: all that a draw changes before it ends. -/
def State.drawn (s : State) (c : Wide) (src : List SrcEvent) : State := { s with cand := c, source := src }

/-- How the source transactions of `job` end in a step, begun in `s`: the command waits, a transaction has failed, a GEN
has filled its register, a SAMPLE has accepted its candidate, or its draws are used up. -/
inductive DrawEnd (s : State) (job : Job) : State → Prop where
  | waits (f : InFlight) (c : Wide) (src : List SrcEvent) (hjob : f.job = job) (hrun : (s.drawn c src).Running f) :
      DrawEnd s job ((s.drawn c src).await f)
  | failed (f : InFlight) (c : Wide) (src : List SrcEvent) (hjob : f.job = job) (hrun : (s.drawn c src).Running f) :
      DrawEnd s job (sourceFailed f (s.drawn c src))
  | filled (d : WReg) (len : Nat) (c : Wide) (src : List SrcEvent) (hjob : job = .gen d len)
      (hlen : c.length = s.cfg.limbs) : DrawEnd s job (((s.drawn c src).writeW d c).complete .ok 0#64)
  | accepted (d : WReg) (k : Nat) (c : Wide) (src : List SrcEvent) (hjob : job = .sample d)
      (hlen : c.length = s.cfg.limbs) (hk : k ≤ s.cfg.maxAttempts) (hlt : wideLt c s.mod = 1#1) :
      DrawEnd s job (sampleAccept d k (s.drawn c src))
  | exhausted (d : WReg) (c : Wide) (src : List SrcEvent) (hjob : job = .sample d) (hlen : c.length = s.cfg.limbs) :
      DrawEnd s job ({ s.drawn c src with
        attempts := BitVec.ofNat 64 s.cfg.maxAttempts
        fatal := true
        cstate := .fault }.finish false .retryExceeded 0#64)

/-! ## One answer -/

/-- The job of a command in progress looks at MODV, CSTATE and the parameters alone. -/
theorem Job.okIn_congr {s s' : State} (hcfg : s'.cfg = s.cfg) (hmodv : s'.modv = s.modv) (hcs : s'.cstate = s.cstate)
    (draws : Nat) (job : Job) : job.okIn s' draws = job.okIn s draws := by
  cases job <;> simp only [Job.okIn, hcfg, hmodv, hcs]

/-- The invariant of a draw survives another CAND of the same length. -/
theorem State.Sound.drawn {s : State} (h : s.Sound) {c : Wide} (hc : c.length = s.cfg.limbs) (src : List SrcEvent) :
    (s.drawn c src).Sound := by
  obtain ⟨hcfg, ⟨h0, h1, h2, h3, hm, _⟩, hmod, hatt⟩ := h
  exact ⟨hcfg, ⟨h0, h1, h2, h3, hm, hc⟩, hmod, hatt⟩

/-- An answer for limb `i` leaves the limbs above it unanswered. -/
theorem unanswered_set {c : Wide} {i : Nat} (v : Limb) (h : (c.drop i).all (· == 0#64) = true) :
    ((c.set i v).drop (i + 1)).all (· == 0#64) = true := by
  rw [List.drop_set_of_lt (Nat.lt_succ_self i)]
  rw [List.all_eq_true] at h ⊢
  exact fun l hl => h l ((List.drop_sublist_drop_left c (Nat.le_succ i)).subset hl)

/-- How a draw of `job` begun in `s` ends, it ends from any CAND and script. -/
theorem DrawEnd.of_drawn {s t : State} {job : Job} {c : Wide} {src : List SrcEvent}
    (h : DrawEnd (s.drawn c src) job t) : DrawEnd s job t := by
  cases h with
  | waits f c src hjob hrun => exact .waits f c src hjob hrun
  | failed f c src hjob hrun => exact .failed f c src hjob hrun
  | filled d len c src hjob hlen => exact .filled d len c src hjob hlen
  | accepted d k c src hjob hlen hk hlt => exact .accepted d k c src hjob hlen hk hlt
  | exhausted d c src hjob hlen => exact .exhausted d c src hjob hlen

/-- What an answer or the head of SAMPLE's loop may lead to: the same job goes on in `s` but for CAND, or it ends. -/
def Progress.Follows (s : State) (job : Job) : Progress → Prop
  | .more f s1 => f.job = job ∧ (∃ c, s1 = s.drawn c s.source) ∧ s1.Running f
  | .done t => DrawEnd s job t

theorem Progress.Follows.of_drawn {s : State} {job : Job} {c : Wide} {p : Progress}
    (h : p.Follows (s.drawn c s.source) job) : p.Follows s job := by
  cases p with
  | more f s1 =>
    obtain ⟨hjob, ⟨c', hs1⟩, hrun⟩ := h
    exact ⟨hjob, ⟨c', hs1⟩, hrun⟩
  | done t => exact DrawEnd.of_drawn h

/-- The head of SAMPLE's loop, with `k` draws made so far (R166, R167). -/
theorem sampleHead_follows {s : State} (hsound : s.Sound) (hlast : s.last.toNat ≤ 0x0A) (hf : s.fatal = false)
    (hmodv : s.modv = true) (hcs : s.cstate = .sampling) (d : WReg) {k : Nat} (hk : k ≤ s.cfg.maxAttempts) :
    (sampleHead d k s).Follows s (.sample d) := by
  obtain ⟨_, _, _, _, _, hcand⟩ := hsound.widths
  obtain ⟨hpos, _⟩ := hsound.cfg
  obtain ⟨rfl, e⟩ | ⟨hne, e⟩ := sampleHead_cases d k s
  · rw [e]
    exact .exhausted d s.cand s.source rfl hcand
  · rw [e]
    have hdraws : k < s.cfg.maxAttempts := Nat.lt_of_le_of_ne hk hne
    refine ⟨rfl, ⟨wideZero s.cfg.limbs, rfl⟩, hsound.drawn (length_wideZero _) s.source, hlast, hf, ?_, ?_, ?_⟩
    · show 0 < activeLimbs s.cfg.width
      rw [activeLimbs_width]
      exact hpos
    · simp [wideZero]
    · simp [Job.okIn, hmodv, hcs, hdraws]

/-- A SAMPLE in progress is in SAMPLING, with an admitted modulus and a draw left (R165, R166). -/
theorem State.Running.of_sample {f : InFlight} {s : State} (h : s.Running f) {d : WReg} (hjob : f.job = .sample d) :
    s.modv = true ∧ f.draws < s.cfg.maxAttempts ∧ s.cstate = .sampling := by
  have := h.job
  rw [hjob] at this
  simpa [Job.okIn] using this

/-- The answer that completes a draw (R148, R166). -/
theorem drawComplete_follows {f : InFlight} {s : State} (h : s.Running f) {c : Wide} (hc : c.length = s.cfg.limbs) :
    (drawComplete f (s.drawn c s.source)).Follows s f.job := by
  unfold drawComplete
  split
  case h_1 d len hjob =>
    rw [hjob]
    exact .filled d len c s.source rfl hc
  case h_2 d hjob =>
    obtain ⟨hmodv, hdraws, hcs⟩ := h.of_sample hjob
    rw [hjob]
    split
    case isTrue hlt => exact .accepted d (f.draws + 1) c s.source rfl hc hdraws hlt
    case isFalse =>
      exact .of_drawn (sampleHead_follows (h.sound.drawn hc s.source) h.last h.fatal hmodv hcs d hdraws)

/-- One `ok` answer (R146). -/
theorem takeFill_follows {f : InFlight} {s : State} (h : s.Running f) (b : Fill) :
    (takeFill f b s).Follows s f.job := by
  have hc : (s.cand.set f.limb (drawnLimb (f.job.bits s.cfg) f.limb b)).length = s.cfg.limbs := by
    rw [List.length_set, h.length_cand]
  obtain ⟨hlimb, e⟩ | ⟨_, e⟩ := takeFill_cases f b s
  · rw [e]
    exact ⟨rfl, ⟨_, rfl⟩, h.sound.drawn hc s.source, h.last, h.fatal, hlimb, unanswered_set _ h.unanswered,
      (Job.okIn_congr rfl rfl rfl _ _).trans h.job⟩
  · rw [e]
    exact drawComplete_follows h hc

/-! ## All the answers of a step -/

/-- The source transactions of a step end in one of the five ways. -/
theorem drive_end {f : InFlight} {s : State} (h : s.Running f) (src : List SrcEvent) :
    DrawEnd s f.job (drive src f s) := by
  have rescript {f' : InFlight} {s' : State} (hrun : s'.Running f') (x : List SrcEvent) :
      (s'.drawn s'.cand x).Running f' :=
    ⟨hrun.sound.drawn hrun.length_cand x, hrun.last, hrun.fatal, hrun.limb, hrun.unanswered,
      (Job.okIn_congr rfl rfl rfl _ _).trans hrun.job⟩
  refine drive_induction (P := fun f' s' => f'.job = f.job ∧ (∃ c x, s' = s.drawn c x) ∧ s'.Running f')
    (Q := DrawEnd s f.job) ?wait ?fail ?done ?more src f s ⟨rfl, ⟨s.cand, s.source, rfl⟩, h⟩
  case wait =>
    rintro f' s' x ⟨hjob, ⟨c, y, rfl⟩, hrun⟩
    exact .waits f' c x hjob (rescript hrun x)
  case fail =>
    rintro f' s' x ⟨hjob, ⟨c, y, rfl⟩, hrun⟩
    exact .failed f' c x hjob (rescript hrun x)
  case done =>
    rintro f' s' b x t ⟨hjob, ⟨c, y, rfl⟩, hrun⟩ ht
    have hfollows := takeFill_follows (rescript hrun x) b
    rw [show takeFill f' b ((s.drawn c y).drawn (s.drawn c y).cand x) = .done t from ht, hjob] at hfollows
    exact DrawEnd.of_drawn (c := c) (src := x) hfollows
  case more =>
    rintro f' s' b x f1 s1 ⟨hjob, ⟨c, y, rfl⟩, hrun⟩ ht
    have hfollows := takeFill_follows (rescript hrun x) b
    rw [show takeFill f' b ((s.drawn c y).drawn (s.drawn c y).cand x) = .more f1 s1 from ht] at hfollows
    obtain ⟨hjob1, ⟨c1, hs1⟩, hrun1⟩ := hfollows
    exact ⟨hjob1.trans hjob, ⟨c1, x, hs1⟩, hrun1⟩

/-- The state an answer leaves, whether the command goes on or has ended. -/
def Progress.state : Progress → State
  | .more _ s => s
  | .done t => t

theorem sampleHead_source (d : WReg) (k : Nat) (s : State) : (sampleHead d k s).state.source = s.source := by
  obtain ⟨-, e⟩ | ⟨-, e⟩ := sampleHead_cases d k s <;> rw [e] <;> rfl

theorem drawComplete_source (f : InFlight) (s : State) : (drawComplete f s).state.source = s.source := by
  unfold drawComplete
  split
  case h_1 => rfl
  case h_2 d _ =>
    split
    case isTrue => rfl
    case isFalse => exact sampleHead_source d _ s

/-- An answer leaves the rest of the script alone. -/
theorem takeFill_source (f : InFlight) (b : Fill) (s : State) : (takeFill f b s).state.source = s.source := by
  obtain ⟨-, e⟩ | ⟨-, e⟩ := takeFill_cases f b s <;> rw [e]
  · rfl
  · exact drawComplete_source f _

/-- The events of a step are taken from the front of the script. -/
theorem drive_source_suffix (src : List SrcEvent) : ∀ (f : InFlight) (s : State), (drive src f s).source <:+ src := by
  induction src with
  | nil => exact fun f s => List.suffix_refl []
  | cons e src ih =>
    intro f s
    cases e with
    | pending => exact List.suffix_cons _ _
    | fail =>
      rw [drive_fail]
      unfold sourceFailed
      split <;> exact List.suffix_cons _ _
    | ok b =>
      have hsrc := takeFill_source f b { s with source := src }
      cases ht : takeFill f b { s with source := src } with
      | done t =>
        rw [ht] at hsrc
        rw [drive_ok_done ht, show t.source = src from hsrc]
        exact List.suffix_cons _ _
      | more f1 s1 =>
        rw [drive_ok_more ht]
        exact (ih f1 s1).trans (List.suffix_cons _ _)

/-! ## The invariant at the end of a step -/

/-- Writing a value of LIMBS limbs keeps the widths. -/
theorem State.Sound.writeW {s : State} (h : s.Sound) (d : WReg) {x : Wide} (hx : x.length = s.cfg.limbs) :
    (s.writeW d x).Sound := by
  obtain ⟨hcfg, ⟨h0, h1, h2, h3, hm, hc⟩, hmod, hatt⟩ := h
  refine ⟨hcfg, ?_, hmod, hatt⟩
  cases d
  · exact ⟨hx, h1, h2, h3, hm, hc⟩
  · exact ⟨h0, hx, h2, h3, hm, hc⟩
  · exact ⟨h0, h1, hx, h3, hm, hc⟩
  · exact ⟨h0, h1, h2, hx, hm, hc⟩

/-- ATTEMPTS holds a number of draws up to MAX_ATTEMPTS as it is (R30). -/
theorem State.Sound.toNat_draws {s : State} (h : s.Sound) {k : Nat} (hk : k ≤ s.cfg.maxAttempts) :
    (BitVec.ofNat 64 k).toNat = k := by
  obtain ⟨_, _, _, hmax⟩ := h.cfg
  rw [BitVec.toNat_ofNat, Nat.mod_eq_of_lt (Nat.lt_of_le_of_lt hk hmax)]

/-- Recording a number of draws keeps the invariant's lasting part. -/
theorem State.Sound.withAttempts {s : State} (h : s.Sound) {k : Nat} (hk : k ≤ s.cfg.maxAttempts) :
    State.Sound { s with attempts := BitVec.ofNat 64 k } := by
  refine ⟨h.cfg, h.widths, h.modulus, ?_⟩
  show (BitVec.ofNat 64 k).toNat ≤ s.cfg.maxAttempts
  rwa [h.toNat_draws hk]

/-- LAST holds a code from 0x00 to 0x0A after every status but FAULTED (R213). -/
theorem Status.code_le {c : Status} (h : c ≠ .faulted) : c.code.toNat ≤ 0x0A := by
  revert h; cases c <;> decide

/-- A completion with FATAL = 0 leads into the invariant (R212). -/
theorem State.Sound.complete_inv {s : State} (h : s.Sound) (hf : s.fatal = false) {c : Status} (hc : c ≠ .faulted)
    (v : Limb) : (s.complete c v).Inv := by
  refine ⟨h.cfg, h.widths, h.modulus, h.attempts, ⟨?_, ?_, ?_⟩, fun _ => ⟨rfl, rfl⟩, nofun⟩
  · simpa [hf] using Status.code_le hc
  · simp [hf]
  · simp [hf]

/-- A command that waits is in the invariant (R38, R143). -/
theorem State.Running.await_inv {f : InFlight} {s : State} (h : s.Running f) : (s.await f).Inv := by
  refine ⟨h.sound.cfg, h.sound.widths, h.sound.modulus, h.sound.attempts, ⟨h.last, ?_, nofun⟩, nofun, ?_⟩
  · intro hf
    exact absurd (h.fatal.symm.trans hf) Bool.false_ne_true
  · rintro g hg
    obtain rfl : f = g := Option.some.inj hg
    exact ⟨rfl, rfl, h.fatal, h.limb, h.unanswered, (Job.okIn_congr rfl rfl rfl _ _).trans h.job⟩

/-- A failed transaction leads into the invariant (R144, R168). -/
theorem State.Running.sourceFailed_inv {f : InFlight} {s : State} (h : s.Running f) : (sourceFailed f s).Inv := by
  unfold sourceFailed
  split
  case h_1 => exact h.sound.complete_inv h.fatal (by decide) _
  case h_2 d hjob =>
    obtain ⟨_, hdraws, _⟩ := h.of_sample hjob
    exact (h.sound.withAttempts hdraws.le).complete_inv h.fatal (by decide) _

/-- However the source transactions of a step end, they end in the invariant. -/
theorem DrawEnd.inv {s t : State} {job : Job} (hs : s.Sound) (hf : s.fatal = false) (h : DrawEnd s job t) : t.Inv := by
  cases h with
  | waits f c src _ hrun => exact hrun.await_inv
  | failed f c src _ hrun => exact hrun.sourceFailed_inv
  | filled d len c src _ hlen =>
    exact ((hs.drawn hlen src).writeW d hlen).complete_inv hf (by decide) _
  | accepted d k c src _ hlen hk _ =>
    have hsound := ((hs.drawn hlen src).withAttempts hk).writeW d hlen
    exact State.Sound.complete_inv (c := .ok) (s := ({ s.drawn c src with
      cstate := .accepted, attempts := BitVec.ofNat 64 k }).writeW d c)
      ⟨hsound.cfg, hsound.widths, hsound.modulus, hsound.attempts⟩ hf (by decide) _
  | exhausted d c src _ hlen =>
    obtain ⟨hcfg, hwidths, hmod, hatt⟩ := (hs.drawn hlen src).withAttempts (Nat.le_refl s.cfg.maxAttempts)
    refine ⟨hcfg, hwidths, hmod, hatt, ⟨by simp [Status.code], fun _ => ⟨rfl, hs.toNat_draws (Nat.le_refl _)⟩, nofun⟩,
      fun _ => ⟨rfl, rfl⟩, nofun⟩

end Sys2Proof.Machine
end

section
/-! PROOF. The subtract-with-borrow primitives and the constant-time comparisons as arithmetic (spec/40_subtract.md R101 to
R105, 41_compare.md R120 to R126). -/

namespace Sys2Proof.Machine

/-- The borrow a flag stands for, as a number: its bit 63 (R100). -/
def borrowIn (f : Limb) : Nat := (f.getLsbD 63).toNat

theorem borrowIn_le (f : Limb) : borrowIn f ≤ 1 := Bool.toNat_le _

@[simp] theorem borrowIn_zero : borrowIn 0#64 = 0 := rfl

@[simp] theorem borrowIn_ones : borrowIn ones64 = 1 := rfl

/-- The flag of a borrow: all ones or zero (R102). -/
def borrowOut (b : Prop) [Decidable b] : Limb := if b then ones64 else 0#64

theorem borrowIn_borrowOut (b : Prop) [Decidable b] : borrowIn (borrowOut b) = if b then 1 else 0 := by
  unfold borrowOut
  split <;> rfl

/-- The 128-bit difference of R101 as a number. -/
theorem wide_difference_toNat (a b f : Limb) :
    (a.setWidth 128 - b.setWidth 128 - (borrowBit f).setWidth 128).toNat =
      if a.toNat < b.toNat + borrowIn f then 2 ^ 128 + a.toNat - (b.toNat + borrowIn f)
      else a.toNat - (b.toNat + borrowIn f) := by
  have := a.isLt
  have := b.isLt
  have hbit : (borrowBit f).toNat = borrowIn f := borrowBit_toNat f
  have := borrowIn_le f
  simp only [BitVec.toNat_sub, BitVec.toNat_setWidth, hbit]
  split <;> omega

/-- The limb primitive as an equation of numbers, and its flag (R102). -/
theorem limbSbb_spec (a b f : Limb) :
    (limbSbb a b f).1.toNat + b.toNat + borrowIn f = a.toNat + 2 ^ 64 * borrowIn (limbSbb a b f).2 ∧
      (limbSbb a b f).2 = borrowOut (a.toNat < b.toNat + borrowIn f) := by
  have := a.isLt
  have := b.isLt
  have := borrowIn_le f
  have hlow : (limbSbb a b f).1.toNat =
      (a.setWidth 128 - b.setWidth 128 - (borrowBit f).setWidth 128).toNat % 2 ^ 64 := by
    simp [limbSbb]
  have hhigh : (limbSbb a b f).2.toNat =
      (a.setWidth 128 - b.setWidth 128 - (borrowBit f).setWidth 128).toNat / 2 ^ 64 % 2 ^ 64 := by
    simp only [limbSbb, BitVec.extractLsb'_toNat, Nat.shiftRight_eq_div_pow]
  rw [wide_difference_toNat] at hlow hhigh
  have hflag : (limbSbb a b f).2 = borrowOut (a.toNat < b.toNat + borrowIn f) := by
    apply BitVec.eq_of_toNat_eq
    rw [hhigh, borrowOut]
    split
    case isTrue => simp; omega
    case isFalse => simp; omega
  refine ⟨?_, hflag⟩
  rw [hflag, borrowIn_borrowOut, hlow]
  split <;> omega

/-- Settles O16: the equation of `limbSbb_spec`, read modulo 2^64. -/
theorem limbSubtractIsExactWithBorrow : Obligations.LimbSubtractIsExactWithBorrow := by
  intro a b f
  obtain ⟨heq, hflag⟩ := limbSbb_spec a b f
  refine ⟨?_, hflag⟩
  have := (limbSbb a b f).1.isLt
  simp only [borrowIn] at heq
  omega

/-- The wide primitive as an equation of numbers (R104, R105). -/
theorem wideSbb_spec {x y : Wide} (f : Limb) (h : x.length = y.length) :
    (wideSbb x y f).1.length = x.length ∧
      wideVal (wideSbb x y f).1 + wideVal y + borrowIn f =
        wideVal x + 2 ^ (64 * x.length) * borrowIn (wideSbb x y f).2 := by
  induction x generalizing y f with
  | nil =>
    cases y with
    | cons => simp at h
    | nil => simp [wideSbb, wideVal]
  | cons a x ih =>
    cases y with
    | nil => simp at h
    | cons b y =>
      obtain ⟨hlen, hval⟩ := ih (limbSbb a b f).2 (Nat.succ.inj h)
      obtain ⟨hlimb, _⟩ := limbSbb_spec a b f
      refine ⟨congrArg Nat.succ hlen, ?_⟩
      have hpow : 2 ^ (64 * (x.length + 1)) = 2 ^ 64 * 2 ^ (64 * x.length) := by rw [Nat.mul_succ, Nat.add_comm, pow_add]
      simp only [wideSbb, wideVal, List.length_cons, hpow]
      linear_combination hlimb + 2 ^ 64 * hval

/-- The outgoing flag of the wide primitive is the flag of a limb subtract, so all ones or zero (R104). -/
theorem wideSbb_flag {x y : Wide} (f : Limb) (hpos : 1 ≤ x.length) (h : x.length = y.length) :
    (wideSbb x y f).2 = ones64 ∨ (wideSbb x y f).2 = 0#64 := by
  induction x generalizing y f with
  | nil => simp at hpos
  | cons a x ih =>
    cases y with
    | nil => simp at h
    | cons b y =>
      cases x with
      | nil =>
        cases y with
        | cons => simp at h
        | nil =>
          show (limbSbb a b f).2 = _ ∨ (limbSbb a b f).2 = _
          rw [(limbSbb_spec a b f).2, borrowOut]
          exact ite_eq_or_eq _ _ _
      | cons a' x => exact ih (limbSbb a b f).2 (Nat.succ_pos _) (Nat.succ.inj h)

/-- The wide primitive borrows exactly when the difference is negative (R105). -/
theorem wideSbb_borrow {x y : Wide} (f : Limb) (hpos : 1 ≤ x.length) (h : x.length = y.length) :
    (wideSbb x y f).2 = borrowOut (wideVal x < wideVal y + borrowIn f) := by
  obtain ⟨hlen, hval⟩ := wideSbb_spec f h
  have hlt := wideVal_lt (wideSbb x y f).1
  rw [hlen] at hlt
  unfold borrowOut
  obtain hflag | hflag := wideSbb_flag f hpos h <;> rw [hflag] at hval ⊢
  · rw [borrowIn_ones] at hval
    exact (if_pos (by omega)).symm
  · rw [borrowIn_zero] at hval
    exact (if_neg (by omega)).symm

/-- Settles O17: the equation of `wideSbb_spec`, read modulo 2^WIDTH. -/
theorem wideSubtractIsExactWithBorrow : Obligations.WideSubtractIsExactWithBorrow := by
  intro x y f hpos h
  obtain ⟨hlen, hval⟩ := wideSbb_spec f h
  refine ⟨hlen, ?_, wideSbb_borrow f hpos h⟩
  have hlt := wideVal_lt (wideSbb x y f).1
  rw [hlen] at hlt
  have hdiff : (wideVal x : Int) - wideVal y - borrowIn f =
      wideVal (wideSbb x y f).1 + 2 ^ (64 * x.length) * -(borrowIn (wideSbb x y f).2 : Int) := by
    have : ((wideVal (wideSbb x y f).1 + wideVal y + borrowIn f : Nat) : Int) =
      (wideVal x + 2 ^ (64 * x.length) * borrowIn (wideSbb x y f).2 : Nat) := congrArg Nat.cast hval
    push_cast at this
    linear_combination -this
  calc (wideVal (wideSbb x y f).1 : Int)
      = wideVal (wideSbb x y f).1 % 2 ^ (64 * x.length) := (Int.emod_eq_of_lt (Int.natCast_nonneg _) (by exact_mod_cast hlt)).symm
    _ = (wideVal x - wideVal y - borrowIn f) % 2 ^ (64 * x.length) := by rw [hdiff, Int.add_mul_emod_self_left]

/-! ## Comparison -/

/-- A bit of a condition. -/
def bitOf (b : Prop) [Decidable b] : BitVec 1 := if b then 1#1 else 0#1

theorem bitOf_eq_one_iff (b : Prop) [Decidable b] : bitOf b = 1#1 ↔ b := by
  unfold bitOf
  split <;> simp [*]

/-- The borrow bit of a flag is its bit 63 (R100). -/
theorem borrowBit_borrowOut (b : Prop) [Decidable b] : borrowBit (borrowOut b) = bitOf b := by
  unfold borrowOut bitOf
  split <;> rfl

/-- Less-than compares the values (R120). -/
theorem wideLt_eq {x y : Wide} (h : x.length = y.length) : wideLt x y = bitOf (wideVal x < wideVal y) := by
  cases x with
  | nil =>
    cases y with
    | cons => simp at h
    | nil => rfl
  | cons a x =>
    rw [wideLt, wideSbb_borrow 0#64 (by simp) h, borrowBit_borrowOut]
    rfl

/-- The top bit of a limb or its negation is set exactly when the limb is not zero (R121). -/
theorem msb_or_neg (acc : Limb) : (acc ||| (0#64 - acc)).msb = !decide (acc = 0#64) := by
  have := acc.isLt
  rw [BitVec.msb_or, BitVec.msb_eq_decide, BitVec.msb_eq_decide, BitVec.toNat_sub, Bool.eq_iff_iff]
  simp [← BitVec.toNat_inj]
  omega

/-- The reduction of an accumulator through its negation and top bit answers 1 exactly for zero (R121). -/
theorem zero_reduction (acc : Limb) :
    ((((acc ||| (0#64 - acc)) >>> 63) &&& 1#64) ^^^ 1#64).setWidth 1 = bitOf (acc = 0#64) := by
  apply BitVec.eq_of_getLsbD_eq
  intro i hi
  obtain rfl : i = 0 := by omega
  have hmsb := msb_or_neg acc
  rw [BitVec.msb_eq_getLsbD_last] at hmsb
  simp only [BitVec.getLsbD_setWidth, BitVec.getLsbD_xor, BitVec.getLsbD_and, BitVec.getLsbD_ushiftRight, hmsb]
  unfold bitOf
  split <;> simp [*]

/-- Equality compares the values (R121). -/
theorem wideEq_eq {x y : Wide} (h : x.length = y.length) : wideEq x y = bitOf (wideVal x = wideVal y) := by
  have hacc : xorAccumulate x y 0#64 = 0#64 ↔ wideVal x = wideVal y :=
    ((xorAccumulate_eq_zero 0#64 h).trans (and_iff_right rfl)).trans (wideVal_inj h).symm
  rw [wideEq, zero_reduction]
  unfold bitOf
  exact if_congr hacc rfl rfl

/-- Settles O22: the comparisons are those of the values, which are equal exactly for the same limbs. -/
theorem comparisonTrichotomy : Obligations.ComparisonTrichotomy := by
  intro x y h
  rw [wideGt, wideLt_eq h, wideLt_eq h.symm, wideEq_eq h]
  refine ⟨?_, bitOf_eq_one_iff _, (bitOf_eq_one_iff _).trans (wideVal_inj h), bitOf_eq_one_iff _⟩
  obtain hlt | heq | hgt := lt_trichotomy (wideVal x) (wideVal y)
  · simp [bitOf, hlt, hlt.ne, hlt.not_gt]
  · simp [bitOf, heq]
  · simp [bitOf, hgt, hgt.ne', hgt.not_gt]

end Sys2Proof.Machine
end

section
/-! PROOF. What a command does, said once for all fifteen (spec/30_encoding.md R80): it is refused by the first check it
fails, or it completes at once, or it starts to draw from the source. -/

namespace Sys2Proof.Machine

/-- A command answers a next state, whatever it finds (R210). -/
theorem exists_exec_next (i : Instr) (s : State) : ∃ t, exec i s = .next t := by
  cases i <;> exact ⟨_, rfl⟩

/-- What a command that passes its checks and draws nothing leaves. -/
inductive Direct (s : State) : Instr → State → Prop where
  | wrl {rd : BitVec 4} {idx : BitVec 16} {data : Limb} {d : WReg} (hd : selectW rd = some d)
      (hidx : idx.toNat < s.cfg.limbs) :
      Direct s (.wrl rd idx data) ((s.writeW d ((s.readW d).set idx.toNat data)).complete .ok 0#64)
  | rdl {ra : BitVec 4} {idx : BitVec 16} {a : WReg} (ha : selectW ra = some a) (hidx : idx.toNat < s.cfg.limbs) :
      Direct s (.rdl ra idx) (s.complete .ok (wideLimb (s.readW a) idx.toNat))
  | clr {rd : BitVec 4} {d : WReg} (hd : selectW rd = some d) :
      Direct s (.clr rd) ((s.writeW d (wideZero s.cfg.limbs)).complete .ok 0#64)
  | mov {rd ra : BitVec 4} {d a : WReg} (hd : selectW rd = some d) (ha : selectW ra = some a) :
      Direct s (.mov rd ra) ((s.writeW d (s.readW a)).complete .ok 0#64)
  | sub {rd ra rb : BitVec 4} {d a b : WReg} (hd : selectW rd = some d) (ha : selectW ra = some a)
      (hb : selectW rb = some b) :
      Direct s (.sub rd ra rb)
        (({ s with borrow := (wideSbb (s.readW a) (s.readW b) 0#64).2 }.writeW d
          (wideSbb (s.readW a) (s.readW b) 0#64).1).complete .ok 0#64)
  | sbb {rd ra rb : BitVec 4} {d a b : WReg} (hd : selectW rd = some d) (ha : selectW ra = some a)
      (hb : selectW rb = some b) :
      Direct s (.sbb rd ra rb)
        (({ s with borrow := (wideSbb (s.readW a) (s.readW b) s.borrow).2 }.writeW d
          (wideSbb (s.readW a) (s.readW b) s.borrow).1).complete .ok 0#64)
  | lt {ra rb : BitVec 4} {a b : WReg} (ha : selectW ra = some a) (hb : selectW rb = some b) :
      Direct s (.lt ra rb) (s.answerCt (wideLt (s.readW a) (s.readW b)))
  | gt {ra rb : BitVec 4} {a b : WReg} (ha : selectW ra = some a) (hb : selectW rb = some b) :
      Direct s (.gt ra rb) (s.answerCt (wideGt (s.readW a) (s.readW b)))
  | eq {ra rb : BitVec 4} {a b : WReg} (ha : selectW ra = some a) (hb : selectW rb = some b) :
      Direct s (.eq ra rb) (s.answerCt (wideEq (s.readW a) (s.readW b)))
  | setmod {ra : BitVec 4} {a : WReg} (ha : selectW ra = some a)
      (hne : wideEq (s.readW a) (wideZero s.cfg.limbs) = 0#1) :
      Direct s (.setmod ra) ({ s with mod := s.readW a, modv := true }.complete .ok 0#64)
  | setmodZero {ra : BitVec 4} {a : WReg} (ha : selectW ra = some a)
      (hz : wideEq (s.readW a) (wideZero s.cfg.limbs) ≠ 0#1) :
      Direct s (.setmod ra) ({ s with modv := false }.complete .zeroModulus 0#64)
  | rdmod {idx : BitVec 16} (hidx : idx.toNat < s.cfg.limbs) :
      Direct s (.rdmod idx) (s.complete .ok (wideLimb s.mod idx.toNat))
  | genZero {rd : BitVec 4} {len : BitVec 16} {d : WReg} (hd : selectW rd = some d) (hlen : len.toNat = 0) :
      Direct s (.gen rd len) (s.complete .ok 0#64)
  | rdcsr {csr : BitVec 16} {v : Limb} (hv : csrRead csr s = some v) : Direct s (.rdcsr csr) (s.complete .ok v)
  | wrcsr {data : Limb} : Direct s (.wrcsr 1#16 data) ({ s with borrow := data }.complete .ok 0#64)

/-- The command in progress that a command which draws becomes, and the state its first answer finds. -/
inductive Starts (s : State) : Instr → InFlight → State → Prop where
  | gen {rd : BitVec 4} {len : BitVec 16} {d : WReg} (hd : selectW rd = some d) (hpos : 1 ≤ len.toNat)
      (hlen : len.toNat ≤ s.cfg.width) :
      Starts s (.gen rd len) { job := .gen d len.toNat, limb := 0, draws := 0 } { s with cand := wideZero s.cfg.limbs }
  | sample {rd : BitVec 4} {d : WReg} (hd : selectW rd = some d) (hmodv : s.modv = true) :
      Starts s (.sample rd) { job := .sample d, limb := 0, draws := 0 }
        { s with cstate := .sampling, cand := wideZero s.cfg.limbs }

/-- What a command leads to while FATAL = 0: the first check it fails refuses it, or it completes, or it draws. -/
inductive ExecEnd (s : State) (i : Instr) : State → Prop where
  | refused (e : Status) (he : firstCheckFailed s i = some e) : ExecEnd s i (s.complete e 0#64)
  | direct {t : State} (h : Direct s i t) : ExecEnd s i t
  | draws {f : InFlight} {s0 : State} (h : Starts s i f s0) : ExecEnd s i (drive s.source f s0)

/-! ## The checks -/

/-- The checks of a command's register fields, which come first (R80). -/
theorem firstCheckFailed_of_register {i : Instr} {r : BitVec 4} (hr : r ∈ regFields i) (h : selectW r = none)
    (s : State) : firstCheckFailed s i = some .badRegister := by
  unfold firstCheckFailed
  rw [if_pos]
  exact List.any_eq_true.mpr ⟨r, hr, decide_eq_true ((selectW_eq_none r).mp h)⟩

/-- Where every register field selects a register, the index, length or CSR decides (R80). -/
theorem firstCheckFailed_of_index {s : State} {i : Instr} {e : Status} (hr : ∀ r ∈ regFields i, selectW r ≠ none)
    (h : indexError s.cfg i = some e) : firstCheckFailed s i = some e := by
  unfold firstCheckFailed
  rw [if_neg, h]
  intro hany
  obtain ⟨r, hmem, hle⟩ := List.any_eq_true.mp hany
  exact hr r hmem ((selectW_eq_none r).mpr (of_decide_eq_true hle))

/-- A register field is refused, or selects a register. -/
theorem ExecEnd.withReg {s : State} {i : Instr} {r : BitVec 4} {run : WReg → State} (hr : r ∈ regFields i)
    (h : ∀ d, selectW r = some d → ExecEnd s i (run d)) : ExecEnd s i (withReg s r run) := by
  cases hd : selectW r with
  | none =>
    rw [withReg_of_none hd]
    exact .refused _ (firstCheckFailed_of_register hr hd s)
  | some d =>
    rw [withReg_of_some hd]
    exact h d hd

/-- A limb index is refused, or is below LIMBS. -/
theorem ExecEnd.withLimbIndex {s : State} {i : Instr} {idx : BitVec 16} {run : Nat → State}
    (hbad : s.cfg.limbs ≤ idx.toNat → firstCheckFailed s i = some .badIndex)
    (h : idx.toNat < s.cfg.limbs → ExecEnd s i (run idx.toNat)) : ExecEnd s i (withLimbIndex s idx run) := by
  obtain hlt | hle := Nat.lt_or_ge idx.toNat s.cfg.limbs
  · rw [withLimbIndex_of_lt hlt]
    exact h hlt
  · rw [withLimbIndex_of_le hle]
    exact .refused _ (hbad hle)

/-- A command while FATAL = 0, in a configuration whose SAMPLE may draw at all (R11, R80). -/
theorem exec_end {s t : State} {i : Instr} (hf : s.fatal = false) (hmax : 1 ≤ s.cfg.maxAttempts)
    (h : exec i s = .next t) : ExecEnd s i t := by
  cases i with
  | wrl rd idx data =>
    rw [exec, execWrl, unlessFatal_of_not_fatal hf] at h
    obtain rfl := Host.Outcome.next.inj h
    refine .withReg (by simp [regFields]) fun d hd => .withLimbIndex (fun hle => ?_) fun hidx => .direct (.wrl hd hidx)
    exact firstCheckFailed_of_index (by simp [regFields, hd]) (if_pos hle)
  | rdl ra idx =>
    rw [exec, execRdl, unlessFatal_of_not_fatal hf] at h
    obtain rfl := Host.Outcome.next.inj h
    refine .withReg (by simp [regFields]) fun a ha => .withLimbIndex (fun hle => ?_) fun hidx => .direct (.rdl ha hidx)
    exact firstCheckFailed_of_index (by simp [regFields, ha]) (if_pos hle)
  | clr rd =>
    rw [exec, execClr, unlessFatal_of_not_fatal hf] at h
    obtain rfl := Host.Outcome.next.inj h
    exact .withReg (by simp [regFields]) fun d hd => .direct (.clr hd)
  | mov rd ra =>
    rw [exec, execMov, unlessFatal_of_not_fatal hf] at h
    obtain rfl := Host.Outcome.next.inj h
    exact .withReg (by simp [regFields]) fun d hd => .withReg (by simp [regFields]) fun a ha => .direct (.mov hd ha)
  | sub rd ra rb =>
    rw [exec, execSub, unlessFatal_of_not_fatal hf] at h
    obtain rfl := Host.Outcome.next.inj h
    exact .withReg (by simp [regFields]) fun d hd => .withReg (by simp [regFields]) fun a ha =>
      .withReg (by simp [regFields]) fun b hb => .direct (.sub hd ha hb)
  | sbb rd ra rb =>
    rw [exec, execSbb, unlessFatal_of_not_fatal hf] at h
    obtain rfl := Host.Outcome.next.inj h
    exact .withReg (by simp [regFields]) fun d hd => .withReg (by simp [regFields]) fun a ha =>
      .withReg (by simp [regFields]) fun b hb => .direct (.sbb hd ha hb)
  | lt ra rb =>
    rw [exec, execLt, unlessFatal_of_not_fatal hf] at h
    obtain rfl := Host.Outcome.next.inj h
    exact .withReg (by simp [regFields]) fun a ha => .withReg (by simp [regFields]) fun b hb => .direct (.lt ha hb)
  | gt ra rb =>
    rw [exec, execGt, unlessFatal_of_not_fatal hf] at h
    obtain rfl := Host.Outcome.next.inj h
    exact .withReg (by simp [regFields]) fun a ha => .withReg (by simp [regFields]) fun b hb => .direct (.gt ha hb)
  | eq ra rb =>
    rw [exec, execEq, unlessFatal_of_not_fatal hf] at h
    obtain rfl := Host.Outcome.next.inj h
    exact .withReg (by simp [regFields]) fun a ha => .withReg (by simp [regFields]) fun b hb => .direct (.eq ha hb)
  | setmod ra =>
    rw [exec, execSetmod, unlessFatal_of_not_fatal hf] at h
    obtain rfl := Host.Outcome.next.inj h
    refine .withReg (by simp [regFields]) fun a ha => ?_
    split
    case isTrue hne => exact .direct (.setmod ha hne)
    case isFalse hz => exact .direct (.setmodZero ha hz)
  | rdmod idx =>
    rw [exec, execRdmod, unlessFatal_of_not_fatal hf] at h
    obtain rfl := Host.Outcome.next.inj h
    refine .withLimbIndex (fun hle => ?_) fun hidx => .direct (.rdmod hidx)
    exact firstCheckFailed_of_index (by simp [regFields]) (if_pos hle)
  | gen rd len =>
    rw [exec, execGen, unlessFatal_of_not_fatal hf] at h
    obtain rfl := Host.Outcome.next.inj h
    refine .withReg (by simp [regFields]) fun d hd => ?_
    obtain hlt | hle := Nat.lt_or_ge s.cfg.width len.toNat
    · rw [withLength_of_lt hlt]
      exact .refused _ (firstCheckFailed_of_index (by simp [regFields, hd]) (if_pos hlt))
    · rw [withLength_of_le hle]
      split
      case isTrue hzero => exact .direct (.genZero hd hzero)
      case isFalse hne => exact .draws (.gen hd (Nat.pos_of_ne_zero hne) hle)
  | sample rd =>
    rw [exec, execSample, unlessFatal_of_not_fatal hf] at h
    obtain rfl := Host.Outcome.next.inj h
    refine .withReg (by simp [regFields]) fun d hd => ?_
    unfold withModulus
    split
    case isTrue hmodv =>
      have hdraw : sampleHead d 0 { s with cstate := .sampling } = .more { job := .sample d, limb := 0, draws := 0 }
          { s with cstate := .sampling, cand := wideZero s.cfg.limbs } :=
        if_neg (Nat.ne_of_lt hmax)
      rw [hdraw]
      exact .draws (.sample hd hmodv)
    case isFalse hmodv =>
      have hreg : ¬ nwReg ≤ rd.toNat := by simp [← selectW_eq_none, hd]
      exact .refused _ (by simp [firstCheckFailed, regFields, indexError, hreg, hmodv])
  | rdcsr csr =>
    rw [exec, execRdcsr] at h
    obtain rfl := Host.Outcome.next.inj h
    cases hv : csrRead csr s with
    | some v =>
      rw [withCsr_of_some hv]
      exact .direct (.rdcsr hv)
    | none =>
      rw [withCsr_of_none hv]
      exact .refused _ (firstCheckFailed_of_index (by simp [regFields]) (if_pos ((csrRead_eq_none csr s).mp hv)))
  | wrcsr csr data =>
    cases hv : csrRead csr s with
    | some v =>
      rw [exec_wrcsr_of_some hf hv] at h
      obtain rfl := Host.Outcome.next.inj h
      have hpresent : ¬ 0x0005 < csr.toNat := by simp [← csrRead_eq_none csr s, hv]
      split
      case isTrue hcsr =>
        subst hcsr
        exact .direct .wrcsr
      case isFalse hne =>
        have hreadOnly : csr.toNat ≠ 0x0001 := fun heq => hne (BitVec.eq_of_toNat_eq heq)
        exact .refused _ (firstCheckFailed_of_index (by simp [regFields]) ((if_neg hpresent).trans (if_pos hreadOnly)))
    | none =>
      rw [exec_wrcsr_of_none hf hv] at h
      obtain rfl := Host.Outcome.next.inj h
      exact .refused _ (firstCheckFailed_of_index (by simp [regFields]) (if_pos ((csrRead_eq_none csr s).mp hv)))

end Sys2Proof.Machine
end

section
/-! PROOF. What commands and draws leave unchanged, and what a step can do in a state of the invariant. -/

namespace Sys2Proof.Machine

theorem State.Ready.inv {s : State} (h : s.Ready) : s.Inv := h.1

theorem State.Ready.not_fatal {s : State} (h : s.Ready) : s.fatal = false := h.2.2

/-! ## Commands that complete at once -/

theorem State.Sound.length_readW {s : State} (h : s.Sound) (a : WReg) : (s.readW a).length = s.cfg.limbs := by
  obtain ⟨h0, h1, h2, h3, _⟩ := h.widths
  cases a
  · exact h0
  · exact h1
  · exact h2
  · exact h3

/-- A wide subtract of two registers has LIMBS limbs. -/
theorem State.Sound.length_wideSbb {s : State} (h : s.Sound) (a b : WReg) (f : Limb) :
    (wideSbb (s.readW a) (s.readW b) f).1.length = s.cfg.limbs := by
  obtain ⟨hlen, _⟩ := wideSbb_spec f ((h.length_readW a).trans (h.length_readW b).symm)
  exact hlen.trans (h.length_readW a)

/-- The zero test of SETMOD (R161, R162). -/
theorem State.Sound.setmod_test {s : State} (h : s.Sound) (a : WReg) :
    wideEq (s.readW a) (wideZero s.cfg.limbs) = 0#1 ↔ wideVal (s.readW a) ≠ 0 := by
  rw [wideEq_eq ((h.length_readW a).trans (length_wideZero _).symm), wideVal_zero]
  unfold bitOf
  split <;> simp [*]

/-- A command that completes at once leads into the invariant. -/
theorem Direct.inv {s t : State} {i : Instr} (hs : s.Sound) (hf : s.fatal = false) (h : Direct s i t) : t.Inv := by
  obtain ⟨hcfg, ⟨h0, h1, h2, h3, hm, hc⟩, hmod, hatt⟩ := id hs
  have hborrow (b : Limb) : State.Sound { s with borrow := b } := ⟨hcfg, hs.widths, hmod, hatt⟩
  have hct (v : BitVec 1) : State.Sound { s with ct := v } := ⟨hcfg, hs.widths, hmod, hatt⟩
  cases h with
  | wrl => exact (hs.writeW _ (by rw [List.length_set, hs.length_readW])).complete_inv hf (by decide) _
  | rdl => exact hs.complete_inv hf (by decide) _
  | clr => exact (hs.writeW _ (length_wideZero _)).complete_inv hf (by decide) _
  | mov => exact (hs.writeW _ (hs.length_readW _)).complete_inv hf (by decide) _
  | sub => exact ((hborrow _).writeW _ (hs.length_wideSbb _ _ _)).complete_inv hf (by decide) _
  | sbb => exact ((hborrow _).writeW _ (hs.length_wideSbb _ _ _)).complete_inv hf (by decide) _
  | lt => exact (hct _).complete_inv hf (by decide) _
  | gt => exact (hct _).complete_inv hf (by decide) _
  | eq => exact (hct _).complete_inv hf (by decide) _
  | setmod _ hne =>
    have hsound : State.Sound { s with mod := s.readW _, modv := true } :=
      ⟨hcfg, ⟨h0, h1, h2, h3, hs.length_readW _, hc⟩, fun _ => (hs.setmod_test _).mp hne, hatt⟩
    exact hsound.complete_inv hf (by decide) _
  | setmodZero =>
    have hsound : State.Sound { s with modv := false } := ⟨hcfg, hs.widths, nofun, hatt⟩
    exact hsound.complete_inv hf (by decide) _
  | rdmod => exact hs.complete_inv hf (by decide) _
  | genZero => exact hs.complete_inv hf (by decide) _
  | rdcsr => exact hs.complete_inv hf (by decide) _
  | wrcsr => exact (hborrow _).complete_inv hf (by decide) _

/-- What no command that completes at once changes. -/
theorem Direct.frame {s t : State} {i : Instr} (h : Direct s i t) :
    t.cfg = s.cfg ∧ t.fatal = s.fatal ∧ t.attempts = s.attempts ∧ t.cand = s.cand ∧ t.source = s.source ∧
      t.host = s.host := by
  cases h <;> exact ⟨rfl, rfl, rfl, rfl, rfl, rfl⟩

/-- A command that completes at once leaves its code in LAST and a response on the port (R212). -/
theorem Direct.completes {s t : State} {i : Instr} (h : Direct s i t) (hf : s.fatal = false) :
    t.inflight = none ∧ t.srcBusy = false ∧ t.cstate = .idle ∧ ∃ r, t.response = some r ∧ t.last = r.status.code := by
  cases h <;> exact ⟨rfl, rfl, if_neg (Bool.eq_false_iff.mp hf), _, rfl, if_neg (Bool.eq_false_iff.mp hf)⟩

/-- Of the commands that complete at once SETMOD alone writes MOD and MODV (R24, R25). -/
theorem Direct.mod_eq {s t : State} {i : Instr} (h : Direct s i t) (hi : ∀ ra, i ≠ .setmod ra) :
    t.mod = s.mod ∧ t.modv = s.modv := by
  cases h with
  | setmod => exact absurd rfl (hi _)
  | setmodZero => exact absurd rfl (hi _)
  | _ => exact ⟨rfl, rfl⟩

/-- The commands that write BORROW are those `writesBorrow` lists (R26). -/
theorem Direct.borrow_eq {s t : State} {i : Instr} (h : Direct s i t) (hi : writesBorrow i = false) :
    t.borrow = s.borrow := by
  cases h with
  | sub => cases hi
  | sbb => cases hi
  | wrcsr => cases hi
  | _ => rfl

/-- The commands that write CT are the comparisons (R27). -/
theorem Direct.ct_eq {s t : State} {i : Instr} (h : Direct s i t) (hlt : ∀ ra rb, i ≠ .lt ra rb)
    (hgt : ∀ ra rb, i ≠ .gt ra rb) (heq : ∀ ra rb, i ≠ .eq ra rb) : t.ct = s.ct := by
  cases h with
  | lt => exact absurd rfl (hlt _ _)
  | gt => exact absurd rfl (hgt _ _)
  | eq => exact absurd rfl (heq _ _)
  | _ => rfl

/-- A wide register changes through the command's own rd alone (R23). -/
theorem Direct.readW_eq {s t : State} {i : Instr} (h : Direct s i t) {q : WReg}
    (hq : ∀ rd, directDest i = some rd → selectW rd ≠ some q) : t.readW q = s.readW q := by
  have hset {d : WReg} {x : Wide} {rd : BitVec 4} (hd : selectW rd = some d) (hi : directDest i = some rd) :
      (s.w.set d x).get q = s.w.get q :=
    wfile_get_set_of_ne _ _ fun e => hq rd hi (hd.trans (congrArg some e.symm))
  cases h with
  | wrl hd => exact hset hd rfl
  | clr hd => exact hset hd rfl
  | mov hd => exact hset hd rfl
  | sub hd => exact hset hd rfl
  | sbb hd => exact hset hd rfl
  | _ => rfl

/-! ## Draws -/

/-- What no draw changes. -/
theorem DrawEnd.frame {s t : State} {job : Job} (h : DrawEnd s job t) :
    t.cfg = s.cfg ∧ t.mod = s.mod ∧ t.modv = s.modv ∧ t.borrow = s.borrow ∧ t.ct = s.ct ∧ t.host = s.host := by
  cases h with
  | failed f =>
    unfold sourceFailed
    split <;> exact ⟨rfl, rfl, rfl, rfl, rfl, rfl⟩
  | _ => exact ⟨rfl, rfl, rfl, rfl, rfl, rfl⟩

/-- A draw leaves every register but its own alone (R172). -/
theorem DrawEnd.readW_of_ne {s t : State} {job : Job} (h : DrawEnd s job t) {q : WReg} (hq : q ≠ job.dest) :
    t.readW q = s.readW q := by
  cases h with
  | failed f =>
    unfold sourceFailed
    split <;> rfl
  | filled d len c src hjob =>
    subst hjob
    exact wfile_get_set_of_ne _ _ hq
  | accepted d k c src hjob =>
    subst hjob
    exact wfile_get_set_of_ne _ _ hq
  | _ => rfl

/-- A draw leaves every register alone unless it ends with OK (R144, R172). -/
theorem DrawEnd.w_of_not_ok {s t : State} {job : Job} (h : DrawEnd s job t)
    (hok : ∀ v, t.response ≠ some { status := .ok, data := v }) : t.w = s.w := by
  cases h with
  | failed f =>
    unfold sourceFailed
    split <;> rfl
  | filled => exact absurd rfl (hok _)
  | accepted => exact absurd rfl (hok _)
  | _ => rfl

/-- GEN leaves ATTEMPTS and FATAL alone (R144). -/
theorem DrawEnd.gen_frame {s t : State} {d : WReg} {len : Nat} (h : DrawEnd s (.gen d len) t) :
    t.attempts = s.attempts ∧ t.fatal = s.fatal := by
  cases h with
  | failed f c src hjob =>
    rw [sourceFailed, hjob]
    exact ⟨rfl, rfl⟩
  | accepted d' k c src hjob => cases hjob
  | exhausted d' c src hjob => cases hjob
  | _ => exact ⟨rfl, rfl⟩

/-- A failed transaction completes with SOURCE_FAIL (R144, R168). -/
theorem sourceFailed_completes (f : InFlight) (s : State) :
    ∃ s', sourceFailed f s = State.complete s' .sourceFail 0#64 ∧ s'.fatal = s.fatal := by
  unfold sourceFailed
  split
  · exact ⟨_, rfl, rfl⟩
  · exact ⟨_, rfl, rfl⟩

/-- A draw waits, with LAST and FATAL as they were, or it completes with its code in LAST (R212). -/
theorem DrawEnd.waits_or_completes {s t : State} {job : Job} (h : DrawEnd s job t) (hf : s.fatal = false) :
    (∃ f, f.job = job ∧ t = (s.drawn t.cand t.source).await f) ∨
      (t.inflight = none ∧ ∃ code, t.response = some { status := code, data := 0#64 } ∧ t.last = code.code ∧
        (code = .ok ∨ code = .sourceFail ∨ code = .retryExceeded) ∧ (t.fatal = true ↔ code = .retryExceeded)) := by
  cases h with
  | waits f c src hjob => exact .inl ⟨f, hjob, rfl⟩
  | failed f c src =>
    obtain ⟨s', e, heq⟩ := sourceFailed_completes f (s.drawn c src)
    have hf' : s'.fatal = false := heq.trans hf
    refine .inr ?_
    rw [e]
    exact ⟨rfl, .sourceFail, rfl, by simp [hf'], .inr (.inl rfl), by simp [hf']⟩
  | filled =>
    have hf' : ¬ s.fatal = true := Bool.eq_false_iff.mp hf
    exact .inr ⟨rfl, .ok, rfl, if_neg hf', .inl rfl, ⟨fun h => absurd h hf', nofun⟩⟩
  | accepted =>
    have hf' : ¬ s.fatal = true := Bool.eq_false_iff.mp hf
    exact .inr ⟨rfl, .ok, rfl, if_neg hf', .inl rfl, ⟨fun h => absurd h hf', nofun⟩⟩
  | exhausted => exact .inr ⟨rfl, .retryExceeded, rfl, rfl, .inr (.inr rfl), ⟨fun _ => rfl, fun _ => rfl⟩⟩

/-- A command that starts to draw in a ready state has what a draw relies on (R148, R166). -/
theorem Starts.running {s s0 : State} {i : Instr} {f : InFlight} (hs : s.Ready) (h : Starts s i f s0) :
    s0.Running f := by
  obtain ⟨hf, _, hcs, _⟩ := State.Ready.idle hs
  obtain ⟨hinv, _, _⟩ := hs
  have hlast : s.last.toNat ≤ 0x0A := by
    obtain ⟨_, _, _, _, ⟨hlast, _⟩, _⟩ := hinv
    exact hlast
  have hsound := hinv.sound.drawn (length_wideZero s.cfg.limbs) s.source
  obtain ⟨hlimbs, _, hmax, _⟩ := hinv.sound.cfg
  cases h with
  | @gen rd len d _ hpos hlen =>
    refine ⟨hsound, hlast, hf, ?_, by simp [wideZero], decide_eq_true ⟨hpos, hlen, rfl, hcs⟩⟩
    show 0 < activeLimbs len.toNat
    unfold activeLimbs
    omega
  | sample _ hmodv =>
    refine ⟨⟨hsound.cfg, hsound.widths, hsound.modulus, hsound.attempts⟩, hlast, hf, ?_, by simp [wideZero],
      decide_eq_true ⟨hmodv, hmax, rfl⟩⟩
    show 0 < activeLimbs s.cfg.width
    rw [activeLimbs_width]
    exact hlimbs

end Sys2Proof.Machine
end

section
/-! PROOF. What a step can do in a state of the invariant, and the invariant kept by every step. -/

namespace Sys2Proof.Machine

/-- The state a command begins in: the host's move is taken and the port shows no completion. -/
def State.taken (s : State) (rest : List HostMove) : State := { s with host := rest, response := none }

/-- The state the draws of a step are made in: no completion on the port, and CSTATE as R165 has it for the job. -/
def State.drawing (s : State) (hs : List HostMove) (job : Job) : State :=
  { s with
    host := hs
    response := none
    cstate := match job with
      | .gen _ _ => .idle
      | .sample _ => .sampling }

/-- Where the draws of a step come from: the command in progress, or the command the host issues. -/
def State.DrawsFor (s : State) (hs : List HostMove) (job : Job) : Prop :=
  (∃ f, s.inflight = some f ∧ f.job = job) ∨
    ∃ i f s0, s.Issues i ∧ Starts (s.taken hs) i f s0 ∧ f.job = job

/-- What a step does: the reset input, nothing but the host's quiet move, a command that only reports, a command that
completes at once, or the draws of a GEN or SAMPLE. -/
inductive StepEnd (s : State) : State → Prop where
  | reset (rest : List HostMove) (hh : s.host = .reset :: rest) : StepEnd s (assertReset { s with host := rest })
  | idle (rest : List HostMove) (hi : s.inflight = none) (hh : s.host = [] ∧ rest = [] ∨ s.host = .quiet :: rest) :
      StepEnd s { s with host := rest }
  | reports (c : Command) (rest : List HostMove) (code : Status) (v : Limb) (hi : s.inflight = none)
      (hh : s.host = .command c :: rest) (hcode : s.fatal = false → code ≠ .ok ∧ code ≠ .faulted)
      (hok : code = .ok → ∃ csr, decode c = .ok (.rdcsr csr)) : StepEnd s ((s.taken rest).complete code v)
  | direct {t : State} (rest : List HostMove) (i : Instr) (hissues : s.Issues i) (hf : s.fatal = false)
      (h : Direct (s.taken rest) i t) : StepEnd s t
  | draws {t : State} (job : Job) (hs : List HostMove) (hfor : s.DrawsFor hs job) (hf : s.fatal = false)
      (hreset : ¬ s.ResetNext) (hh : hs = s.host ∨ ∃ m, s.host = m :: hs) (h : DrawEnd (s.drawing hs job) job t)
      (hsrc : t.source <:+ s.source) : StepEnd s t

/-- The invariant makes a command in progress one that runs. -/
theorem State.Inv.running {s : State} (h : s.Inv) {f : InFlight} (hf : s.inflight = some f) :
    s.Running f ∧ s.response = none ∧ s.srcBusy = true := by
  obtain ⟨_, _, _, _, ⟨hlast, _⟩, _, hwait⟩ := id h
  obtain ⟨hbusy, hresp, hfatal, hlimb, hzero, hjob⟩ := hwait f hf
  exact ⟨⟨h.sound, hlast, hfatal, hlimb, hzero, hjob⟩, hresp, hbusy⟩

/-- A job in progress agrees with CSTATE (R165; log 9). -/
theorem State.Running.cstate {f : InFlight} {s : State} (h : s.Running f) :
    s.cstate = match f.job with
      | .gen _ _ => .idle
      | .sample _ => .sampling := by
  have hjob := h.job
  cases hj : f.job with
  | gen d len =>
    rw [hj] at hjob
    obtain ⟨_, _, _, hcs⟩ := of_decide_eq_true hjob
    exact hcs
  | sample d =>
    rw [hj] at hjob
    obtain ⟨_, _, hcs⟩ := of_decide_eq_true hjob
    exact hcs

/-- Where no command is in progress and a command is taken, the state stays ready. -/
theorem State.Inv.taken_ready {s : State} (h : s.Inv) (hi : s.inflight = none) (hf : s.fatal = false)
    (rest : List HostMove) : (s.taken rest).Ready :=
  ⟨h.take_command hi rest, hi, hf⟩

/-- The errors an index, length or CSR operand meets (R80). -/
theorem indexError_cases {c : Config} {i : Instr} {e : Status} (h : indexError c i = some e) :
    e = .badIndex ∨ e = .badLength ∨ e = .readOnly := by
  cases i <;> grind [indexError]

/-- The error of the first failing check comes from a register field, from the other operand, or from MODV (R80). -/
theorem firstCheckFailed_cases {s : State} {i : Instr} {e : Status} (h : firstCheckFailed s i = some e) :
    e = .badRegister ∨ e = .badIndex ∨ e = .badLength ∨ e = .readOnly ∨ e = .noModulus := by
  unfold firstCheckFailed at h
  split at h
  · exact .inl (Option.some.inj h).symm
  · split at h
    case h_1 hindex =>
      cases h
      obtain he | he | he := indexError_cases hindex <;> simp [he]
    case h_2 =>
      split at h
      · split at h
        · cases h
        · cases h
          simp
      · cases h

/-- The state a draw goes on in is the waiting one, but for the host's quiet move. -/
theorem State.Inv.drawing_eq {s : State} (h : s.Inv) {f : InFlight} (hf : s.inflight = some f) (hs : List HostMove) :
    s.drawing hs f.job = { s with host := hs } := by
  obtain ⟨hrunning, hresp, _⟩ := h.running hf
  unfold State.drawing
  rw [← hrunning.cstate, ← hresp]

/-- A step while a command is in progress. -/
theorem waitingStep_end {s : State} (h : s.Inv) {f : InFlight} (hf : s.inflight = some f) :
    StepEnd s (waitingStep f s) := by
  obtain ⟨hrunning, _⟩ := h.running hf
  obtain ⟨rest, hh, e⟩ | ⟨hreset, hs, hh, e⟩ := waitingStep_cases f s <;> rw [e]
  · exact .reset rest hh
  · have hrun : State.Running f { s with host := hs } :=
      ⟨⟨hrunning.sound.cfg, hrunning.sound.widths, hrunning.sound.modulus, hrunning.sound.attempts⟩,
        hrunning.last, hrunning.fatal, hrunning.limb, hrunning.unanswered, hrunning.job⟩
    refine .draws f.job hs (.inl ⟨f, hf, rfl⟩) hrunning.fatal hreset (hh.imp_right fun hq => ⟨_, hq⟩) ?_
      (drive_source_suffix _ _ _)
    rw [h.drawing_eq hf]
    exact drive_end hrun s.source

/-- The draws of a command that starts with the host's move. -/
theorem Starts.step_end {s : State} (h : s.Inv) (hf : s.fatal = false) {i : Instr} (hissues : s.Issues i)
    {c : Command} {rest : List HostMove} (hh : s.host = .command c :: rest) {f : InFlight} {s0 : State}
    (hstart : Starts (s.taken rest) i f s0) : StepEnd s (drive s.source f s0) := by
  obtain ⟨hi, _⟩ := id hissues
  have hready := h.taken_ready hi hf rest
  have hend := drive_end (hstart.running hready) s.source
  have hreset : ¬ s.ResetNext := by
    rintro ⟨_, hr⟩
    cases hh.symm.trans hr
  refine .draws f.job rest (.inr ⟨i, f, s0, hissues, hstart, rfl⟩) hf hreset (.inr ⟨_, hh⟩) ?_
    (drive_source_suffix _ _ _)
  cases hstart with
  | @gen rd len d hsel =>
    obtain ⟨_, _, hcs, _⟩ := hready.idle
    have hdrawing : s.drawing rest (.gen d len.toNat) = s.taken rest := by
      unfold State.drawing State.taken
      rw [← show s.cstate = .idle from hcs]
    rw [hdrawing]
    exact DrawEnd.of_drawn (c := wideZero s.cfg.limbs) (src := s.source) hend
  | @sample rd d hsel => exact DrawEnd.of_drawn (c := wideZero s.cfg.limbs) (src := s.source) hend

/-- In the fatal state a command completes, and with OK only when it is an RDCSR (R216). -/
theorem runCommand_end_of_fatal {s t : State} (hf : s.fatal = true) {c : Command} (hrun : runCommand c s = .next t) :
    ∃ code v, t = s.complete code v ∧ (code = .ok → ∃ csr, decode c = .ok (.rdcsr csr)) := by
  obtain ⟨-, rfl⟩ | ⟨hpass, ⟨e, -, rfl⟩ | ⟨i, hd, hexec⟩⟩ := runCommand_cases hrun
  · exact ⟨.faulted, 0#64, rfl, nofun⟩
  · exact ⟨decodeStatus e, 0#64, rfl, fun he => by cases e <;> cases he⟩
  · obtain ⟨csr, rfl⟩ := (fieldOp_eq_rdcsr_iff hd).mp ((refusedWhileFatal_eq_false_iff hf c.word).mp hpass)
    obtain ⟨code, v, hdone⟩ := exec_rdcsr_completes csr s
    exact ⟨code, v, Host.Outcome.next.inj (hexec.symm.trans hdone), fun _ => ⟨csr, hd⟩⟩

/-- A step that takes a command from the host. -/
theorem runCommand_end {s t : State} (h : s.Inv) (hi : s.inflight = none) {c : Command} {rest : List HostMove}
    (hh : s.host = .command c :: rest) (hrun : runCommand c (s.taken rest) = .next t) : StepEnd s t := by
  cases hf : s.fatal with
  | true =>
    obtain ⟨code, v, rfl, hok⟩ := runCommand_end_of_fatal (s := s.taken rest) hf hrun
    exact .reports c rest code v hi hh (by simp [hf]) hok
  | false =>
    have refused {code : Status} (hcode : code ≠ .ok ∧ code ≠ .faulted) :
        StepEnd s ((s.taken rest).complete code 0#64) :=
      .reports c rest code 0#64 hi hh (fun _ => hcode) fun hok => absurd hok hcode.1
    obtain ⟨hrefused, -⟩ | ⟨-, ⟨e, -, rfl⟩ | ⟨i, hd, hexec⟩⟩ := runCommand_cases hrun
    · have hfatal : (s.taken rest).fatal = true := ((Bool.and_eq_true _ _).mp hrefused).1
      exact absurd (hf.symm.trans hfatal) Bool.false_ne_true
    · exact refused (by cases e <;> decide)
    · obtain ⟨_, _, hmax, _⟩ := h.sound.cfg
      have hissues : s.Issues i := ⟨hi, c, rest, hh, hd⟩
      cases exec_end (s := s.taken rest) hf hmax hexec with
      | refused e he =>
        refine refused ?_
        obtain rfl | rfl | rfl | rfl | rfl := firstCheckFailed_cases he <;> decide
      | direct hdirect => exact .direct rest i hissues hf hdirect
      | draws hstart => exact hstart.step_end h hf hissues hh

/-- A step of the machine, in a state of the invariant. -/
theorem step_end {s t : State} (h : s.Inv) (hstep : step s = .next t) : StepEnd s t := by
  obtain ⟨f, hf, ht⟩ | ⟨hi, ⟨hh, ht⟩ | ⟨rest, hh, ht⟩ | ⟨rest, hh, ht⟩ |
    ⟨c, rest, hh, hrun⟩⟩ := step_cases hstep
  · rw [ht]
    exact waitingStep_end h hf
  · have hself : t = { s with host := [] } := by rw [ht, ← hh]
    rw [hself]
    exact .idle [] hi (.inl ⟨hh, rfl⟩)
  · rw [ht]
    exact .idle rest hi (.inr hh)
  · rw [ht]
    exact .reset rest hh
  · exact runCommand_end h hi hh hrun

/-! ## The invariant -/

/-- The reset state of a configuration with parameters in range is in the invariant (R39). -/
theorem assertReset_inv {s : State} (h : s.cfg.Valid) : (assertReset s).Inv := by
  have hlen : (wideZero s.cfg.limbs).length = s.cfg.limbs := length_wideZero _
  refine ⟨h, ⟨hlen, hlen, hlen, hlen, hlen, hlen⟩, nofun, Nat.zero_le _, ⟨Nat.zero_le _, nofun, nofun⟩, ?_, nofun⟩
  exact fun _ => ⟨rfl, rfl⟩

/-- Between commands, a completion that changes nothing else keeps the invariant; FAULTED is the fatal state's alone. -/
theorem State.Inv.complete_inv {s : State} (h : s.Inv) (hi : s.inflight = none) {c : Status}
    (hc : s.fatal = false → c ≠ .faulted) (v : Limb) : (s.complete c v).Inv := by
  cases hf : s.fatal with
  | false => exact h.sound.complete_inv hf (hc hf) v
  | true =>
    rw [h.complete_eq hi, if_pos hf]
    obtain ⟨hcfg, hw, hmod, hatt, ⟨hlast, hfatal, _⟩, hidle, hwait⟩ := h
    exact ⟨hcfg, hw, hmod, hatt, ⟨hlast, hfatal, fun _ _ hf' => absurd (hf'.symm.trans hf) Bool.false_ne_true⟩, hidle,
      fun f hmem => absurd (hi.symm.trans hmem) nofun⟩

/-- Settles O15: each way a step can end leads into the invariant. -/
theorem everyStepKeepsTheInvariant : Obligations.EveryStepKeepsTheInvariant := by
  intro s t h hstep
  cases step_end h hstep with
  | reset rest hh => exact assertReset_inv h.sound.cfg
  | idle rest hi hh => exact h
  | reports c rest code v hi hh hcode =>
    exact (h.take_command hi rest).complete_inv hi (fun hf => (hcode hf).2) v
  | direct rest i hissues hf hdirect => exact hdirect.inv (h.take_command hissues.1 rest).sound hf
  | draws job hs hfor hf hreset hh hend =>
    have hsound : (s.drawing hs job).Sound := ⟨h.sound.cfg, h.sound.widths, h.sound.modulus, h.sound.attempts⟩
    exact hend.inv hsound hf

/-- Settles O14: the reset state of the reference configuration, and that of any configuration with parameters in range. -/
theorem resetEstablishesTheInvariant : Obligations.ResetEstablishesTheInvariant := by
  refine ⟨?_, fun _ => assertReset_inv⟩
  rw [← assertReset_eq_reset State.reset rfl rfl rfl]
  exact assertReset_inv (by decide)

end Sys2Proof.Machine
end

section
/-! PROOF. The rules of the whole machine: which command or input may change which element of the state (spec/10_state.md
R20 to R30, 42_random_bits.md R141, 43_sampling.md R169, R172, 60_exceptions.md R212, R226). -/

namespace Sys2Proof.Machine

/-! ## The command a step is about -/

theorem State.Issues.unique {s : State} {i j : Instr} (hi : s.Issues i) (hj : s.Issues j) : i = j := by
  obtain ⟨_, c, rest, hh, hd⟩ := hi
  obtain ⟨_, c', rest', hh', hd'⟩ := hj
  obtain ⟨hc, _⟩ := List.cons.inj (hh.symm.trans hh')
  cases hc
  exact Except.ok.inj (hd.symm.trans hd')

/-- A step that issues a command begins with none in progress. -/
theorem State.Issues.inflight_ne {s : State} {i : Instr} (h : s.Issues i) (f : InFlight) : s.inflight ≠ some f := by
  rw [h.1]
  nofun

/-- A GEN the next step runs is the one the host issues, where it issues a command. -/
theorem State.Issues.eq_gen {s : State} {i : Instr} (h : s.Issues i) {d : WReg} (hruns : s.RunsGen d) :
    ∃ rd len, i = .gen rd len ∧ selectW rd = some d := by
  obtain ⟨rd, len, hissues, hd⟩ | ⟨f, len, hf, _⟩ := hruns
  · exact ⟨rd, len, h.unique hissues, hd⟩
  · exact absurd hf (h.inflight_ne f)

/-- A SAMPLE the next step runs is the one the host issues, where it issues a command. -/
theorem State.Issues.eq_sample {s : State} {i : Instr} (h : s.Issues i) {d : WReg} (hruns : s.RunsSample d) :
    ∃ rd, i = .sample rd ∧ selectW rd = some d := by
  obtain ⟨rd, hissues, hd⟩ | ⟨f, hf, _⟩ := hruns
  · exact ⟨rd, h.unique hissues, hd⟩
  · exact absurd hf (h.inflight_ne f)

/-- The draws of a step that runs a GEN are that GEN's. -/
theorem State.DrawsFor.eq_gen {s : State} {hs : List HostMove} {job : Job} (h : s.DrawsFor hs job) {d : WReg}
    (hruns : s.RunsGen d) : ∃ len, job = .gen d len := by
  obtain ⟨f, hf, rfl⟩ | ⟨i, f, s0, hissues, hstart, rfl⟩ := h
  · obtain ⟨_, _, hissues, _⟩ | ⟨g, len, hg, hjob⟩ := hruns
    · exact absurd hf (hissues.inflight_ne f)
    · exact ⟨len, Option.some.inj (hf.symm.trans hg) ▸ hjob⟩
  · obtain ⟨rd, len, rfl, hd⟩ := hissues.eq_gen hruns
    cases hstart with
    | gen hd' => exact ⟨_, congrArg (Job.gen · _) (Option.some.inj (hd'.symm.trans hd))⟩

/-- The draws of a step that runs a SAMPLE are that SAMPLE's. -/
theorem State.DrawsFor.eq_sample {s : State} {hs : List HostMove} {job : Job} (h : s.DrawsFor hs job) {d : WReg}
    (hruns : s.RunsSample d) : job = .sample d := by
  obtain ⟨f, hf, rfl⟩ | ⟨i, f, s0, hissues, hstart, rfl⟩ := h
  · obtain ⟨_, hissues, _⟩ | ⟨g, hg, hjob⟩ := hruns
    · exact absurd hf (hissues.inflight_ne f)
    · exact Option.some.inj (hf.symm.trans hg) ▸ hjob
  · obtain ⟨rd, rfl, hd⟩ := hissues.eq_sample hruns
    cases hstart with
    | sample hd' => exact congrArg Job.sample (Option.some.inj (hd'.symm.trans hd))

/-- A step that draws for a GEN runs it. -/
theorem State.DrawsFor.runsGen {s : State} {hs : List HostMove} {d : WReg} {len : Nat} (h : s.DrawsFor hs (.gen d len)) :
    s.RunsGen d := by
  obtain ⟨f, hf, hjob⟩ | ⟨i, f, s0, hissues, hstart, hjob⟩ := h
  · exact .inr ⟨f, len, hf, hjob⟩
  · cases hstart with
    | gen hd =>
      cases hjob
      exact .inl ⟨_, _, hissues, hd⟩
    | sample => cases hjob

/-- A step that draws for a SAMPLE runs it. -/
theorem State.DrawsFor.runsSample {s : State} {hs : List HostMove} {d : WReg} (h : s.DrawsFor hs (.sample d)) :
    s.RunsSample d := by
  obtain ⟨f, hf, hjob⟩ | ⟨i, f, s0, hissues, hstart, hjob⟩ := h
  · exact .inr ⟨f, hf, hjob⟩
  · cases hstart with
    | gen => cases hjob
    | sample hd =>
      cases hjob
      exact .inl ⟨_, hissues, hd⟩

/-- A SAMPLE that draws has an admitted modulus (R166). -/
theorem State.DrawsFor.modv {s : State} {rest : List HostMove} {d : WReg} (h : s.DrawsFor rest (.sample d))
    (hs : s.Inv) : s.modv = true := by
  obtain ⟨f, hf, hjob⟩ | ⟨i, f, s0, hissues, hstart, hjob⟩ := h
  · obtain ⟨hrun, _⟩ := hs.running hf
    exact (hrun.of_sample hjob).1
  · cases hstart with
    | gen => cases hjob
    | sample _ hmodv => exact hmodv

/-! ## Which command writes what -/

/-- Settles O53: of the ways a step can end only a reset and a SETMOD touch MOD or MODV. -/
theorem onlySetmodWritesTheModulus : Obligations.OnlySetmodWritesTheModulus := by
  intro s t h hstep hne
  have same (h1 : t.mod = s.mod) (h2 : t.modv = s.modv) :
      s.ResetNext ∨ ∃ ra, s.Issues (.setmod ra) :=
    hne.elim (absurd h1) (absurd h2)
  cases step_end h hstep with
  | reset rest hh => exact .inl ⟨rest, hh⟩
  | idle => exact same rfl rfl
  | reports => exact same rfl rfl
  | direct rest i hissues hf hdirect =>
    by_cases hi : ∃ ra, i = .setmod ra
    · obtain ⟨ra, rfl⟩ := hi
      exact .inr ⟨ra, hissues⟩
    · obtain ⟨hmod, hmodv⟩ := hdirect.mod_eq fun ra he => hi ⟨ra, he⟩
      exact same hmod hmodv
  | draws job hs hfor hf hreset hh hend =>
    obtain ⟨_, hmod, hmodv, _⟩ := hend.frame
    exact same hmod hmodv

/-- BORROW changes by a reset or a command that writes it. -/
theorem borrow_changes {s t : State} (h : s.Inv) (hstep : step s = .next t) (hne : t.borrow ≠ s.borrow) :
    s.ResetNext ∨ ∃ i, s.Issues i ∧ writesBorrow i = true := by
  cases step_end h hstep with
  | reset rest hh => exact .inl ⟨rest, hh⟩
  | idle => exact absurd rfl hne
  | reports => exact absurd rfl hne
  | direct rest i hissues hf hdirect =>
    exact .inr ⟨i, hissues, eq_true_of_ne_false fun hi => hne (hdirect.borrow_eq hi)⟩
  | draws job hs hfor hf hreset hh hend =>
    obtain ⟨_, _, _, hborrow, _⟩ := hend.frame
    exact absurd hborrow hne

/-- Settles O54: the commands `writesBorrow` lists are SUB, SBB and WRCSR. -/
theorem onlySubSbbAndWrcsrWriteBorrow : Obligations.OnlySubSbbAndWrcsrWriteBorrow := by
  intro s t h hstep hne
  refine (borrow_changes h hstep hne).imp_right ?_
  rintro ⟨i, hissues, hi⟩
  cases i with
  | sub rd ra rb => exact .inl ⟨rd, ra, rb, hissues⟩
  | sbb rd ra rb => exact .inr (.inl ⟨rd, ra, rb, hissues⟩)
  | wrcsr csr data => exact .inr (.inr ⟨csr, data, hissues⟩)
  | _ => cases hi

/-- Settles O55: a command that completes at once and is no comparison keeps CT. -/
theorem onlyComparisonsWriteCt : Obligations.OnlyComparisonsWriteCt := by
  intro s t h hstep hne
  cases step_end h hstep with
  | reset rest hh => exact .inl ⟨rest, hh⟩
  | idle => exact absurd rfl hne
  | reports => exact absurd rfl hne
  | direct rest i hissues hf hdirect =>
    cases i with
    | lt ra rb => exact .inr (.inl ⟨ra, rb, hissues⟩)
    | gt ra rb => exact .inr (.inr (.inl ⟨ra, rb, hissues⟩))
    | eq ra rb => exact .inr (.inr (.inr ⟨ra, rb, hissues⟩))
    | _ => exact absurd (hdirect.ct_eq nofun nofun nofun) hne
  | draws job hs hfor hf hreset hh hend =>
    obtain ⟨_, _, _, _, hct, _⟩ := hend.frame
    exact absurd hct hne

/-- Settles O57: neither a GEN nor a command that completes at once touches ATTEMPTS. -/
theorem onlySampleWritesAttempts : Obligations.OnlySampleWritesAttempts := by
  intro s t h hstep hne
  cases step_end h hstep with
  | reset rest hh => exact .inl ⟨rest, hh⟩
  | idle => exact absurd rfl hne
  | reports => exact absurd rfl hne
  | direct rest i hissues hf hdirect =>
    obtain ⟨_, _, hatt, _⟩ := hdirect.frame
    exact absurd hatt hne
  | draws job hs hfor hf hreset hh hend =>
    cases job with
    | gen d len => exact absurd hend.gen_frame.1 hne
    | sample d => exact .inr ⟨d, hfor.runsSample⟩

/-- Settles O58: no way a step can end touches the parameters, and a register changes through its own number. -/
theorem wideRegistersChangeOnlyThroughTheirOwnNumber : Obligations.WideRegistersChangeOnlyThroughTheirOwnNumber := by
  intro s t h hstep
  cases step_end h hstep with
  | reset rest hh => exact ⟨rfl, fun _ _ => .inl ⟨rest, hh⟩⟩
  | idle => exact ⟨rfl, fun _ hne => absurd rfl hne⟩
  | reports => exact ⟨rfl, fun _ hne => absurd rfl hne⟩
  | direct rest i hissues hf hdirect =>
    obtain ⟨hcfg, _⟩ := hdirect.frame
    refine ⟨hcfg, fun d hne => .inr (.inr (.inr ?_))⟩
    by_contra hnone
    exact hne (hdirect.readW_eq fun rd hrd hd => hnone ⟨i, rd, hissues, hrd, hd⟩)
  | draws job hs hfor hf hreset hh hend =>
    obtain ⟨hcfg, _⟩ := hend.frame
    refine ⟨hcfg, fun d hne => ?_⟩
    have hd : d = job.dest := by_contra fun hd => hne (hend.readW_of_ne hd)
    cases job with
    | gen d' len => exact .inr (.inl (hd ▸ hfor.runsGen))
    | sample d' => exact .inr (.inr (.inl (hd ▸ hfor.runsSample)))

/-- Settles O56: FATAL is set where a SAMPLE's draws are used up, and no step but a reset clears it. -/
theorem onlySampleSetsAndOnlyResetClearsFatal : Obligations.OnlySampleSetsAndOnlyResetClearsFatal := by
  intro s t h hstep
  refine ⟨fun hf ht => ?set, fun hf ht => ?clear⟩
  case clear =>
    by_contra hreset
    obtain ⟨ht', _⟩ := h.step_keeps_fatal hf hstep hreset
    exact absurd (ht.symm.trans ht') Bool.false_ne_true
  case set =>
    have kept (he : t.fatal = s.fatal) : False := Bool.false_ne_true (hf.symm.trans (he.symm.trans ht))
    cases step_end h hstep with
    | reset rest hh => cases ht
    | idle => exact (kept rfl).elim
    | reports => exact (kept rfl).elim
    | direct rest i hissues hf hdirect =>
      obtain ⟨_, hfatal, _⟩ := hdirect.frame
      exact (kept hfatal).elim
    | draws job hs hfor hf hreset hh hend =>
      obtain ⟨f, _, e⟩ | ⟨_, code, hresp, _, _, hfatal⟩ := hend.waits_or_completes hf
      · have hfatal := congrArg State.fatal e
        exact (kept hfatal).elim
      · rw [hfatal.mp ht] at hresp
        cases job with
        | gen d len => exact (kept hend.gen_frame.2).elim
        | sample d => exact ⟨⟨d, hfor.runsSample⟩, hresp⟩

/-- A step that draws has a command in progress or takes one from the host. -/
theorem State.DrawsFor.busy {s : State} {hs : List HostMove} {job : Job} (h : s.DrawsFor hs job) :
    s.inflight ≠ none ∨ ∃ c rest, s.host = .command c :: rest := by
  obtain ⟨f, hf, _⟩ | ⟨i, f, s0, ⟨_, c, rest, hh, _⟩, _⟩ := h
  · exact .inl (by simp [hf])
  · exact .inr ⟨c, rest, hh⟩

/-- Settles O60: a completion begun with FATAL = 0 writes its code to LAST, and nothing else but a reset writes LAST. -/
theorem lastChangesOnlyWhenACommandCompletes : Obligations.LastChangesOnlyWhenACommandCompletes := by
  intro s t h hstep
  cases step_end h hstep with
  | reset rest hh => exact ⟨fun _ => .inl ⟨rest, hh⟩, fun _ _ _ => nofun⟩
  | idle rest hi hh =>
    refine ⟨fun hne => absurd rfl hne, fun _ hbusy => ?_⟩
    obtain hne | ⟨c, rest', hc⟩ := hbusy
    · exact absurd hi hne
    · obtain ⟨he, _⟩ | he := hh <;> cases he.symm.trans hc
  | reports c rest code v hi hh =>
    cases hf : s.fatal with
    | true => exact ⟨fun hne => absurd (if_pos hf) hne, nofun⟩
    | false =>
      have hlast : ((s.taken rest).complete code v).last = code.code := if_neg (Bool.eq_false_iff.mp hf)
      refine ⟨fun _ => .inr ⟨rfl, rfl, .inr ⟨c, rest, hh⟩, _, rfl, hlast⟩, fun _ _ r hr => ?_⟩
      cases hr
      exact hlast
  | direct rest i hissues hf hdirect =>
    obtain ⟨_, c, rest', hh, _⟩ := hissues
    obtain ⟨hinflight, _, _, r, hr, hlast⟩ := hdirect.completes hf
    refine ⟨fun _ => .inr ⟨hf, hinflight, .inr ⟨c, rest', hh⟩, r, hr, hlast⟩, fun _ _ r' hr' => ?_⟩
    obtain rfl : r = r' := Option.some.inj (hr.symm.trans hr')
    exact hlast
  | draws job hs hfor hf hreset hh hend =>
    obtain ⟨f, _, e⟩ | ⟨hinflight, code, hresp, hlast, _⟩ := hend.waits_or_completes hf
    · refine ⟨fun hne => absurd (congrArg State.last e) hne, fun _ _ r hr => ?_⟩
      cases (congrArg State.response e).symm.trans hr
    · refine ⟨fun _ => .inr ⟨hf, hinflight, hfor.busy, _, hresp, hlast⟩, fun _ _ r hr => ?_⟩
      cases hresp.symm.trans hr
      exact hlast

/-- Settles O41: neither an idle step nor a command that completes at once touches the script. -/
theorem onlyGenAndSampleDrawFromTheSource : Obligations.OnlyGenAndSampleDrawFromTheSource := by
  intro s t h hstep hne
  cases step_end h hstep with
  | reset rest hh =>
    refine .inr ⟨⟨rest, hh⟩, ?_⟩
    by_contra hbusy
    exact hne (if_neg hbusy)
  | idle => exact absurd rfl hne
  | reports => exact absurd rfl hne
  | direct rest i hissues hf hdirect =>
    obtain ⟨_, _, _, _, hsource, _⟩ := hdirect.frame
    exact absurd hsource hne
  | draws job hs hfor hf hreset hh hend =>
    cases job with
    | gen d len => exact .inl ⟨d, .inl hfor.runsGen⟩
    | sample d => exact .inl ⟨d, .inr hfor.runsSample⟩

/-! ## The steps of a SAMPLE -/

/-- Settles O49: a SAMPLE does nothing but draw, and a draw writes its register alone, and that with OK. -/
theorem sampleWritesItsRegisterOnlyOnAcceptance : Obligations.SampleWritesItsRegisterOnlyOnAcceptance := by
  intro s t d h hruns hreset hstep
  cases step_end h hstep with
  | reset rest hh => exact absurd ⟨rest, hh⟩ hreset
  | idle => exact ⟨rfl, rfl, rfl, fun _ _ => rfl, fun _ => rfl⟩
  | reports => exact ⟨rfl, rfl, rfl, fun _ _ => rfl, fun _ => rfl⟩
  | direct rest i hissues hf hdirect =>
    obtain ⟨rd, rfl, _⟩ := hissues.eq_sample hruns
    cases hdirect
  | draws job hs hfor hf _ hh hend =>
    obtain rfl := hfor.eq_sample hruns
    obtain ⟨_, hmod, _, hborrow, hct, _⟩ := hend.frame
    exact ⟨hborrow, hct, hmod, fun q hq => hend.readW_of_ne hq, fun hok => congrArg (·.get d) (hend.w_of_not_ok hok)⟩

/-- Where a SAMPLE's draws end with OK, its register holds a value below MOD (R166). -/
theorem DrawEnd.sample_below {s t : State} {d : WReg} (hs : s.Sound) (h : DrawEnd s (.sample d) t) {v : Limb}
    (hok : t.response = some { status := .ok, data := v }) : wideVal (t.readW d) < wideVal t.mod := by
  cases h with
  | waits => cases hok
  | failed f c src hjob =>
    rw [sourceFailed, hjob] at hok
    cases hok
  | filled d' len c src hjob => cases hjob
  | accepted d' k c src hjob hlen hk hlt =>
    cases hjob
    obtain ⟨_, _, _, _, hmod, _⟩ := hs.widths
    rw [wideLt_eq (hlen.trans hmod.symm), bitOf_eq_one_iff] at hlt
    show wideVal ((s.w.set d c).get d) < wideVal s.mod
    rwa [wfile_get_set_same]
  | exhausted => cases hok

/-- Settles O46: only draws of the SAMPLE itself end it with OK, and they accept a candidate below MOD. -/
theorem sampleResultIsBelowTheModulus : Obligations.SampleResultIsBelowTheModulus := by
  intro s t d v h hruns hstep hok
  cases step_end h hstep with
  | reset => cases hok
  | idle rest hi hh =>
    obtain ⟨rd, ⟨_, c, rest', hc, _⟩, _⟩ | ⟨f, hf, _⟩ := hruns
    · obtain ⟨he, _⟩ | he := hh <;> cases he.symm.trans hc
    · cases hi.symm.trans hf
  | reports c rest code v' hi hh _ hrdcsr =>
    obtain rfl : code = .ok := congrArg Completion.status (Option.some.inj hok)
    obtain ⟨csr, hd⟩ := hrdcsr rfl
    have hissues : s.Issues (.rdcsr csr) := ⟨hi, c, rest, hh, hd⟩
    obtain ⟨rd, hi', _⟩ := hissues.eq_sample hruns
    cases hi'
  | direct rest i hissues hf hdirect =>
    obtain ⟨rd, rfl, _⟩ := hissues.eq_sample hruns
    cases hdirect
  | draws job hs hfor hf _ hh hend =>
    obtain rfl := hfor.eq_sample hruns
    obtain ⟨_, hmod, hmodv, _⟩ := hend.frame
    have hsound : (s.drawing hs (.sample d)).Sound :=
      ⟨h.sound.cfg, h.sound.widths, h.sound.modulus, h.sound.attempts⟩
    exact ⟨hend.sample_below hsound hok, hmod, hmodv.trans (show s.modv = true from hfor.modv h)⟩

/-! ## Steps that wait -/

/-- Settles O38: with no event left the command waits as before, with what it had written already. -/
theorem unansweredRequestHangs : Obligations.UnansweredRequestHangs := by
  intro s f h hf hsrc
  obtain ⟨_, hresp, hbusy⟩ := h.running hf
  have hstep : step s = .next (waitingStep f s) := by simp only [step, portStep, hf]
  have hwait (hs : List HostMove) : drive s.source f { s with host := hs } = { s with host := hs } := by
    rw [hsrc, drive_nil]
    cases s
    cases hf
    cases hresp
    cases hbusy
    cases hsrc
    rfl
  rw [hstep]
  refine ⟨fun hh => ?_, fun c rest hh => ?_, fun rest hh => ?_⟩
  · simp only [waitingStep, hh]
    exact congrArg _ (hwait s.host)
  · simp only [waitingStep, hh]
    exact congrArg _ (hwait s.host)
  · simp only [waitingStep, hh]
    exact congrArg _ (hwait rest)

/-- A step that ends with a command waiting changes CAND, the scripts and the record of the wait alone (R226). -/
theorem waiting_step_frame {s t : State} {f : InFlight} (h : s.Inv) (hstep : step s = .next t)
    (ht : t.inflight = some f) :
    (∀ g, s.inflight = some g → f.job = g.job) ∧
    (∃ used, s.source = used ++ t.source) ∧ (t.host = s.host ∨ ∃ m, s.host = m :: t.host) ∧
    t = { s with
      source := t.source
      host := t.host
      cand := t.cand
      inflight := some f
      srcBusy := true
      response := none
      cstate := match f.job with
        | .gen _ _ => .idle
        | .sample _ => .sampling } := by
  cases step_end h hstep with
  | reset => cases ht
  | idle rest hi => cases hi.symm.trans ht
  | reports => cases ht
  | direct rest i hissues hf hdirect =>
    obtain ⟨hnone, _⟩ := hdirect.completes hf
    cases hnone.symm.trans ht
  | draws job hs hfor hf _ hh hend hsrc =>
    obtain ⟨f', hjob, e⟩ | ⟨hnone, _⟩ := hend.waits_or_completes hf
    · obtain rfl : f' = f := Option.some.inj ((congrArg State.inflight e).symm.trans ht)
      subst hjob
      have hhost : t.host = hs := congrArg State.host e
      rw [hhost]
      refine ⟨fun g hg => ?_, hsrc.imp fun _ => Eq.symm, hh, e⟩
      obtain ⟨g', hg', hjob⟩ | ⟨_, _, _, hissues, _⟩ := hfor
      · rw [← hjob, Option.some.inj (hg'.symm.trans hg)]
      · exact absurd hg (hissues.inflight_ne g)
    · cases hnone.symm.trans ht

end Sys2Proof.Machine
end

section
/-! PROOF. The command port and the reset input, one step at a time (20_memory.md R59, spec/10_state.md R39,
70_reset_and_hazards.md R240 to R242). -/

namespace Sys2Proof.Machine

/-- In the fatal state every instruction but RDCSR is answered with FAULTED (R216). -/
theorem exec_of_fatal {s : State} (hf : s.fatal = true) {i : Instr} (hi : ∀ csr, i ≠ .rdcsr csr) :
    exec i s = .next (s.complete .faulted 0#64) := by
  cases i with
  | rdcsr csr => exact absurd rfl (hi csr)
  | _ => exact congrArg Host.Outcome.next (unlessFatal_of_fatal hf _)

/-- A word that decodes runs as its instruction, in the fatal state too (R80). -/
theorem runCommand_of_decode_ok {c : Command} {i : Instr} (hd : decode c = .ok i) (s : State) :
    runCommand c s = exec i s := by
  cases hf : s.fatal with
  | false => simp [runCommand, refusedWhileFatal, hf, hd]
  | true =>
    by_cases hi : ∃ csr, i = .rdcsr csr
    · obtain ⟨csr, rfl⟩ := hi
      exact runCommand_of_fatal_of_rdcsr hf hd
    · rw [runCommand_of_fatal_of_ne_rdcsr hf (mt (fieldOp_eq_rdcsr_iff hd).mp hi), exec_of_fatal hf]
      exact fun csr he => hi ⟨csr, he⟩

/-- Settles O7: the step takes the host's command, and a word that decodes runs as its instruction. -/
theorem stepRunsTheDecodedInstruction : Obligations.StepRunsTheDecodedInstruction := fun _ _ _ _ hi hh hd =>
  (step_of_command hi hh).trans (runCommand_of_decode_ok hd _)

/-- Settles O8: each branch of the step, and each instruction, answers a next state. -/
theorem everyStepAnswersANextState : Obligations.EveryStepAnswersANextState := by
  intro s
  unfold step portStep
  split
  case h_1 => exact ⟨_, rfl⟩
  case h_2 =>
    split
    case h_4 =>
      unfold runCommand
      split
      · exact ⟨_, rfl⟩
      · split
        · exact ⟨_, rfl⟩
        · exact exists_exec_next _ _
    all_goals exact ⟨_, rfl⟩

/-- Settles O9: between commands the step looks at the host's next move alone. -/
theorem idleBlockKeepsItsState : Obligations.IdleBlockKeepsItsState := by
  refine fun s hi => ⟨fun hh => ?_, fun rest hh => ?_⟩
  · simp only [step, portStep, hi, hh]
  · simp only [step, portStep, hi, hh]

/-- The reset input is taken in any state, a command in progress or not (R240). -/
theorem step_of_reset {s : State} {rest : List HostMove} (hh : s.host = .reset :: rest) :
    step s = .next (assertReset { s with host := rest }) := by
  cases hi : s.inflight <;> simp only [step, portStep, waitingStep, hi, hh]

/-- Settles O12: the step is the reset input, which writes every element. -/
theorem resetSetsEveryElement : Obligations.ResetSetsEveryElement := by
  intro s rest hh
  have hlen : (wideZero s.cfg.limbs).length = s.cfg.limbs := length_wideZero _
  have hzero : ∀ l ∈ wideZero s.cfg.limbs, l = 0#64 := fun l => List.eq_of_mem_replicate
  refine ⟨_, step_of_reset hh, fun r => ?_, hlen, hzero, rfl, rfl, rfl, rfl, rfl, rfl, rfl, hlen, hzero, rfl, rfl, rfl,
    rfl, rfl, fun hbusy => if_neg (Bool.eq_false_iff.mp hbusy)⟩
  cases r <;> exact ⟨hlen, hzero⟩

/-- The answer to a dropped request is the first one after any further wait (R240; log 8). -/
theorem dropLateAnswer_pendings (n : Nat) {e : SrcEvent} (he : e ≠ .pending) (post : List SrcEvent) :
    dropLateAnswer (List.replicate n .pending ++ e :: post) = post := by
  induction n with
  | zero =>
    cases e with
    | pending => exact absurd rfl he
    | ok b => rfl
    | fail => rfl
  | succ n ih => exact ih

/-- Settles O13: a command in progress has a request outstanding, whose answer the reset drops. -/
theorem resetIgnoresTheLateAnswer : Obligations.ResetIgnoresTheLateAnswer := by
  intro s f rest n e post h hf hh he hsrc
  obtain ⟨_, _, hbusy⟩ := h.running hf
  refine ⟨_, step_of_reset hh, rfl, rfl, rfl, (if_pos hbusy).trans ?_⟩
  show dropLateAnswer s.source = post
  rw [hsrc, dropLateAnswer_pendings n he]

end Sys2Proof.Machine
end

section
/-! PROOF. The commands that complete at once, one by one (spec/40_subtract.md R106, R107, 41_compare.md R123 to R125,
43_sampling.md R161, R163, 44_register_access.md R190 to R195). -/

namespace Sys2Proof.Machine

/-- While FATAL = 0 a command that passes its checks does what `Direct` says. -/
theorem Direct.exec_eq {s t : State} {i : Instr} (h : Direct s i t) (hf : s.fatal = false) : exec i s = .next t := by
  cases h with
  | wrl hd hidx => rw [exec, execWrl, unlessFatal_of_not_fatal hf, withReg_of_some hd, withLimbIndex_of_lt hidx]
  | rdl ha hidx => rw [exec, execRdl, unlessFatal_of_not_fatal hf, withReg_of_some ha, withLimbIndex_of_lt hidx]
  | clr hd => rw [exec, execClr, unlessFatal_of_not_fatal hf, withReg_of_some hd]
  | mov hd ha => rw [exec, execMov, unlessFatal_of_not_fatal hf, withReg_of_some hd, withReg_of_some ha]
  | sub hd ha hb =>
    rw [exec, execSub, unlessFatal_of_not_fatal hf, withReg_of_some hd, withReg_of_some ha, withReg_of_some hb]
  | sbb hd ha hb =>
    rw [exec, execSbb, unlessFatal_of_not_fatal hf, withReg_of_some hd, withReg_of_some ha, withReg_of_some hb]
  | lt ha hb => rw [exec, execLt, unlessFatal_of_not_fatal hf, withReg_of_some ha, withReg_of_some hb]
  | gt ha hb => rw [exec, execGt, unlessFatal_of_not_fatal hf, withReg_of_some ha, withReg_of_some hb]
  | eq ha hb => rw [exec, execEq, unlessFatal_of_not_fatal hf, withReg_of_some ha, withReg_of_some hb]
  | setmod ha hne => rw [exec, execSetmod, unlessFatal_of_not_fatal hf, withReg_of_some ha, if_pos hne]
  | setmodZero ha hz => rw [exec, execSetmod, unlessFatal_of_not_fatal hf, withReg_of_some ha, if_neg hz]
  | rdmod hidx => rw [exec, execRdmod, unlessFatal_of_not_fatal hf, withLimbIndex_of_lt hidx]
  | genZero hd hlen =>
    rw [exec, execGen, unlessFatal_of_not_fatal hf, withReg_of_some hd, withLength_of_le (hlen ▸ Nat.zero_le _),
      if_pos hlen]
  | rdcsr hv => exact exec_rdcsr_of_some hv
  | wrcsr => exact (exec_wrcsr_of_some (csr := 1#16) (v := s.borrow) hf rfl _).trans (congrArg _ (if_pos rfl))

/-- In a ready state a command that completes at once, from a state that differs in registers alone, writes LAST and the
response besides (R212). -/
theorem State.Ready.exec_direct {s s' : State} (hs : s.Ready) {i : Instr} {c : Status} {v : Limb}
    (h : Direct s i (s'.complete c v)) (h1 : s'.fatal = s.fatal) (h2 : s'.srcBusy = s.srcBusy)
    (h3 : s'.cstate = s.cstate) (h4 : s'.inflight = s.inflight) : exec i s = .next (s'.reporting c v) := by
  rw [h.exec_eq hs.not_fatal, hs.complete_eq h1 h2 h3 h4]

/-- The wide subtract of two registers, as O17 has it. -/
theorem State.Inv.subtract_spec {s : State} (h : s.Inv) (a b : WReg) (f : Limb) :
    (wideSbb (s.readW a) (s.readW b) f).1.length = s.cfg.limbs ∧
      (wideVal (wideSbb (s.readW a) (s.readW b) f).1 : Int) =
        ((wideVal (s.readW a) : Int) - wideVal (s.readW b) - (f.getLsbD 63).toNat) % 2 ^ s.cfg.width ∧
      (wideSbb (s.readW a) (s.readW b) f).2 =
        if wideVal (s.readW a) < wideVal (s.readW b) + (f.getLsbD 63).toNat then ones64 else 0#64 := by
  have hpos : 1 ≤ (s.readW a).length := h.length_readW a ▸ h.sound.cfg.1
  have hlen : (s.readW a).length = (s.readW b).length := (h.length_readW a).trans (h.length_readW b).symm
  have := wideSubtractIsExactWithBorrow (s.readW a) (s.readW b) f hpos hlen
  rwa [h.length_readW a] at this

/-- Settles O19: SBB is the wide subtract with the flag BORROW holds. -/
theorem sbbSubtractsTheBorrowBitToo : Obligations.SbbSubtractsTheBorrowBitToo := by
  intro s rd ra rb d a b hs hd ha hb
  obtain ⟨hlen, hval, hflag⟩ := hs.inv.subtract_spec a b s.borrow
  refine ⟨_, hlen, hval, ?_⟩
  rw [← hflag]
  exact hs.exec_direct (.sbb hd ha hb) rfl rfl rfl rfl

/-- Settles O18: SUB is the wide subtract with a zero flag. -/
theorem subWritesTheDifferenceAndBorrow : Obligations.SubWritesTheDifferenceAndBorrow := by
  intro s rd ra rb d a b hs hd ha hb
  obtain ⟨hlen, hval, hflag⟩ := hs.inv.subtract_spec a b 0#64
  have hzero : ((0#64).getLsbD 63).toNat = 0 := rfl
  rw [hzero] at hval
  simp only [hzero, Nat.add_zero] at hflag
  refine ⟨_, hlen, by simpa using hval, ?_⟩
  rw [← hflag]
  exact hs.exec_direct (.sub hd ha hb) rfl rfl rfl rfl

/-- A comparison answers its bit zero-extended (R123 to R125). -/
theorem bitOf_setWidth (b : Prop) [Decidable b] : (bitOf b).setWidth 64 = if b then 1#64 else 0#64 := by
  unfold bitOf
  split <;> rfl

/-- A comparison in a ready state: CT and the data word are its bit. -/
theorem State.Ready.exec_comparison {s : State} (hs : s.Ready) {i : Instr} (b : Prop) [Decidable b]
    (h : Direct s i (s.answerCt (bitOf b))) :
    exec i s = .next ({ s with ct := if b then 1#1 else 0#1 }.reporting .ok (if b then 1#64 else 0#64)) := by
  rw [← bitOf_setWidth]
  exact hs.exec_direct (s' := { s with ct := bitOf b }) h rfl rfl rfl rfl

/-- Settles O21: the comparisons of registers are those of their values. -/
theorem comparisonsWriteCtAlone : Obligations.ComparisonsWriteCtAlone := by
  intro s ra rb a b hs ha hb
  have hlen : (s.readW a).length = (s.readW b).length := (hs.inv.length_readW a).trans (hs.inv.length_readW b).symm
  have hlt := Direct.lt (s := s) ha hb
  have hgt := Direct.gt (s := s) ha hb
  have heq := Direct.eq (s := s) ha hb
  rw [wideLt_eq hlen] at hlt
  rw [wideGt, wideLt_eq hlen.symm] at hgt
  rw [wideEq_eq hlen] at heq
  exact ⟨hs.exec_comparison _ hlt, hs.exec_comparison _ hgt, hs.exec_comparison _ heq⟩

/-- Settles O23: four fields select, the other twelve do not, and the file reads back. -/
theorem registerFileReadsBackWhatWasWritten : Obligations.RegisterFileReadsBackWhatWasWritten :=
  ⟨⟨rfl, rfl, rfl, rfl⟩, fun r h => (selectW_eq_none r).mpr h, wfile_get_set⟩

/-- The limb that is written. -/
theorem wideLimb_set_self {x : Wide} {k : Nat} (h : k < x.length) (v : Limb) : wideLimb (x.set k v) k = v := by
  simp [wideLimb, h]

/-- The limbs that are not written. -/
theorem wideLimb_set_ne (x : Wide) {k j : Nat} (h : j ≠ k) (v : Limb) : wideLimb (x.set k v) j = wideLimb x j := by
  simp [wideLimb, List.getD_eq_getElem?_getD, List.getElem?_set_ne h.symm]

/-- Settles O24: WRL sets one limb of the list. -/
theorem wrlWritesOneLimb : Obligations.WrlWritesOneLimb := by
  intro s rd idx data d hs hd hidx
  have hlen := hs.inv.length_readW d
  exact ⟨_, (List.length_set ..).trans hlen, wideLimb_set_self (hlen.symm ▸ hidx) data,
    fun j hj => wideLimb_set_ne _ hj data, hs.exec_direct (.wrl hd hidx) rfl rfl rfl rfl⟩

/-- Between commands a completion's report leaves the block ready. -/
theorem State.Ready.reporting {s : State} (hs : s.Ready) {c : Status} (hc : c ≠ .faulted) (v : Limb) :
    (s.reporting c v).Ready := by
  obtain ⟨hf, _, _, hi⟩ := hs.idle
  have hinv := hs.inv.sound.complete_inv hf hc v
  rw [hs.complete_eq rfl rfl rfl rfl] at hinv
  exact ⟨hinv, hi, hf⟩

/-- Settles O25: the reads look at nothing they write. -/
theorem rdlAndRdmodReadOneLimb : Obligations.RdlAndRdmodReadOneLimb := by
  intro s idx hs hidx
  have hagain (v : Limb) : (s.reporting .ok v).Ready := hs.reporting (by decide) v
  exact ⟨fun ra a ha => ⟨hs.exec_direct (.rdl ha hidx) rfl rfl rfl rfl,
      (hagain _).exec_direct (s' := s.reporting .ok _) (.rdl ha hidx) rfl rfl rfl rfl⟩,
    hs.exec_direct (.rdmod hidx) rfl rfl rfl rfl,
    (hagain _).exec_direct (s' := s.reporting .ok _) (.rdmod hidx) rfl rfl rfl rfl⟩

/-- Settles O26: CLR writes the zero value, MOV what the other register holds. -/
theorem clrAndMovWriteOneRegister : Obligations.ClrAndMovWriteOneRegister := by
  intro s rd d hs hd
  exact ⟨⟨_, length_wideZero _, wideVal_zero _, hs.exec_direct (.clr hd) rfl rfl rfl rfl⟩,
    fun ra a ha => hs.exec_direct (.mov hd ha) rfl rfl rfl rfl⟩

/-- Settles O28: WRCSR to BORROW stores its data operand. -/
theorem wrcsrStoresBorrow : Obligations.WrcsrStoresBorrow := fun _ _ hs =>
  hs.exec_direct .wrcsr rfl rfl rfl rfl

/-- Settles O42: the zero test of SETMOD is that of the register's value. -/
theorem setmodAdmitsExactlyNonZero : Obligations.SetmodAdmitsExactlyNonZero := by
  intro s ra a hs ha
  have htest := hs.inv.sound.setmod_test a
  exact ⟨fun hne => hs.exec_direct (.setmod ha (htest.mpr hne)) rfl rfl rfl rfl,
    fun hz => hs.exec_direct (.setmodZero ha fun he => htest.mp he hz) rfl rfl rfl rfl⟩

/-! ## RDCSR -/

/-- STATUS as a number (R32). -/
theorem statusWord_toNat (s : State) : (statusWord s).toNat = statusValue s := by
  simp only [statusWord, statusValue, append_toNat_eq, BitVec.toNat_ofBool]
  simp
  ring

/-- CONFIG as a number (R34). -/
theorem configWord_toNat {c : Config} (h : c.Valid) : (configWord c).toNat = c.limbs + 2 ^ 16 * 4 + 2 ^ 24 * 64 := by
  obtain ⟨_, hle, _⟩ := h
  simp only [configWord, append_toNat_eq, BitVec.toNat_ofNat, limbW, nwReg]
  omega

/-- Settles O27: each number that is present reads its register, and RDCSR completes with FATAL 0 and 1. -/
theorem rdcsrReadsTheSixRegisters : Obligations.RdcsrReadsTheSixRegisters := by
  intro s csr h hi hle
  obtain ⟨v, hv⟩ := exists_csrRead_of_le hle s
  refine ⟨v, ?_, ?_, ?_, ?_, ?_, ?_, ?_⟩
  · exact (exec_rdcsr_of_some hv).trans (congrArg _ (h.complete_eq hi _ _))
  all_goals
    rintro rfl
    cases hv
  · exact statusWord_toNat s
  · rfl
  · rw [BitVec.toNat_setWidth, Nat.mod_eq_of_lt]
    exact Nat.lt_of_lt_of_le s.ct.isLt (by decide)
  · rfl
  · exact configWord_toNat h.sound.cfg
  · exact h.sound.toNat_draws (Nat.le_refl _)

end Sys2Proof.Machine
end

section
/-! PROOF. How commands end: the checks and their errors, and what each kind of ending writes (spec/30_encoding.md R79, R80,
60_exceptions.md R211, R212, R215, R219). -/

namespace Sys2Proof.Machine

/-! ## The checks against the operands -/

/-- The operands of a command are in range when its register fields select registers and its index, length or CSR meets no
error (R79). -/
theorem wellFormed_iff (c : Config) (i : Instr) :
    i.wellFormed c = true ↔ (∀ r ∈ regFields i, selectW r ≠ none) ∧ indexError c i = none := by
  have hreg (r : BitVec 4) : regInRange r = true ↔ selectW r ≠ none := by
    rw [Ne, selectW_eq_none, regInRange, decide_eq_true_iff, Nat.not_le]
  cases i <;>
    simp [Instr.wellFormed, regFields, indexError, hreg, limbInRange, lenInRange, csrPresent, csrWritable, and_assoc]
  case wrcsr csr data =>
    split
    case isTrue => simp; omega
    case isFalse => split <;> simp [*]

/-- A command whose operands are in range can fail the check of the modulus alone (R80). -/
theorem firstCheckFailed_of_wellFormed {s : State} {i : Instr} {e : Status} (hwf : i.wellFormed s.cfg = true)
    (he : firstCheckFailed s i = some e) : e = .noModulus ∧ s.modv = false ∧ ∃ rd, i = .sample rd := by
  obtain ⟨hreg, hindex⟩ := (wellFormed_iff s.cfg i).mp hwf
  unfold firstCheckFailed at he
  rw [if_neg, hindex] at he
  · dsimp only at he
    split at he
    · rename_i rd
      split at he
      · cases he
      · exact ⟨(Option.some.inj he).symm, Bool.eq_false_iff.mpr ‹_›, rd, rfl⟩
    · cases he
  · intro hany
    obtain ⟨r, hr, hle⟩ := List.any_eq_true.mp hany
    exact hreg r hr ((selectW_eq_none r).mpr (of_decide_eq_true hle))

/-- The errors of operands out of range (R79). -/
def OperandError (e : Status) : Prop := e = .badRegister ∨ e = .badIndex ∨ e = .badLength ∨ e = .readOnly

/-- A command with an operand out of range fails with one of the four errors of R79. -/
theorem firstCheckFailed_of_not_wellFormed {s : State} {i : Instr} (hwf : ¬ i.wellFormed s.cfg = true) :
    ∃ e, firstCheckFailed s i = some e ∧ OperandError e := by
  by_cases hreg : ∀ r ∈ regFields i, selectW r ≠ none
  · cases hindex : indexError s.cfg i with
    | none => exact absurd ((wellFormed_iff s.cfg i).mpr ⟨hreg, hindex⟩) hwf
    | some e => exact ⟨e, firstCheckFailed_of_index hreg hindex, .inr (indexError_cases hindex)⟩
  · push Not at hreg
    obtain ⟨r, hr, hnone⟩ := hreg
    exact ⟨.badRegister, firstCheckFailed_of_register hr hnone s, .inl rfl⟩

/-- A command that completes at once has its operands in range. -/
theorem Direct.wellFormed {s t : State} {i : Instr} (h : Direct s i t) : i.wellFormed s.cfg = true := by
  rw [wellFormed_iff]
  cases h with
  | wrcsr => exact ⟨by simp [regFields], rfl⟩
  | genZero hd hlen => exact ⟨by simp [regFields, hd], by simp [indexError, hlen]⟩
  | @rdcsr csr v hv =>
    have hpresent : ¬ 0x0005 < csr.toNat := fun hlt => nomatch hv.symm.trans ((csrRead_eq_none csr s).mpr hlt)
    exact ⟨by simp [regFields], if_neg hpresent⟩
  | _ => simp [regFields, indexError, *]

/-- A command that starts to draw has its operands in range. -/
theorem Starts.wellFormed {s s0 : State} {i : Instr} {f : InFlight} (h : Starts s i f s0) :
    i.wellFormed s.cfg = true := by
  rw [wellFormed_iff]
  cases h <;> simp [regFields, indexError, *]

/-- A command that completes at once or draws fails no check. -/
theorem firstCheckFailed_eq_none {s : State} {i : Instr} (hwf : i.wellFormed s.cfg = true)
    (hmodv : ∀ rd, i = .sample rd → s.modv = true) : firstCheckFailed s i = none := by
  cases he : firstCheckFailed s i with
  | none => rfl
  | some e =>
    obtain ⟨_, hf, rd, hi⟩ := firstCheckFailed_of_wellFormed hwf he
    exact absurd (hf.symm.trans (hmodv rd hi)) Bool.false_ne_true

theorem Direct.firstCheckFailed_eq {s t : State} {i : Instr} (h : Direct s i t) : firstCheckFailed s i = none :=
  firstCheckFailed_eq_none h.wellFormed fun rd hi => by subst hi; cases h

theorem Starts.firstCheckFailed_eq {s s0 : State} {i : Instr} {f : InFlight} (h : Starts s i f s0) :
    firstCheckFailed s i = none := by
  refine firstCheckFailed_eq_none h.wellFormed fun rd hi => ?_
  subst hi
  cases h with
  | sample _ hmodv => exact hmodv

/-- What a command of a ready state leads to. -/
theorem State.Ready.exec_end {s t : State} {i : Instr} (hs : s.Ready) (h : exec i s = .next t) : ExecEnd s i t := by
  obtain ⟨_, _, hmax, _⟩ := hs.inv.sound.cfg
  exact Machine.exec_end hs.not_fatal hmax h

/-- Settles O30: a command that fails a check neither completes otherwise nor draws. -/
theorem firstFailingCheckDecidesTheStatus : Obligations.FirstFailingCheckDecidesTheStatus := by
  intro s i e hs he
  obtain ⟨t, ht⟩ := exists_exec_next i s
  rw [ht]
  cases hs.exec_end ht with
  | refused e' he' =>
    cases he.symm.trans he'
    exact congrArg _ (hs.complete_eq rfl rfl rfl rfl e 0#64)
  | direct h => cases h.firstCheckFailed_eq.symm.trans he
  | draws h => cases h.firstCheckFailed_eq.symm.trans he

/-! ## How a command ends -/

/-- A command that completes at once answers OK, or SETMOD with ZERO_MODULUS. -/
theorem Direct.status {s t : State} {i : Instr} (h : Direct s i t) {r : Completion} (hr : t.response = some r) :
    r.status = .ok ∨ r.status = .zeroModulus := by
  cases h <;> cases hr <;> simp

/-- A draw that completes answers OK, SOURCE_FAIL or RETRY_EXCEEDED, data 0 and its code in LAST. -/
theorem DrawEnd.status {s t : State} {job : Job} (h : DrawEnd s job t) (hf : s.fatal = false) {r : Completion}
    (hr : t.response = some r) :
    r.data = 0#64 ∧ t.last = r.status.code ∧ t.inflight = none ∧
      (r.status = .ok ∨ r.status = .sourceFail ∨ r.status = .retryExceeded) := by
  obtain ⟨f, _, e⟩ | ⟨hi, code, hresp, hlast, hcode, _⟩ := h.waits_or_completes hf
  · cases (congrArg State.response e).symm.trans hr
  · cases hresp.symm.trans hr
    exact ⟨rfl, hlast, hi, hcode⟩

/-- The state a command's draws begin in has FATAL = 0 as well. -/
theorem Starts.drive_end {s s0 : State} {i : Instr} {f : InFlight} (hs : s.Ready) (h : Starts s i f s0) :
    s0.fatal = false ∧ DrawEnd s0 f.job (drive s.source f s0) :=
  ⟨(h.running hs).fatal, Machine.drive_end (h.running hs) s.source⟩

/-- Settles O31: an operand error is the first failing check of an ill-formed command and of no other. -/
theorem wellFormedMeansNoOperandError : Obligations.WellFormedMeansNoOperandError := by
  intro s i t hs ht
  have hready := hs.exec_end ht
  refine ⟨fun hwf r hr => ?wf, fun hr => ?ill⟩
  case wf =>
    have hr' : t.response = some r := hr
    cases hready with
    | refused e he =>
      obtain ⟨rfl, _⟩ := firstCheckFailed_of_wellFormed hwf he
      cases hr'
      decide
    | direct h => obtain he | he := h.status hr' <;> rw [he] <;> decide
    | draws h =>
      obtain ⟨hf, hend⟩ := h.drive_end hs
      obtain ⟨_, _, _, he | he | he⟩ := hend.status hf hr' <;> rw [he] <;> decide
  case ill =>
    by_contra hwf
    obtain ⟨e, he, herr⟩ := firstCheckFailed_of_not_wellFormed hwf
    cases ht.symm.trans (firstFailingCheckDecidesTheStatus s i e hs he)
    obtain ⟨h1, h2, h3, h4⟩ := hr _ rfl
    obtain h | h | h | h := herr
    · exact h1 h
    · exact h2 h
    · exact h3 h
    · exact h4 h

/-- Settles O33: a command that completes at once and is no read or comparison answers 0, and so do draws and errors. -/
theorem onlyReadsAndComparisonsAnswerData : Obligations.OnlyReadsAndComparisonsAnswerData := by
  intro s i t r hs ht hr
  cases hs.exec_end ht with
  | refused e he =>
    cases hr
    exact ⟨if_neg (Bool.eq_false_iff.mp hs.not_fatal), fun hne => absurd rfl hne⟩
  | direct h =>
    obtain ⟨_, _, _, r', hr', hlast⟩ := h.completes hs.not_fatal
    cases hr.symm.trans hr'
    refine ⟨hlast, fun hne => ?_⟩
    cases h with
    | rdl => cases hr; exact ⟨rfl, .inl ⟨_, _, rfl⟩⟩
    | rdmod => cases hr; exact ⟨rfl, .inr (.inl ⟨_, rfl⟩)⟩
    | rdcsr => cases hr; exact ⟨rfl, .inr (.inr (.inl ⟨_, rfl⟩))⟩
    | lt => cases hr; exact ⟨rfl, .inr (.inr (.inr (.inl ⟨_, _, rfl⟩)))⟩
    | gt => cases hr; exact ⟨rfl, .inr (.inr (.inr (.inr (.inl ⟨_, _, rfl⟩))))⟩
    | eq => cases hr; exact ⟨rfl, .inr (.inr (.inr (.inr (.inr ⟨_, _, rfl⟩))))⟩
    | _ => cases hr; exact absurd rfl hne
  | draws h =>
    obtain ⟨hf, hend⟩ := h.drive_end hs
    obtain ⟨hdata, hlast, _⟩ := hend.status hf hr
    exact ⟨hlast, fun hne => absurd hdata hne⟩

/-- The draws of a command begin in the state it finds, but for CAND and CSTATE. -/
theorem Starts.base {s s0 : State} {i : Instr} {f : InFlight} (h : Starts s i f s0) :
    ∃ cs c, s0 = { s with cstate := cs, cand := c } := by
  cases h
  · exact ⟨s.cstate, _, rfl⟩
  · exact ⟨.sampling, _, rfl⟩

/-- A command that draws and is no SAMPLE is a GEN. -/
theorem Starts.job_gen {s s0 : State} {i : Instr} {f : InFlight} (h : Starts s i f s0) (hi : ∀ rd, i ≠ .sample rd) :
    ∃ d len, f.job = .gen d len := by
  cases h with
  | gen => exact ⟨_, _, rfl⟩
  | sample => exact absurd rfl (hi _)

/-- Settles O32: of the endings with an error only SETMOD's and the draws' record more than LAST. -/
theorem errorsWriteOnlyWhatTheyRecord : Obligations.ErrorsWriteOnlyWhatTheyRecord := by
  intro s i t r hs ht hr hne
  obtain ⟨hf, hbusy, hcs, hi⟩ := hs.idle
  cases hs.exec_end ht with
  | refused e he =>
    cases hr
    rw [hs.complete_eq rfl rfl rfl rfl]
    have hcases := firstCheckFailed_cases he
    have hzero : e ≠ .zeroModulus := by rintro rfl; simp at hcases
    have hretry : e ≠ .retryExceeded := by rintro rfl; simp at hcases
    exact ⟨rfl, rfl, rfl, rfl, rfl, rfl, rfl, hbusy, hi, rfl, (if_neg hzero).symm, hf.trans (decide_eq_false hretry).symm,
      hcs.trans (if_neg hretry).symm, fun _ _ => ⟨rfl, rfl, rfl⟩, fun _ => rfl⟩
  | direct h =>
    cases h with
    | setmodZero =>
      cases hr
      have hnf : ¬ s.fatal = true := Bool.eq_false_iff.mp hf
      exact ⟨rfl, if_neg hnf, rfl, rfl, rfl, rfl, rfl, rfl, rfl, rfl, rfl, hf, if_neg hnf, fun _ _ => ⟨rfl, rfl, rfl⟩,
        fun _ => rfl⟩
    | _ => cases hr; exact absurd rfl hne
  | @draws f s0 h =>
    have hrun := h.running hs
    obtain ⟨hf0, hend⟩ := h.drive_end hs
    obtain ⟨cs, c, hs0⟩ := h.base
    have hinv := hend.inv hrun.sound hf0
    obtain ⟨hcfg, hmod, hmodv, hborrow, hct, hhost⟩ := hend.frame
    have hw := hend.w_of_not_ok fun v hv => hne (by cases hr.symm.trans hv; rfl)
    obtain ⟨g, _, e⟩ | ⟨hi', code, hresp, hlast, hcode, hfatal⟩ := hend.waits_or_completes hf0
    · cases (congrArg State.response e).symm.trans hr
    cases hresp.symm.trans hr
    obtain ⟨_, _, _, _, _, hidle, _⟩ := hinv
    obtain ⟨hbusy', hcs'⟩ := hidle hi'
    have hfatal' : (drive s.source f s0).fatal = decide (code = .retryExceeded) :=
      Bool.eq_iff_iff.mpr (hfatal.trans decide_eq_true_iff.symm)
    have hzero : code ≠ .zeroModulus := by rintro rfl; simp at hcode
    rw [hfatal'] at hcs'
    subst hs0
    refine ⟨rfl, hlast, hcfg, hw, hmod, hborrow, hct, hbusy', hi', hhost, hmodv.trans (if_neg hzero).symm, hfatal',
      by simpa using hcs', fun hsf hretry => ?_, fun hsample => ?_⟩
    · obtain rfl | rfl | rfl := hcode
      · exact absurd rfl hne
      · exact absurd rfl hsf
      · exact absurd rfl hretry
    · obtain ⟨d, len, hjob⟩ := h.job_gen hsample
      rw [hjob] at hend
      exact hend.gen_frame.1

end Sys2Proof.Machine
end

section
/-! PROOF. GEN (spec/42_random_bits.md R144 to R151): the limbs and bits a draw makes of its answers, and where it stops. -/

namespace Sys2Proof.Machine

/-- While FATAL = 0 a command that passes its checks and draws makes its source transactions. -/
theorem Starts.exec_eq {s s0 : State} {i : Instr} {f : InFlight} (h : Starts s i f s0) (hf : s.fatal = false)
    (hmax : 1 ≤ s.cfg.maxAttempts) : exec i s = .next (drive s.source f s0) := by
  obtain ⟨t, ht⟩ := exists_exec_next i s
  rw [ht]
  cases exec_end hf hmax ht with
  | refused e he => cases h.firstCheckFailed_eq.symm.trans he
  | direct hdirect =>
    cases h with
    | gen _ hpos =>
      cases hdirect with
      | genZero _ hlen => omega
    | sample => cases hdirect
  | draws h' =>
    cases h with
    | gen hd =>
      cases h' with
      | gen hd' => cases hd.symm.trans hd'; rfl
    | sample hd =>
      cases h' with
      | sample hd' => cases hd.symm.trans hd'; rfl

theorem State.Ready.exec_starts {s s0 : State} (hs : s.Ready) {i : Instr} {f : InFlight} (h : Starts s i f s0) :
    exec i s = .next (drive s.source f s0) := by
  obtain ⟨_, _, hmax, _⟩ := hs.inv.sound.cfg
  exact h.exec_eq hs.not_fatal hmax

/-- The limbs a whole draw of `n` bits makes of its answers (R146). -/
def drawnLimbs (n : Nat) (bs : List Fill) : Wide := (bs.zipIdx 0).map fun p => drawnLimb n p.2 p.1

@[simp] theorem length_drawnLimbs (n : Nat) (bs : List Fill) : (drawnLimbs n bs).length = bs.length := by
  simp [drawnLimbs]

/-- A run of answers fills a cleared CAND of `k` limbs from below. -/
theorem fillFrom_wideZero (n k : Nat) (bs : List Fill) (h : bs.length ≤ k) :
    fillFrom n 0 bs (wideZero k) = drawnLimbs n bs ++ wideZero (k - bs.length) := by
  simpa [drawnLimbs] using fillFrom_zero n bs 0 k [] rfl h

/-- Limb `j` of a filled CAND (R146). -/
theorem wideLimb_drawn (n k : Nat) (bs : List Fill) (j : Nat) :
    wideLimb (drawnLimbs n bs ++ wideZero k) j = (bs[j]?.map (drawnLimb n j)).getD 0#64 := by
  obtain hlt | hge := Nat.lt_or_ge j bs.length
  · rw [wideLimb, List.getD_eq_getElem?_getD, List.getElem?_append_left (by simpa using hlt)]
    simp [drawnLimbs, List.getElem?_zipIdx, Function.comp_def]
  · rw [wideLimb, List.getD_eq_getElem?_getD, List.getElem?_append_right (by simpa using hge)]
    simp [wideZero, List.getElem?_replicate, List.getElem?_eq_none hge]
    split <;> rfl

/-- Bit `q` of the mask of the top limb (R145). -/
theorem topMask_bit (n q : Nat) (hq : q < 64) :
    (topMask n).getLsbD q = decide (n % 64 = 0 ∨ q < n % 64) := by
  unfold topMask
  split
  case isTrue h =>
    rw [show ones64 = BitVec.allOnes 64 from rfl, BitVec.getLsbD_allOnes]
    simp [h, hq]
  case isFalse h =>
    have hmod : n % 64 < 64 := Nat.mod_lt _ (by decide)
    rw [BitVec.getLsbD_ofNat, Nat.testBit_two_pow_sub_one]
    simp [h, hq]

/-- Bit `q` of limb `j` of a draw: the answer's bit below the length, 0 from it on (R145, R146). -/
theorem drawnLimb_bit (n j q : Nat) (b : Fill) (hn : 1 ≤ n) (hj : j < activeLimbs n) (hq : q < 64) :
    (drawnLimb n j b).getLsbD q = (decide (64 * j + q < n) && (fillWord b).getLsbD q) := by
  unfold drawnLimb topLimb
  unfold activeLimbs at hj ⊢
  split
  case isTrue htop =>
    rw [BitVec.getLsbD_and, topMask_bit n q hq, Bool.and_comm]
    congr 1
    rw [decide_eq_decide]
    omega
  case isFalse htop =>
    rw [decide_eq_true (by omega : 64 * j + q < n), Bool.true_and]

/-- Byte `8 j + r` of a run of answers is byte `r` of answer `j` (R54). -/
theorem streamBytes_getD (bs : List Fill) (j r : Nat) (hr : r < 8) :
    (streamBytes bs).getD (8 * j + r) 0#8 = (bs[j]?.map fun b => b.bytes.getD r 0#8).getD 0#8 := by
  induction bs generalizing j with
  | nil => simp [streamBytes]
  | cons b bs ih =>
    have hlen : b.bytes.length = 8 := rfl
    have hcons : streamBytes (b :: bs) = b.bytes ++ streamBytes bs := rfl
    rw [hcons, List.getD_eq_getElem?_getD]
    cases j with
    | zero =>
      rw [List.getElem?_append_left (by omega), Nat.mul_zero, Nat.zero_add, ← List.getD_eq_getElem?_getD]
      rfl
    | succ j =>
      rw [List.getElem?_append_right (by omega), hlen, show 8 * (j + 1) + r - 8 = 8 * j + r by omega,
        ← List.getD_eq_getElem?_getD, ih j]
      rfl

/-- Bit `p` of a draw of `n` bits is bit `p mod 8` of stream byte `p div 8` below `n`, and 0 from `n` on (R147). -/
theorem wideBit_drawn (n k : Nat) (bs : List Fill) (hn : 1 ≤ n) (hlen : bs.length = activeLimbs n) (p : Nat) :
    wideBit (drawnLimbs n bs ++ wideZero k) p =
      (decide (p < n) && ((streamBytes bs).getD (p / 8) 0#8).getLsbD (p % 8)) := by
  have hq : p % 64 < 64 := Nat.mod_lt _ (by decide)
  have hr : p % 64 / 8 < 8 := by omega
  have hbyte : p / 8 = 8 * (p / 64) + p % 64 / 8 := by omega
  have hbit : p % 8 = p % 64 % 8 := by omega
  have hp : 64 * (p / 64) + p % 64 = p := by omega
  rw [wideBit, wideLimb_drawn, hbyte, streamBytes_getD bs _ _ hr, hbit]
  obtain hlt | hge := Nat.lt_or_ge (p / 64) bs.length
  · rw [List.getElem?_eq_getElem hlt]
    simp only [Option.map_some, Option.getD_some]
    rw [drawnLimb_bit n _ _ _ hn (hlen ▸ hlt) hq, fillWord_bit _ _ hq, hp]
  · have hout : ¬ p < n := by
      unfold activeLimbs at hlen
      omega
    simp [List.getElem?_eq_none hge, hout]

/-- Settles O34: a GEN is one draw, whose limbs become its register. -/
theorem genFillsTheLowBitsFromTheStream : Obligations.GenFillsTheLowBitsFromTheStream := by
  intro s rd len d bs rest hs hd hpos hlen hbs hsrc
  have hactive : bs.length = activeLimbs len.toNat := hbs
  have hle : bs.length ≤ s.cfg.limbs := by
    rw [← activeLimbs_width s.cfg, hactive]
    exact Nat.div_le_div_right (Nat.add_le_add_right hlen 63)
  have hne : bs ≠ [] := by
    rintro rfl
    simp only [List.length_nil] at hbs
    omega
  let X := fillFrom len.toNat 0 bs (wideZero s.cfg.limbs)
  have hX : X = drawnLimbs len.toNat bs ++ wideZero (s.cfg.limbs - bs.length) := fillFrom_wideZero _ _ bs hle
  refine ⟨X, X, by simp [hX, hle], fun p _ => hX ▸ wideBit_drawn _ _ bs hpos hactive p, ?_⟩
  rw [hs.exec_starts (.gen hd hpos hlen), hsrc, drive_draw bs rest _ _ hne ((Nat.zero_add _).trans hactive)]
  exact congrArg _ (hs.complete_eq (s' := State.writeW { s with source := rest, cand := X } d X) rfl rfl rfl rfl .ok 0#64)

/-- A GEN that meets a failing transaction before its last limb (R144). -/
theorem exec_gen_fails {s : State} (hs : s.Ready) {rd : BitVec 4} {len : BitVec 16} {d : WReg} {bs : List Fill}
    {rest : List SrcEvent} (hd : selectW rd = some d) (hlen : len.toNat ≤ s.cfg.width)
    (hbs : bs.length < activeLimbs len.toNat) (hsrc : s.source = bs.map .ok ++ .fail :: rest) :
    ∃ C : Wide, exec (.gen rd len) s = .next ({ s with cand := C, source := rest }.reporting .sourceFail 0#64) := by
  have hpos : 1 ≤ len.toNat := by
    unfold activeLimbs at hbs
    omega
  have hfill : 0 + bs.length < activeLimbs len.toNat := (Nat.zero_add _).symm ▸ hbs
  refine ⟨fillFrom len.toNat 0 bs (wideZero s.cfg.limbs), ?_⟩
  rw [hs.exec_starts (.gen hd hpos hlen), hsrc, drive_fill bs _ _ _ hfill, drive_fail]
  exact congrArg _ (hs.complete_eq (s' := { s with
    cand := fillFrom len.toNat 0 bs (wideZero s.cfg.limbs), source := rest }) rfl rfl rfl rfl .sourceFail 0#64)

/-- Settles O37: a failing transaction by the run up to it, the frame by the ways a step can end. -/
theorem genStopsAtASourceFailure : Obligations.GenStopsAtASourceFailure := by
  refine ⟨fun s rd len d bs rest hs hd hlen hbs hsrc => exec_gen_fails hs hd hlen hbs hsrc,
    fun s t d h hruns hreset hstep => ?_⟩
  cases step_end h hstep with
  | reset rest hh => exact absurd ⟨rest, hh⟩ hreset
  | idle => exact ⟨rfl, rfl, rfl, rfl, rfl, rfl, fun _ _ => rfl, fun _ => rfl⟩
  | reports => exact ⟨rfl, rfl, rfl, rfl, rfl, rfl, fun _ _ => rfl, fun _ => rfl⟩
  | direct rest i hissues hf hdirect =>
    obtain ⟨rd, len, rfl, _⟩ := hissues.eq_gen hruns
    cases hdirect
    exact ⟨rfl, rfl, rfl, rfl, rfl, rfl, fun _ _ => rfl, fun _ => rfl⟩
  | draws job hs hfor hf _ hh hend =>
    obtain ⟨len, rfl⟩ := hfor.eq_gen hruns
    obtain ⟨_, hmod, hmodv, hborrow, hct, _⟩ := hend.frame
    obtain ⟨hatt, hfatal⟩ := hend.gen_frame
    exact ⟨hborrow, hct, hmod, hmodv, hfatal, hatt, fun q hq => hend.readW_of_ne hq,
      fun hok => congrArg (·.get d) (hend.w_of_not_ok hok)⟩

end Sys2Proof.Machine
end

section
/-! PROOF. SAMPLE (spec/43_sampling.md R164 to R169): draws that are rejected, accepted or fail, and the candidate as a function
of the answers. -/

namespace Sys2Proof.Machine

/-! ## A draw at the storage width -/

/-- At the storage width no limb is masked (R145, R164). -/
theorem drawnLimb_width (c : Config) (i : Nat) (b : Fill) : drawnLimb c.width i b = fillWord b := by
  have hmask : topMask c.width = BitVec.allOnes 64 := if_pos (Nat.mul_mod_right 64 c.limbs)
  unfold drawnLimb
  rw [hmask, BitVec.and_allOnes, ite_self]

/-- Answers from limb `i` on, at the storage width. -/
theorem fillFrom_width (c : Config) (bs : List Fill) {i : Nat} {pre : Wide} (k : Nat) (hi : pre.length = i)
    (hk : bs.length ≤ k) :
    fillFrom c.width i bs (pre ++ wideZero k) = pre ++ drawValue bs ++ wideZero (k - bs.length) := by
  rw [fillFrom_zero c.width bs i k pre hi hk]
  congr 2
  rw [show (fun p : Fill × Nat => drawnLimb c.width p.2 p.1) = fillWord ∘ Prod.fst from
    funext fun p => drawnLimb_width c p.2 p.1, ← List.map_map, List.zipIdx_map_fst]
  rfl

@[simp] theorem length_drawValue (bs : List Fill) : (drawValue bs).length = bs.length := List.length_map _

/-- A SAMPLE whose draw has `pre` as its limbs so far. -/
structure State.Sampling (s : State) (pre : Wide) : Prop where
  pos : 1 ≤ s.cfg.limbs
  mod : s.mod.length = s.cfg.limbs
  cand : s.cand = pre ++ wideZero (s.cfg.limbs - pre.length)

/-- The last answers of a draw complete its candidate (R164). -/
theorem drive_sample_draw {s : State} {pre : Wide} (hs : s.Sampling pre) (d : WReg) (k : Nat) {bs : List Fill}
    (hlen : pre.length + bs.length = s.cfg.limbs) (hne : bs ≠ []) (rest : List SrcEvent) :
    drive (bs.map .ok ++ rest) { job := .sample d, limb := pre.length, draws := k } s =
      (drawComplete { job := .sample d, limb := s.cfg.limbs - 1, draws := k }
        { s with source := rest, cand := pre ++ drawValue bs }).run := by
  have hactive : activeLimbs s.cfg.width = s.cfg.limbs := activeLimbs_width s.cfg
  have hfill : fillFrom s.cfg.width pre.length bs s.cand = pre ++ drawValue bs := by
    rw [hs.cand, fillFrom_width s.cfg bs _ rfl (by omega), show s.cfg.limbs - pre.length - bs.length = 0 by omega]
    exact List.append_nil _
  have hdraw := drive_draw bs rest { job := .sample d, limb := pre.length, draws := k } s hne (hlen.trans hactive.symm)
  rw [show Job.bits s.cfg (.sample d) = s.cfg.width from rfl, hactive, hfill] at hdraw
  exact hdraw

/-- A candidate below MOD is accepted (R166). -/
theorem drawComplete_accepts {s : State} (hlen : s.cand.length = s.mod.length) (hlt : wideVal s.cand < wideVal s.mod)
    (d : WReg) (i k : Nat) :
    drawComplete { job := .sample d, limb := i, draws := k } s = .done (sampleAccept d (k + 1) s) :=
  if_pos (by rw [wideLt_eq hlen, bitOf_eq_one_iff]; exact hlt)

/-- A candidate not below MOD is rejected (R166). -/
theorem drawComplete_rejects {s : State} (hlen : s.cand.length = s.mod.length) (hge : wideVal s.mod ≤ wideVal s.cand)
    (d : WReg) (i k : Nat) :
    drawComplete { job := .sample d, limb := i, draws := k } s = sampleHead d (k + 1) s :=
  if_neg (by rw [wideLt_eq hlen, bitOf_eq_one_iff]; exact Nat.not_lt.mpr hge)

/-- The last answers of a draw whose candidate is below MOD. -/
theorem drive_accepted {s : State} {pre : Wide} (hs : s.Sampling pre) (d : WReg) (k : Nat) {bs : List Fill}
    (hlen : pre.length + bs.length = s.cfg.limbs) (hne : bs ≠ [])
    (hlt : wideVal (pre ++ drawValue bs) < wideVal s.mod) (rest : List SrcEvent) :
    drive (bs.map .ok ++ rest) { job := .sample d, limb := pre.length, draws := k } s =
      sampleAccept d (k + 1) { s with source := rest, cand := pre ++ drawValue bs } := by
  have hcand : (pre ++ drawValue bs).length = s.mod.length := by
    rw [List.length_append, length_drawValue, hlen, hs.mod]
  rw [drive_sample_draw hs d k hlen hne, drawComplete_accepts hcand hlt]
  rfl

/-- The last answers of a draw whose candidate is not below MOD. -/
theorem drive_rejected {s : State} {pre : Wide} (hs : s.Sampling pre) (d : WReg) (k : Nat) {bs : List Fill}
    (hlen : pre.length + bs.length = s.cfg.limbs) (hne : bs ≠ [])
    (hge : wideVal s.mod ≤ wideVal (pre ++ drawValue bs)) (rest : List SrcEvent) :
    drive (bs.map .ok ++ rest) { job := .sample d, limb := pre.length, draws := k } s =
      (sampleHead d (k + 1) { s with source := rest, cand := pre ++ drawValue bs }).run := by
  have hcand : (pre ++ drawValue bs).length = s.mod.length := by
    rw [List.length_append, length_drawValue, hlen, hs.mod]
  rw [drive_sample_draw hs d k hlen hne, drawComplete_rejects hcand hge]

/-- The head of the loop with a draw left begins it with CAND cleared. -/
theorem sampleHead_run_of_ne {s : State} {k : Nat} (h : k ≠ s.cfg.maxAttempts) (d : WReg) :
    (sampleHead d k s).run =
      drive s.source { job := .sample d, limb := 0, draws := k } { s with cand := wideZero s.cfg.limbs } := by
  rw [sampleHead, if_neg h]
  rfl

/-- The head of the loop with no draw left ends in the fatal state (R167). -/
theorem sampleHead_run_of_eq {s : State} {k : Nat} (h : k = s.cfg.maxAttempts) (d : WReg) :
    (sampleHead d k s).run =
      { s with attempts := BitVec.ofNat 64 k, fatal := true, cstate := .fault }.finish false .retryExceeded 0#64 := by
  rw [sampleHead, if_pos h]
  rfl

/-! ## Whole draws -/

/-- A whole draw of LIMBS answers that is not below MOD. -/
def Rejects (s : State) (x : List Fill) : Prop := x.length = s.cfg.limbs ∧ wideVal s.mod ≤ wideVal (drawValue x)

/-- One rejected draw leads to the head of the loop. -/
theorem drive_rejected_draw {s : State} (hs : s.Sampling []) (d : WReg) (k : Nat) {x : List Fill} (hx : Rejects s x)
    (rest : List SrcEvent) :
    drive (x.map .ok ++ rest) { job := .sample d, limb := 0, draws := k } s =
      (sampleHead d (k + 1) { s with source := rest, cand := drawValue x }).run := by
  obtain ⟨hlen, hge⟩ := hx
  have hne : x ≠ [] := List.ne_nil_of_length_pos (hlen.symm ▸ hs.pos)
  exact drive_rejected hs d k ((Nat.zero_add _).trans hlen) hne hge rest

theorem scriptOf_cons (x : List Fill) (xs : List (List Fill)) : scriptOf (x :: xs) = x.map .ok ++ scriptOf xs := by
  simp [scriptOf]

theorem scriptOf_append (xs ys : List (List Fill)) : scriptOf (xs ++ ys) = scriptOf xs ++ scriptOf ys := by
  simp [scriptOf]

/-- Rejected draws below the ceiling count, and change nothing else (R166). -/
theorem drive_rejected_draws {s : State} (hs : s.Sampling []) (d : WReg) (rest : List SrcEvent)
    (xs : List (List Fill)) : ∀ k : Nat, (∀ x ∈ xs, Rejects s x) → k + xs.length < s.cfg.maxAttempts →
      drive (scriptOf xs ++ rest) { job := .sample d, limb := 0, draws := k } s =
        drive rest { job := .sample d, limb := 0, draws := k + xs.length } s := by
  induction xs with
  | nil => exact fun k _ _ => rfl
  | cons x xs ih =>
    intro k hx hk
    rw [List.length_cons] at hk
    have hcand : s.cand = wideZero s.cfg.limbs := hs.cand
    have hback : { s with source := scriptOf xs ++ rest, cand := wideZero s.cfg.limbs } =
        { s with source := scriptOf xs ++ rest } := by rw [← hcand]
    rw [scriptOf_cons, List.append_assoc, drive_rejected_draw hs d k (hx x List.mem_cons_self),
      sampleHead_run_of_ne (by exact Nat.ne_of_lt (by omega : k + 1 < s.cfg.maxAttempts))]
    simp only
    rw [hback, drive_source, ih (k + 1) (fun y hy => hx y (List.mem_cons_of_mem x hy)) (by omega), List.length_cons,
      show k + 1 + xs.length = k + (xs.length + 1) by omega]

/-- The state the first draw of a SAMPLE begins in. -/
def State.sampleStart (s : State) : State := { s with cstate := .sampling, cand := wideZero s.cfg.limbs }

theorem State.Ready.sampleStart_sampling {s : State} (hs : s.Ready) : s.sampleStart.Sampling [] := by
  obtain ⟨hpos, _⟩ := hs.inv.sound.cfg
  obtain ⟨_, _, _, _, hmod, _⟩ := hs.inv.sound.widths
  exact ⟨hpos, hmod, rfl⟩

/-- A SAMPLE that passes its checks makes its source transactions from its first draw on. -/
theorem State.Ready.exec_sample {s : State} (hs : s.Ready) {rd : BitVec 4} {d : WReg} (hd : selectW rd = some d)
    (hmodv : s.modv = true) :
    exec (.sample rd) s = .next (drive s.source { job := .sample d, limb := 0, draws := 0 } s.sampleStart) :=
  hs.exec_starts (.sample hd hmodv)

/-- Completing writes CSTATE, whatever it was (R212). -/
theorem State.Ready.complete_of_cstate {s s' : State} (hs : s.Ready) (h1 : s'.fatal = s.fatal)
    (h2 : s'.srcBusy = s.srcBusy) (h3 : s'.cstate = s.cstate) (h4 : s'.inflight = s.inflight) (cs : CState) (c : Status)
    (v : Limb) : State.complete { s' with cstate := cs } c v = s'.reporting c v :=
  (show State.complete { s' with cstate := cs } c v = s'.complete c v from rfl).trans (hs.complete_eq h1 h2 h3 h4 c v)

/-- Settles O43: the rejected draws count, and the first one below MOD is accepted. -/
theorem sampleAcceptsTheFirstDrawBelowTheModulus : Obligations.SampleAcceptsTheFirstDrawBelowTheModulus := by
  intro s rd d rejected accepted rest hs hmodv hd hrej hlen hlt hmax hsrc
  have hstart := hs.sampleStart_sampling
  have hne : accepted ≠ [] := List.ne_nil_of_length_pos (hlen.symm ▸ hstart.pos)
  have hscript : s.source = scriptOf rejected ++ (accepted.map .ok ++ rest) := by
    rw [hsrc, scriptOf_append, scriptOf_cons, List.append_assoc, List.append_assoc]
    rfl
  have hcount : 0 + rejected.length < s.sampleStart.cfg.maxAttempts := (Nat.zero_add _).symm ▸ hmax
  have haccept := drive_accepted hstart d (0 + rejected.length) ((Nat.zero_add _).trans hlen) hne hlt rest
  refine ⟨drawValue accepted, ?_⟩
  rw [hs.exec_sample hd hmodv, hscript, drive_rejected_draws hstart d _ rejected 0 hrej hcount]
  refine congrArg _ (haccept.trans ?_)
  rw [Nat.zero_add]
  exact hs.complete_of_cstate (s' := State.writeW { s with
    attempts := BitVec.ofNat 64 (rejected.length + 1), cand := drawValue accepted, source := rest } d (drawValue accepted))
    rfl rfl rfl rfl .accepted .ok 0#64

/-- Settles O44: the last of MAX_ATTEMPTS rejected draws leads to the head of the loop at the ceiling. -/
theorem sampleStopsAtTheRetryCeiling : Obligations.SampleStopsAtTheRetryCeiling := by
  intro s rd d draws rest hs hmodv hd hrej hmax hsrc
  have hstart := hs.sampleStart_sampling
  obtain ⟨_, hbusy, _, hi⟩ := hs.idle
  obtain ⟨_, _, hpos, _⟩ := hs.inv.sound.cfg
  obtain ⟨init, x, rfl⟩ : ∃ init x, draws = init ++ [x] :=
    ⟨_, _, (List.dropLast_append_getLast (List.ne_nil_of_length_pos (hmax ▸ hpos))).symm⟩
  rw [List.length_append, List.length_singleton] at hmax
  have hscript : s.source = scriptOf init ++ (x.map .ok ++ rest) := by
    rw [hsrc, scriptOf_append, scriptOf_cons, List.append_assoc, List.append_assoc]
    rfl
  have hx : Rejects s.sampleStart x := hrej x (by simp)
  have hinit : ∀ y ∈ init, Rejects s.sampleStart y := fun y hy => hrej y (by simp [hy])
  have hcount : 0 + init.length < s.sampleStart.cfg.maxAttempts := by
    show 0 + init.length < s.cfg.maxAttempts
    omega
  have hceiling : 0 + init.length + 1 = s.cfg.maxAttempts := by rw [Nat.zero_add, hmax]
  refine ⟨drawValue x, ?_⟩
  rw [hs.exec_sample hd hmodv, hscript, drive_rejected_draws hstart d _ init 0 hinit hcount,
    drive_rejected_draw hstart d _ hx, sampleHead_run_of_eq (by exact hceiling), hceiling]
  unfold State.finish State.reporting
  rw [hbusy, hi]
  rfl

/-- Settles O45: the rejected draws count, and the failing one does not. -/
theorem sampleStopsAtASourceFailure : Obligations.SampleStopsAtASourceFailure := by
  intro s rd d rejected part rest hs hmodv hd hrej hmax hpart hsrc
  have hstart := hs.sampleStart_sampling
  have hcount : 0 + rejected.length < s.sampleStart.cfg.maxAttempts := (Nat.zero_add _).symm ▸ hmax
  have hfill : 0 + part.length < activeLimbs s.cfg.width := by rwa [activeLimbs_width, Nat.zero_add]
  refine ⟨fillFrom s.cfg.width 0 part (wideZero s.cfg.limbs), ?_⟩
  rw [hs.exec_sample hd hmodv, hsrc, List.append_assoc, drive_rejected_draws hstart d _ rejected 0 hrej hcount,
    drive_fill part _ _ _ hfill, drive_fail, Nat.zero_add]
  exact congrArg _ (hs.complete_of_cstate (s' := { s with
    attempts := BitVec.ofNat 64 rejected.length
    cand := fillFrom s.cfg.width 0 part (wideZero s.cfg.limbs)
    source := rest }) rfl rfl rfl rfl .sampling .sourceFail 0#64)

/-! ## The candidate and its answers -/

/-- The eight bytes of a limb. -/
def fillOf (l : Limb) : Fill where
  b0 := l.extractLsb' 0 8
  b1 := l.extractLsb' 8 8
  b2 := l.extractLsb' 16 8
  b3 := l.extractLsb' 24 8
  b4 := l.extractLsb' 32 8
  b5 := l.extractLsb' 40 8
  b6 := l.extractLsb' 48 8
  b7 := l.extractLsb' 56 8

/-- An answer's limb as a number (R54). -/
theorem fillWord_toNat (b : Fill) :
    (fillWord b).toNat = b.b0.toNat + 2 ^ 8 * b.b1.toNat + 2 ^ 16 * b.b2.toNat + 2 ^ 24 * b.b3.toNat +
      2 ^ 32 * b.b4.toNat + 2 ^ 40 * b.b5.toNat + 2 ^ 48 * b.b6.toNat + 2 ^ 56 * b.b7.toNat := by
  simp only [fillWord, append_toNat_eq]
  ring

theorem fillWord_fillOf (l : Limb) : fillWord (fillOf l) = l := by
  apply BitVec.eq_of_toNat_eq
  have := l.isLt
  simp only [fillWord_toNat, fillOf, BitVec.extractLsb'_toNat, Nat.shiftRight_eq_div_pow]
  omega

theorem fillWord_injective : Function.Injective fillWord := by
  intro b b' h
  have hnat := congrArg BitVec.toNat h
  simp only [fillWord_toNat] at hnat
  cases b with | mk b0 b1 b2 b3 b4 b5 b6 b7
  cases b' with | mk c0 c1 c2 c3 c4 c5 c6 c7
  simp only [Fill.mk.injEq, ← BitVec.toNat_inj] at hnat ⊢
  omega

/-- Every number of WIDTH bits is a wide value. -/
theorem exists_wideVal_eq (n : Nat) : ∀ v, v < 2 ^ (64 * n) → ∃ x : Wide, x.length = n ∧ wideVal x = v := by
  induction n with
  | zero =>
    intro v hv
    exact ⟨[], rfl, by simp [wideVal]; omega⟩
  | succ n ih =>
    intro v hv
    have hdiv : v / 2 ^ 64 < 2 ^ (64 * n) := by
      rw [Nat.div_lt_iff_lt_mul (by decide), ← pow_add]
      exact hv
    obtain ⟨x, hlen, hval⟩ := ih (v / 2 ^ 64) hdiv
    refine ⟨BitVec.ofNat 64 v :: x, congrArg Nat.succ hlen, ?_⟩
    rw [wideVal, hval, BitVec.toNat_ofNat]
    exact Nat.mod_add_div v (2 ^ 64)

/-- Settles O47: a candidate's limbs are given by its value, and each limb by its answer's bytes. -/
theorem eachCandidateHasExactlyOneAnswerRun : Obligations.EachCandidateHasExactlyOneAnswerRun := by
  intro n v hv
  obtain ⟨x, hlen, hval⟩ := exists_wideVal_eq n v hv
  have hx : drawValue (x.map fillOf) = x := by
    rw [drawValue, List.map_map, show fillWord ∘ fillOf = id from funext fillWord_fillOf, List.map_id]
  refine ⟨x.map fillOf, ⟨(List.length_map _).trans hlen, by rw [hx, hval]⟩, ?_⟩
  rintro bs ⟨hbs, hbsval⟩
  apply List.map_injective_iff.mpr fillWord_injective
  show drawValue bs = drawValue (x.map fillOf)
  rw [hx]
  exact (wideVal_inj (by rw [length_drawValue, hbs, hlen])).mp (hbsval.trans hval.symm)

end Sys2Proof.Machine
end

section
/-! PROOF. The controller's table (spec/43_sampling.md R165): which states a step leads from and to, and the rows out of
SAMPLING. -/

namespace Sys2Proof.Machine

/-! ## CSTATE in the invariant -/

/-- A command in progress is in IDLE for GEN and in SAMPLING for SAMPLE (R165; log 9). -/
theorem State.Inv.cstate_of_inflight {s : State} (h : s.Inv) {f : InFlight} (hf : s.inflight = some f) :
    s.fatal = false ∧ (s.cstate = .idle ∨ s.cstate = .sampling ∧ ∃ d, f.job = .sample d) := by
  obtain ⟨hrun, _⟩ := h.running hf
  have hcs := hrun.cstate
  refine ⟨hrun.fatal, ?_⟩
  cases hjob : f.job with
  | gen d len => exact .inl (by rw [hcs, hjob])
  | sample d => exact .inr ⟨by rw [hcs, hjob], d, rfl⟩

/-- ACCEPTED is never seen between steps, and FAULT goes with FATAL (R36). -/
theorem State.Inv.cstate_spec {s : State} (h : s.Inv) :
    s.cstate ≠ .accepted ∧ (s.cstate = .fault ↔ s.fatal = true) := by
  cases hi : s.inflight with
  | none =>
    obtain ⟨_, _, _, _, _, hidle, _⟩ := h
    obtain ⟨_, hcs⟩ := hidle hi
    rw [hcs]
    cases s.fatal <;> simp
  | some f =>
    obtain ⟨hfatal, hcs | ⟨hcs, _⟩⟩ := h.cstate_of_inflight hi <;> simp [hfatal, hcs]

/-- SAMPLING is the state of a SAMPLE in progress (R165). -/
theorem State.Inv.inflight_of_sampling {s : State} (h : s.Inv) (hcs : s.cstate = .sampling) :
    ∃ f d, s.inflight = some f ∧ f.job = .sample d := by
  cases hi : s.inflight with
  | none =>
    obtain ⟨_, _, _, _, _, hidle, _⟩ := h
    obtain ⟨_, hcs'⟩ := hidle hi
    rw [hcs] at hcs'
    cases hf : s.fatal <;> simp [hf] at hcs'
  | some f =>
    obtain ⟨_, hcs' | ⟨_, d, hjob⟩⟩ := h.cstate_of_inflight hi
    · cases hcs.symm.trans hcs'
    · exact ⟨f, d, rfl, hjob⟩

/-! ## Steps into and out of SAMPLING -/

/-- A step that ends with a command waiting has drawn for it. -/
theorem drawsFor_of_waits {s t : State} (h : s.Inv) (hstep : step s = .next t) {f : InFlight}
    (ht : t.inflight = some f) : ∃ hs, s.DrawsFor hs f.job ∧ s.fatal = false := by
  cases step_end h hstep with
  | reset => cases ht
  | idle rest hi => cases hi.symm.trans ht
  | reports => cases ht
  | direct rest i hissues hf hdirect =>
    obtain ⟨hnone, _⟩ := hdirect.completes hf
    cases hnone.symm.trans ht
  | draws job hs hfor hf _ hh hend =>
    obtain ⟨f', rfl, e⟩ | ⟨hnone, _⟩ := hend.waits_or_completes hf
    · obtain rfl : f' = f := Option.some.inj ((congrArg State.inflight e).symm.trans ht)
      exact ⟨hs, hfor, hf⟩
    · cases hnone.symm.trans ht

/-- SAMPLING is entered by a SAMPLE that the host issues and that passes its checks, and kept by a SAMPLE alone (R165). -/
theorem step_to_sampling {s t : State} (h : s.Inv) (hstep : step s = .next t) (ht : t.cstate = .sampling) :
    (∃ d, s.RunsSample d) ∧
      (s.cstate ≠ .sampling →
        s.cstate = .idle ∧ s.modv = true ∧ ∃ rd d, s.Issues (.sample rd) ∧ selectW rd = some d) := by
  obtain ⟨f, d, hf, hjob⟩ := (everyStepKeepsTheInvariant s t h hstep).inflight_of_sampling ht
  obtain ⟨hs, hfor, hfatal⟩ := drawsFor_of_waits h hstep hf
  rw [hjob] at hfor
  refine ⟨⟨d, hfor.runsSample⟩, fun hne => ?_⟩
  obtain ⟨rd, hissues, hd⟩ | ⟨g, hg, hgjob⟩ := hfor.runsSample
  · obtain ⟨_, _, _, _, _, hidle, _⟩ := id h
    obtain ⟨_, hcs⟩ := hidle hissues.1
    exact ⟨hcs.trans (if_neg (Bool.eq_false_iff.mp hfatal)), hfor.modv h, rd, d, hissues, hd⟩
  · obtain ⟨hrun, _⟩ := h.running hg
    exact absurd (hrun.of_sample hgjob).2.2 hne

/-- SAMPLING is left for IDLE with OK or SOURCE_FAIL alone (R165). -/
theorem step_from_sampling {s t : State} (h : s.Inv) (hstep : step s = .next t) (hs : s.cstate = .sampling)
    (ht : t.cstate = .idle) (hreset : ¬ s.ResetNext) :
    t.inflight = none ∧
      (t.response = some { status := .ok, data := 0#64 } ∨ t.response = some { status := .sourceFail, data := 0#64 }) := by
  obtain ⟨f, d, hf, hjob⟩ := h.inflight_of_sampling hs
  cases step_end h hstep with
  | reset rest hh => exact absurd ⟨rest, hh⟩ hreset
  | idle rest hi => cases hi.symm.trans hf
  | reports c rest code v hi => cases hi.symm.trans hf
  | direct rest i hissues => exact absurd hf (hissues.inflight_ne f)
  | draws job hs hfor hfatal _ hh hend =>
    obtain rfl := hfor.eq_sample (.inr ⟨f, hf, hjob⟩)
    obtain ⟨_, _, e⟩ | ⟨hnone, code, hresp, _, hcode, hfatal'⟩ := hend.waits_or_completes hfatal
    · cases (congrArg State.cstate e).symm.trans ht
    · refine ⟨hnone, ?_⟩
      obtain rfl | rfl | rfl := hcode
      · exact .inl hresp
      · exact .inr hresp
      · have hfault := (everyStepKeepsTheInvariant s t h hstep).cstate_spec.2.mpr (hfatal'.mpr rfl)
        cases ht.symm.trans hfault

/-- A source that does not answer, for now or ever. -/
def Unanswered (src : List SrcEvent) : Prop := src = [] ∨ ∃ post, src = .pending :: post

/-- A command whose source does not answer waits. -/
theorem drive_unanswered {src : List SrcEvent} (h : Unanswered src) (f : InFlight) (s : State) :
    ∃ x, drive src f s = { s with source := x }.await f := by
  obtain rfl | ⟨post, rfl⟩ := h
  · exact ⟨_, drive_nil f s⟩
  · exact ⟨_, drive_pending post f s⟩

/-- A SAMPLE that passes its checks and waits for its first answer is in SAMPLING (R165). -/
theorem step_sample_unanswered {s t : State} (h : s.Inv) (hstep : step s = .next t) {rd : BitVec 4} {d : WReg}
    (hissues : s.Issues (.sample rd)) (hd : selectW rd = some d) (hmodv : s.modv = true) (hf : s.fatal = false)
    (hsrc : Unanswered s.source) : t.cstate = .sampling := by
  obtain ⟨hi, c, rest, hh, hdec⟩ := hissues
  have hexec := (h.taken_ready hi hf rest).exec_sample hd hmodv
  obtain ⟨x, hx⟩ := drive_unanswered hsrc { job := .sample d, limb := 0, draws := 0 } (s.taken rest).sampleStart
  have ht : t = { (s.taken rest).sampleStart with source := x }.await { job := .sample d, limb := 0, draws := 0 } := by
    refine Host.Outcome.next.inj (hstep.symm.trans ?_)
    rw [stepRunsTheDecodedInstruction s c rest _ hi hh hdec, ← hx]
    exact hexec
  rw [ht]
  rfl

/-! ## The rows out of SAMPLING -/

/-- A SAMPLE in progress with its answers up to limb `n` in CAND. -/
theorem State.Inv.sampling_of_inflight {s : State} (h : s.Inv) {d : WReg} {n k : Nat}
    (hf : s.inflight = some { job := .sample d, limb := n, draws := k }) :
    s.Sampling (s.cand.take n) ∧ (s.cand.take n).length = n ∧ n < s.cfg.limbs ∧ k < s.cfg.maxAttempts := by
  obtain ⟨hrun, _⟩ := h.running hf
  obtain ⟨_, hdraws, _⟩ := hrun.of_sample rfl
  obtain ⟨hpos, _⟩ := hrun.sound.cfg
  obtain ⟨_, _, _, _, hmod, hcand⟩ := hrun.sound.widths
  have hlimb : n < s.cfg.limbs := activeLimbs_width s.cfg ▸ hrun.limb
  have hlen : (s.cand.take n).length = n := by rw [List.length_take, hcand, Nat.min_eq_left hlimb.le]
  have hdrop : s.cand.drop n = wideZero (s.cfg.limbs - n) := by
    refine List.eq_replicate_iff.mpr ⟨by rw [List.length_drop, hcand], fun l hl => ?_⟩
    exact eq_of_beq (List.all_eq_true.mp hrun.unanswered l hl)
  refine ⟨⟨hpos, hmod, ?_⟩, hlen, hlimb, hdraws⟩
  rw [hlen, ← hdrop, List.take_append_drop]

/-- A step that goes on with a command in progress, for all but the host's moves. -/
theorem step_of_inflight {s t : State} (hstep : step s = .next t) {f : InFlight} (hf : s.inflight = some f)
    (hreset : ¬ s.ResetNext) : ∃ hs, t = drive s.source f { s with host := hs } := by
  have ht : t = waitingStep f s := by
    refine Host.Outcome.next.inj (hstep.symm.trans ?_)
    simp only [step, portStep, hf]
  obtain ⟨rest, hh, _⟩ | ⟨_, hs, _, e⟩ := waitingStep_cases f s
  · exact absurd ⟨rest, hh⟩ hreset
  · exact ⟨hs, ht.trans e⟩

section Rows

variable {s t : State} {d : WReg} {n k : Nat} {bs : List Fill} {rest : List SrcEvent} (h : s.Inv)
  (hstep : step s = .next t) (hf : s.inflight = some { job := .sample d, limb := n, draws := k })
  (hreset : ¬ s.ResetNext) (hsrc : s.source = bs.map .ok ++ rest)

include h hstep hf hreset hsrc

/-- The row of R165 for a candidate below MOD. -/
theorem row_accepted (hlen : n + bs.length = s.cfg.limbs)
    (hlt : wideVal (s.cand.take n ++ drawValue bs) < wideVal s.mod) :
    t.cstate = .idle ∧ t.response = some { status := .ok, data := 0#64 } ∧
      t.readW d = s.cand.take n ++ drawValue bs ∧ t.attempts.toNat = k + 1 ∧ t.source = rest := by
  obtain ⟨⟨hpos, hmod, hcand⟩, hn, hlimb, hdraws⟩ := h.sampling_of_inflight hf
  obtain ⟨hfatal, _⟩ := h.cstate_of_inflight hf
  obtain ⟨hs, ht⟩ := step_of_inflight hstep hf hreset
  have hne : bs ≠ [] := List.ne_nil_of_length_pos (by omega)
  have haccept := drive_accepted (s := { s with host := hs }) ⟨hpos, hmod, hcand⟩ d k
    (bs := bs) (hn.symm ▸ hlen) hne hlt rest
  rw [hn, ← hsrc] at haccept
  rw [ht.trans haccept]
  refine ⟨if_neg (Bool.eq_false_iff.mp hfatal), rfl, wfile_get_set_same _ _ _, h.sound.toNat_draws hdraws, rfl⟩

/-- The step up to the head of the loop, for a candidate not below MOD. -/
theorem step_rejected (hlen : n + bs.length = s.cfg.limbs)
    (hge : wideVal s.mod ≤ wideVal (s.cand.take n ++ drawValue bs)) :
    ∃ hs, t = (sampleHead d (k + 1) { s with
      host := hs, source := rest, cand := s.cand.take n ++ drawValue bs }).run := by
  obtain ⟨⟨hpos, hmod, hcand⟩, hn, hlimb, hdraws⟩ := h.sampling_of_inflight hf
  obtain ⟨hs, ht⟩ := step_of_inflight hstep hf hreset
  have hne : bs ≠ [] := List.ne_nil_of_length_pos (by omega)
  have hreject := drive_rejected (s := { s with host := hs }) ⟨hpos, hmod, hcand⟩ d k
    (bs := bs) (hn.symm ▸ hlen) hne hge rest
  rw [hn, ← hsrc] at hreject
  exact ⟨hs, ht.trans hreject⟩

/-- The row of R165 for a candidate not below MOD with a draw left: the next draw begins. -/
theorem row_rejected (hlen : n + bs.length = s.cfg.limbs)
    (hge : wideVal s.mod ≤ wideVal (s.cand.take n ++ drawValue bs)) (hk : k + 1 < s.cfg.maxAttempts)
    (hrest : Unanswered rest) :
    t.cstate = .sampling ∧ t.inflight = some { job := .sample d, limb := 0, draws := k + 1 } := by
  obtain ⟨hs, ht⟩ := step_rejected h hstep hf hreset hsrc hlen hge
  obtain ⟨hrun, _⟩ := h.running hf
  obtain ⟨_, _, hcs⟩ := hrun.of_sample rfl
  rw [sampleHead_run_of_ne (by exact Nat.ne_of_lt hk)] at ht
  obtain ⟨x, hx⟩ := drive_unanswered hrest { job := .sample d, limb := 0, draws := k + 1 }
    { s with host := hs, source := rest, cand := wideZero s.cfg.limbs }
  rw [show t = _ from ht.trans hx]
  exact ⟨hcs, rfl⟩

/-- The row of R165 for a candidate not below MOD that was the last draw. -/
theorem row_exhausted (hlen : n + bs.length = s.cfg.limbs)
    (hge : wideVal s.mod ≤ wideVal (s.cand.take n ++ drawValue bs)) (hk : k + 1 = s.cfg.maxAttempts) :
    t.cstate = .fault ∧ t.response = some { status := .retryExceeded, data := 0#64 } ∧ t.source = rest := by
  obtain ⟨hs, ht⟩ := step_rejected h hstep hf hreset hsrc hlen hge
  rw [sampleHead_run_of_eq (by exact hk)] at ht
  rw [ht]
  exact ⟨rfl, rfl, rfl⟩

/-- The row of R165 for a failing transaction. -/
theorem row_failed (hlen : n + bs.length < s.cfg.limbs) {post : List SrcEvent} (hrest : rest = .fail :: post) :
    t.cstate = .idle ∧ t.response = some { status := .sourceFail, data := 0#64 } ∧ t.attempts.toNat = k := by
  obtain ⟨_, _, _, hdraws⟩ := h.sampling_of_inflight hf
  obtain ⟨hfatal, _⟩ := h.cstate_of_inflight hf
  obtain ⟨hs, ht⟩ := step_of_inflight hstep hf hreset
  have hfill : n + bs.length < activeLimbs s.cfg.width := by rwa [activeLimbs_width]
  rw [hsrc, hrest, drive_fill bs _ _ _ (by exact hfill), drive_fail] at ht
  rw [ht]
  exact ⟨if_neg (Bool.eq_false_iff.mp hfatal), rfl, h.sound.toNat_draws hdraws.le⟩

end Rows

/-- Settles O52: the moves by what the invariant and the ways a step can end allow, the rows by the draw they complete. -/
theorem controllerMovesAreThoseOfTheTable : Obligations.ControllerMovesAreThoseOfTheTable := by
  intro s t h hstep
  obtain ⟨haccepted, hfault⟩ := (everyStepKeepsTheInvariant s t h hstep).cstate_spec
  obtain ⟨_, hfault'⟩ := h.cstate_spec
  refine ⟨haccepted, hfault, fun hs hreset => ?stays, fun ht hs => ?enters,
    fun ht => (step_to_sampling h hstep ht).1, fun _ ⟨rest, hh⟩ => ?reset,
    fun ht => (step_to_sampling h hstep ht).2,
    fun rd d hissues hd hmodv hf hsrc => step_sample_unanswered h hstep hissues hd hmodv hf hsrc,
    fun hs ht hreset => step_from_sampling h hstep hs ht hreset,
    fun d n k bs rest hf hreset hsrc => ⟨fun hlen hlt => ?_, fun hlen hge => ⟨fun hk hrest => ?_, fun hk => ?_⟩,
      fun hlen post hrest => ?_⟩⟩
  case stays => exact (h.step_keeps_fatal (hfault'.mp hs) hstep hreset).2
  case enters =>
    have hf : s.fatal = false := Bool.eq_false_iff.mpr fun hf => hs (hfault'.mpr hf)
    exact ((onlySampleSetsAndOnlyResetClearsFatal s t h hstep).1 hf (hfault.mp ht)).1
  case reset =>
    cases hstep.symm.trans (step_of_reset hh)
    rfl
  · exact row_accepted h hstep hf hreset hsrc hlen hlt
  · exact row_rejected h hstep hf hreset hsrc hlen hge hk hrest
  · exact row_exhausted h hstep hf hreset hsrc hlen hge hk
  · exact row_failed h hstep hf hreset hsrc hlen hrest

end Sys2Proof.Machine
end

section
/-! PROOF. The bounds on source transactions (spec/70_reset_and_hazards.md R251): each answer brings a command one transaction
closer to its end. -/

namespace Sys2Proof.Machine

/-- The source transactions a command in progress can still make (R251). -/
def InFlight.budget (c : Config) (f : InFlight) : Nat :=
  match f.job with
  | .gen _ len => activeLimbs len - f.limb
  | .sample _ => (c.maxAttempts - f.draws) * c.limbs - f.limb

/-- A command in progress can make at least one. -/
theorem State.Running.budget_pos {f : InFlight} {s : State} (h : s.Running f) : 1 ≤ f.budget s.cfg := by
  have hlimb := h.limb
  unfold InFlight.budget
  split
  case h_1 d len hjob =>
    rw [hjob] at hlimb
    exact Nat.sub_pos_of_lt hlimb
  case h_2 d hjob =>
    obtain ⟨_, hdraws, _⟩ := h.of_sample hjob
    rw [hjob, show Job.bits s.cfg (.sample d) = s.cfg.width from rfl, activeLimbs_width] at hlimb
    exact Nat.sub_pos_of_lt (hlimb.trans_le (Nat.le_mul_of_pos_left _ (Nat.sub_pos_of_lt hdraws)))

/-- An answer in the middle of a draw takes one off the budget. -/
theorem budget_next_limb (c : Config) (f : InFlight) (h : 1 ≤ f.budget c) :
    InFlight.budget c { f with limb := f.limb + 1 } + 1 = f.budget c := by
  unfold InFlight.budget at h ⊢
  split at h
  · rename_i hjob
    simp only [hjob]
    omega
  · rename_i hjob
    simp only [hjob]
    omega

/-- The answer that completes a rejected draw takes one off the budget. -/
theorem budget_next_draw (c : Config) (d : WReg) {n k : Nat} (hn : n + 1 = c.limbs) (hk : k < c.maxAttempts) :
    InFlight.budget c { job := .sample d, limb := 0, draws := k + 1 } + 1 =
      InFlight.budget c { job := .sample d, limb := n, draws := k } := by
  obtain ⟨m, hm⟩ : ∃ m, c.maxAttempts - k = m + 1 := ⟨c.maxAttempts - k - 1, by omega⟩
  have hm' : c.maxAttempts - (k + 1) = m := by omega
  simp only [InFlight.budget, hm, hm', Nat.succ_mul]
  omega

/-- An answer ends the command with a completion, or takes one off its budget. -/
theorem takeFill_next {f : InFlight} {s : State} (h : s.Running f) (b : Fill) :
    (∃ t, takeFill f b s = .done t ∧ t.response ≠ none) ∨
      ∃ f1 s1, takeFill f b s = .more f1 s1 ∧ f1.budget s.cfg + 1 = f.budget s.cfg := by
  obtain ⟨_, e⟩ | ⟨hlast, e⟩ := takeFill_cases f b s <;> rw [e]
  · exact .inr ⟨_, _, rfl, budget_next_limb s.cfg f h.budget_pos⟩
  · unfold drawComplete
    split
    case h_1 => exact .inl ⟨_, rfl, Option.some_ne_none _⟩
    case h_2 d hjob =>
      split
      case isTrue => exact .inl ⟨_, rfl, Option.some_ne_none _⟩
      case isFalse =>
        obtain ⟨_, e'⟩ | ⟨_, e'⟩ := sampleHead_cases d (f.draws + 1)
          { s with cand := s.cand.set f.limb (drawnLimb (f.job.bits s.cfg) f.limb b) } <;> rw [e']
        · exact .inl ⟨_, rfl, Option.some_ne_none _⟩
        · obtain ⟨_, hdraws, _⟩ := h.of_sample hjob
          have hlimb := h.limb
          cases f with | mk job limb draws
          cases hjob
          rw [show Job.bits s.cfg (.sample d) = s.cfg.width from rfl, activeLimbs_width] at hlast hlimb
          exact .inr ⟨_, _, rfl, budget_next_draw s.cfg d (Nat.le_antisymm hlimb hlast) hdraws⟩

/-- A command in progress whose source answers every request in its budget completes within it (R143, R251). -/
theorem drive_completes_within_budget (src : List SrcEvent) : ∀ (f : InFlight) (s : State), s.Running f →
    f.budget s.cfg ≤ src.length → SrcEvent.pending ∉ src.take (f.budget s.cfg) →
    (drive src f s).response ≠ none ∧ ∃ n, n ≤ f.budget s.cfg ∧ (drive src f s).source = src.drop n := by
  induction src with
  | nil =>
    intro f s h hlen
    exact absurd (h.budget_pos.trans hlen) (Nat.not_succ_le_zero 0)
  | cons e src ih =>
    intro f s h hlen hpend
    obtain ⟨m, hm⟩ : ∃ m, f.budget s.cfg = m + 1 := ⟨f.budget s.cfg - 1, by have := h.budget_pos; omega⟩
    rw [hm, List.take_succ_cons, List.mem_cons, not_or] at hpend
    rw [hm, List.length_cons] at hlen
    obtain ⟨hhead, htail⟩ := hpend
    cases e with
    | pending => exact absurd rfl hhead
    | fail =>
      rw [drive_fail]
      unfold sourceFailed
      split <;> exact ⟨Option.some_ne_none _, 1, hm ▸ Nat.le_add_left 1 m, rfl⟩
    | ok b =>
      have hrun : State.Running f { s with source := src } :=
        ⟨h.sound.drawn h.length_cand src, h.last, h.fatal, h.limb, h.unanswered, h.job⟩
      have hsrc := takeFill_source f b { s with source := src }
      have hfollows := takeFill_follows hrun b
      obtain ⟨t, ht, hresp⟩ | ⟨f1, s1, ht, hbudget⟩ := takeFill_next hrun b
      · rw [ht] at hsrc
        rw [drive_ok_done ht]
        exact ⟨hresp, 1, hm ▸ Nat.le_add_left 1 m, hsrc⟩
      · rw [ht] at hfollows
        obtain ⟨_, ⟨c, hs1⟩, hrun1⟩ := hfollows
        have hcfg : s1.cfg = s.cfg := by rw [hs1]; rfl
        have hbudget1 : f1.budget s1.cfg = m := by
          rw [hcfg]
          exact Nat.succ.inj (hbudget.trans hm)
        rw [drive_ok_more ht]
        obtain ⟨hresp, n, hn, hdrop⟩ := ih f1 s1 hrun1 (by omega) (hbudget1.symm ▸ htail)
        exact ⟨hresp, n + 1, by omega, hdrop⟩

/-- A command of a ready state whose source answers the `bound` requests it can make completes within them (R251). -/
theorem exec_completes_within {s : State} (hs : s.Ready) (i : Instr) {bound : Nat}
    (hbudget : ∀ f s0, Starts s i f s0 → f.budget s0.cfg ≤ bound) (hlen : bound ≤ s.source.length)
    (hpend : SrcEvent.pending ∉ s.source.take bound) :
    ∃ t n, exec i s = .next t ∧ t.response ≠ none ∧ n ≤ bound ∧ t.source = s.source.drop n := by
  obtain ⟨t, ht⟩ := exists_exec_next i s
  cases hs.exec_end ht with
  | refused e he => exact ⟨_, 0, ht, Option.some_ne_none _, Nat.zero_le _, rfl⟩
  | direct h =>
    obtain ⟨_, _, _, r, hr, _⟩ := h.completes hs.not_fatal
    obtain ⟨_, _, _, _, hsrc, _⟩ := h.frame
    exact ⟨t, 0, ht, by simp [hr], Nat.zero_le _, hsrc⟩
  | @draws f s0 h =>
    have hle := hbudget f s0 h
    have hpend' : SrcEvent.pending ∉ s.source.take (f.budget s0.cfg) := fun hmem =>
      hpend ((List.take_sublist_take_left hle).subset hmem)
    obtain ⟨hresp, n, hn, hdrop⟩ :=
      drive_completes_within_budget s.source f s0 (h.running hs) (hle.trans hlen) hpend'
    exact ⟨_, n, ht, hresp, hn.trans hle, hdrop⟩

/-- Settles O51: a GEN starts with its active limbs as its budget, a SAMPLE with LIMBS for each of MAX_ATTEMPTS draws. -/
theorem genAndSampleAreBounded : Obligations.GenAndSampleAreBounded := by
  refine fun s hs => ⟨fun rd len => exec_completes_within hs _ fun f s0 h => ?_,
    fun rd => exec_completes_within hs _ fun f s0 h => ?_⟩
  · cases h with
    | gen _ _ hlen =>
      show activeLimbs len.toNat - 0 ≤ s.cfg.limbs
      rw [← activeLimbs_width s.cfg]
      exact Nat.div_le_div_right (Nat.add_le_add_right hlen 63)
  · cases h
    exact Nat.le_refl _

end Sys2Proof.Machine
end

section
/-! PROOF. Waiting for an answer does not change what a command does (spec/42_random_bits.md R143, 60_exceptions.md R226): the
draws of a command read neither the record of the wait nor the script they are not given. -/

namespace Sys2Proof.Machine

/-- The state with another record of a wait and another script. -/
def State.marked (s : State) (busy : Bool) (g : Option InFlight) (r : Option Completion) (src : List SrcEvent) : State :=
  { s with srcBusy := busy, inflight := g, response := r, source := src }

/-- What an answer leads to, with another record of a wait and another script. -/
def Progress.marked (busy : Bool) (g : Option InFlight) (r : Option Completion) (src : List SrcEvent) :
    Progress → Progress
  | .more f s => .more f (s.marked busy g r src)
  | .done t => .done { t with source := src }

theorem sampleHead_marked (d : WReg) (k : Nat) (s : State) (busy : Bool) (g : Option InFlight) (r : Option Completion)
    (src : List SrcEvent) :
    sampleHead d k (s.marked busy g r src) = (sampleHead d k s).marked busy g r src := by
  unfold sampleHead
  rw [show (s.marked busy g r src).cfg = s.cfg from rfl]
  split <;> rfl

theorem drawComplete_marked (f : InFlight) (s : State) (busy : Bool) (g : Option InFlight) (r : Option Completion)
    (src : List SrcEvent) :
    drawComplete f (s.marked busy g r src) = (drawComplete f s).marked busy g r src := by
  unfold drawComplete
  rw [show (s.marked busy g r src).cand = s.cand from rfl, show (s.marked busy g r src).mod = s.mod from rfl]
  split
  · rfl
  · split
    · rfl
    · exact sampleHead_marked _ _ s busy g r src

/-- An answer looks at neither (R146, R166). -/
theorem takeFill_marked (f : InFlight) (b : Fill) (s : State) (busy : Bool) (g : Option InFlight)
    (r : Option Completion) (src : List SrcEvent) :
    takeFill f b (s.marked busy g r src) = (takeFill f b s).marked busy g r src := by
  unfold takeFill
  rw [show (s.marked busy g r src).cfg = s.cfg from rfl]
  dsimp only
  split
  · rfl
  · exact drawComplete_marked f { s with cand := s.cand.set f.limb (drawnLimb (f.job.bits s.cfg) f.limb b) } busy g r src

/-- The draws of a step look at neither. -/
theorem drive_marked (src : List SrcEvent) : ∀ (f : InFlight) (s : State) (busy : Bool) (g : Option InFlight)
    (r : Option Completion) (x : List SrcEvent), drive src f (s.marked busy g r x) = drive src f s := by
  induction src with
  | nil => exact fun _ _ _ _ _ _ => rfl
  | cons e src ih =>
    intro f s busy g r x
    cases e with
    | pending => rfl
    | fail =>
      rw [drive_fail, drive_fail]
      unfold sourceFailed
      split <;> rfl
    | ok b =>
      have hmarked := takeFill_marked f b { s with source := src } busy g r src
      have hsrc := takeFill_source f b { s with source := src }
      cases ht : takeFill f b { s with source := src } with
      | done t =>
        rw [ht] at hmarked hsrc
        have hself : { t with source := src } = t := by rw [← show t.source = src from hsrc]
        rw [drive_ok_done ht, drive_ok_done hmarked, hself]
      | more f1 s1 =>
        rw [ht] at hmarked
        rw [drive_ok_more ht, drive_ok_more hmarked, ih]

/-- A script is not the end of itself with an event before it. -/
theorem append_cons_ne {α : Type} (pre post : List α) (e : α) : pre ++ e :: post ≠ post := by
  intro h
  have := congrArg List.length h
  simp only [List.length_append, List.length_cons] at this
  omega

/-- Draws that stop at a `pending` event go on, from the state they leave, as if it had not been there. -/
theorem drive_resumes (pre post : List SrcEvent) : ∀ (f : InFlight) (s : State),
    (drive (pre ++ .pending :: post) f s).source = post →
    ∃ f1, (drive (pre ++ .pending :: post) f s).inflight = some f1 ∧
      ∀ tail, drive tail f1 (drive (pre ++ .pending :: post) f s) = drive (pre ++ tail) f s := by
  induction pre with
  | nil => exact fun f s _ => ⟨f, rfl, fun tail => drive_marked tail f s true (some f) none post⟩
  | cons e pre ih =>
    intro f s hpost
    cases e with
    | pending => exact absurd hpost (append_cons_ne pre post _)
    | fail =>
      refine absurd hpost ?_
      rw [List.cons_append, drive_fail]
      unfold sourceFailed
      split <;> exact append_cons_ne pre post _
    | ok b =>
      have hmarked (x : List SrcEvent) : takeFill f b { s with source := x } = _ :=
        takeFill_marked f b s s.srcBusy s.inflight s.response x
      cases ht : takeFill f b s with
      | done t =>
        rw [ht] at hmarked
        rw [List.cons_append, drive_ok_done (hmarked _)] at hpost
        exact absurd hpost (append_cons_ne pre post _)
      | more f1 s1 =>
        rw [ht] at hmarked
        have hgo (x : List SrcEvent) : drive (.ok b :: x) f s = drive x f1 s1 :=
          (drive_ok_more (hmarked x)).trans (drive_marked x f1 s1 ..)
        simp only [List.cons_append, hgo] at hpost ⊢
        exact ih f1 s1 hpost

/-- The draws of a command keep the host's script. -/
theorem State.Running.drive_host {f : InFlight} {s : State} (h : s.Running f) (src : List SrcEvent) :
    (drive src f s).host = s.host := by
  obtain ⟨_, _, _, _, _, hhost⟩ := (drive_end h src).frame
  exact hhost

/-- With no move of the host a command in progress takes up the script where it stands. -/
theorem step_of_waiting {s : State} {f : InFlight} (hf : s.inflight = some f) (hh : s.host = []) :
    step s = .next (drive s.source f s) := by
  simp only [step, portStep, waitingStep, hf, hh]

/-- A step after draws that stopped at a `pending` event leaves what they leave without it. -/
theorem step_after_pending {f : InFlight} {s : State} (h : s.Running f) (hh : s.host = []) {pre post : List SrcEvent}
    (hpost : (drive (pre ++ .pending :: post) f s).source = post) :
    step (drive (pre ++ .pending :: post) f s) = .next (drive (pre ++ post) f s) := by
  obtain ⟨f1, hf1, hresume⟩ := drive_resumes pre post f s hpost
  rw [step_of_waiting hf1 ((h.drive_host _).trans hh), hpost, hresume]

/-- Settles O39: the draws go on as they would have, and a step that waits changes what `waiting_step_frame` lists. -/
theorem waitingDoesNotChangeTheOutcome : Obligations.WaitingDoesNotChangeTheOutcome := by
  refine ⟨fun s u f pre post h hf hh hstep hpost => ?_, fun s t f h hstep ht => waiting_step_frame h hstep ht⟩
  have hdrive (x : List SrcEvent) : step { s with source := x } = .next (drive x f s) :=
    (step_of_waiting (s := { s with source := x }) hf hh).trans (congrArg _ (drive_source x x f s))
  obtain rfl : drive (pre ++ .pending :: post) f s = u := Host.Outcome.next.inj ((hdrive _).symm.trans hstep)
  rw [step_after_pending (h.running hf).1 hh hpost, hdrive]

/-- What a command starts to draw for does not depend on the script. -/
theorem Starts.with_source {s s0 : State} {i : Instr} {f : InFlight} (h : Starts s i f s0) (x : List SrcEvent) :
    Starts { s with source := x } i f { s0 with source := x } := by
  cases h with
  | gen hd hpos hlen => exact .gen (s := { s with source := x }) hd hpos hlen
  | sample hd hmodv => exact .sample (s := { s with source := x }) hd hmodv

/-- Settles O40: a command that does not draw leaves its script alone, and one that does goes on as it would have. -/
theorem startedCommandWaitsWithoutChangingTheOutcome : Obligations.StartedCommandWaitsWithoutChangingTheOutcome := by
  intro i s u pre post hs hh hexec hpost
  have hready (x : List SrcEvent) : State.Ready { s with source := x } := hs
  cases (hready _).exec_end hexec with
  | refused e he => exact absurd hpost (append_cons_ne pre post _)
  | direct h =>
    obtain ⟨_, _, _, _, hsrc, _⟩ := h.frame
    exact absurd (hsrc.symm.trans hpost) (append_cons_ne pre post _)
  | @draws f s0 h =>
    have hhost : s0.host = [] := by
      obtain ⟨cs, c, rfl⟩ := h.base
      exact hh
    have hstart := h.with_source (pre ++ post)
    rw [step_after_pending (h.running (hready _)) hhost hpost]
    exact (congrArg _ (drive_source _ _ f s0).symm).trans ((hready (pre ++ post)).exec_starts hstart).symm

end Sys2Proof.Machine
end

section
/-! PROOF. What a SAMPLE depends on (spec/43_sampling.md R170), and that no command depends on CAND (10_state.md R37). -/

namespace Sys2Proof.Machine

/-! ## Two runs of a SAMPLE -/

/-- Two states that look the same to the draws of a SAMPLE. -/
structure DrawsAlike (s s' : State) : Prop where
  cfg : s'.cfg = s.cfg
  mod : s'.mod = s.mod
  cand : s'.cand = s.cand
  fatal : s.fatal = false
  fatal' : s'.fatal = false

/-- Two states that a SAMPLE into `d` leaves with the same outcome. -/
structure EndsAlike (d : WReg) (t t' : State) : Prop where
  response : t'.response = t.response
  fatal : t'.fatal = t.fatal
  source : t'.source = t.source
  inflight : t'.inflight = t.inflight
  recorded : t.response ≠ none → t'.attempts = t.attempts ∧ t'.last = t.last
  result : t.response = some { status := .ok, data := 0#64 } → t'.readW d = t.readW d

/-- What two answers lead to when they lead to the same: a draw that goes on alike, or one outcome. -/
inductive ProgressAlike (d : WReg) : Progress → Progress → Prop where
  | more {f : InFlight} {s s' : State} (hjob : f.job = .sample d) (h : DrawsAlike s s') :
      ProgressAlike d (.more f s) (.more f s')
  | done {t t' : State} (h : EndsAlike d t t') : ProgressAlike d (.done t) (.done t')

/-- Completions with the same code from states with FATAL = 0 leave the same LAST. -/
theorem complete_last_alike {s s' : State} (h : s.fatal = false) (h' : s'.fatal = false) (c : Status) (v : Limb) :
    (s'.complete c v).last = (s.complete c v).last := by
  simp [h, h']

theorem sampleHead_alike {s s' : State} (h : DrawsAlike s s') (hsrc : s'.source = s.source) (d : WReg) (k : Nat) :
    ProgressAlike d (sampleHead d k s) (sampleHead d k s') := by
  unfold sampleHead
  by_cases hk : k = s.cfg.maxAttempts
  · rw [if_pos hk, if_pos (h.cfg.symm ▸ hk)]
    exact .done ⟨rfl, rfl, hsrc, rfl, fun _ => ⟨rfl, rfl⟩, nofun⟩
  · rw [if_neg hk, if_neg (h.cfg.symm ▸ hk)]
    exact .more rfl ⟨h.cfg, h.mod, congrArg (wideZero ·.limbs) h.cfg, h.fatal, h.fatal'⟩

theorem sampleAccept_alike {s s' : State} (h : DrawsAlike s s') (hsrc : s'.source = s.source) (d : WReg) (k : Nat) :
    EndsAlike d (sampleAccept d k s) (sampleAccept d k s') := by
  refine ⟨rfl, h.fatal'.trans h.fatal.symm, hsrc, rfl, fun _ => ⟨rfl, ?_⟩, fun _ => ?_⟩
  · exact complete_last_alike (s := State.writeW { s with cstate := .accepted, attempts := BitVec.ofNat 64 k } d s.cand)
      (s' := State.writeW { s' with cstate := .accepted, attempts := BitVec.ofNat 64 k } d s'.cand) h.fatal h.fatal' _ _
  · show (s'.w.set d s'.cand).get d = (s.w.set d s.cand).get d
    rw [wfile_get_set_same, wfile_get_set_same, h.cand]

theorem drawComplete_alike {f : InFlight} {d : WReg} (hjob : f.job = .sample d) {s s' : State} (h : DrawsAlike s s')
    (hsrc : s'.source = s.source) : ProgressAlike d (drawComplete f s) (drawComplete f s') := by
  simp only [drawComplete, hjob]
  rw [h.cand, h.mod]
  split
  · exact .done (sampleAccept_alike h hsrc d _)
  · exact sampleHead_alike h hsrc d _

/-- One answer to each. -/
theorem takeFill_alike {f : InFlight} {d : WReg} (hjob : f.job = .sample d) {s s' : State} (h : DrawsAlike s s')
    (hsrc : s'.source = s.source) (b : Fill) : ProgressAlike d (takeFill f b s) (takeFill f b s') := by
  have hset : DrawsAlike { s with cand := s.cand.set f.limb (drawnLimb (f.job.bits s.cfg) f.limb b) }
      { s' with cand := s'.cand.set f.limb (drawnLimb (f.job.bits s'.cfg) f.limb b) } :=
    ⟨h.cfg, h.mod, by rw [h.cfg, h.cand], h.fatal, h.fatal'⟩
  obtain ⟨hlimb, e⟩ | ⟨hlimb, e⟩ := takeFill_cases f b s <;>
    obtain ⟨hlimb', e'⟩ | ⟨hlimb', e'⟩ := takeFill_cases f b s' <;> rw [h.cfg] at hlimb' <;> rw [e, e']
  · exact .more hjob hset
  · omega
  · omega
  · exact drawComplete_alike hjob hset hsrc

/-- All the answers of a step, the same to each. -/
theorem drive_alike {d : WReg} (src : List SrcEvent) : ∀ (f : InFlight) (s s' : State), f.job = .sample d →
    DrawsAlike s s' → EndsAlike d (drive src f s) (drive src f s') := by
  have waits (x : List SrcEvent) (f : InFlight) {s s' : State} (h : DrawsAlike s s') :
      EndsAlike d ({ s with source := x }.await f) ({ s' with source := x }.await f) :=
    ⟨rfl, h.fatal'.trans h.fatal.symm, rfl, rfl, fun hne => absurd rfl hne, nofun⟩
  induction src with
  | nil => exact fun f s s' _ h => waits [] f h
  | cons e src ih =>
    intro f s s' hjob h
    cases e with
    | pending => exact waits src f h
    | fail =>
      rw [drive_fail, drive_fail, sourceFailed, sourceFailed, hjob]
      exact ⟨rfl, h.fatal'.trans h.fatal.symm, rfl, rfl,
        fun _ => ⟨rfl, complete_last_alike (by exact h.fatal) (by exact h.fatal') _ _⟩, nofun⟩
    | ok b =>
      have hgo := takeFill_alike (s := { s with source := src }) (s' := { s' with source := src }) hjob
        ⟨h.cfg, h.mod, h.cand, h.fatal, h.fatal'⟩ rfl b
      cases ht : takeFill f b { s with source := src } with
      | done t =>
        cases ht' : takeFill f b { s' with source := src } with
        | done t' =>
          rw [ht, ht'] at hgo
          rw [drive_ok_done ht, drive_ok_done ht']
          cases hgo with
          | done h => exact h
        | more => rw [ht, ht'] at hgo; cases hgo
      | more f1 s1 =>
        cases ht' : takeFill f b { s' with source := src } with
        | done => rw [ht, ht'] at hgo; cases hgo
        | more f1' s1' =>
          rw [ht, ht'] at hgo
          rw [drive_ok_more ht, drive_ok_more ht']
          cases hgo with
          | more hjob h => exact ih f1 s1 s1' hjob h

/-- Settles O48: the first draw of each run begins alike. -/
theorem sampleDependsOnModulusCeilingAndSource : Obligations.SampleDependsOnModulusCeilingAndSource := by
  intro s s' t t' rd d hs hs' hmodv hmodv' hcfg hmod hsrc hd ht ht'
  obtain rfl := Host.Outcome.next.inj ((hs.exec_sample hd hmodv).symm.trans ht)
  obtain rfl := Host.Outcome.next.inj ((hs'.exec_sample hd hmodv').symm.trans ht')
  rw [hsrc]
  have hcand : wideZero s'.cfg.limbs = wideZero s.cfg.limbs := by rw [hcfg]
  have hstart : DrawsAlike s.sampleStart s'.sampleStart := ⟨hcfg, hmod, hcand, hs.not_fatal, hs'.not_fatal⟩
  obtain ⟨hresp, hfatal, hsource, hinflight, hrec, hresult⟩ := drive_alike (d := d) s.source
    { job := .sample d, limb := 0, draws := 0 } _ _ rfl hstart
  exact ⟨hresp, hfatal, hsource, hinflight, hrec, hresult⟩

/-! ## CAND between commands -/

/-- The same state but for CAND. -/
def SameButCand (t t' : State) : Prop := { t' with cand := t.cand } = t

theorem SameButCand.refl (t : State) : SameButCand t t := rfl

/-- A completion keeps CAND as it is. -/
theorem SameButCand.complete (s : State) (x : Wide) (c : Status) (v : Limb) :
    SameButCand (s.complete c v) (State.complete { s with cand := x } c v) := rfl

section Checks

variable (s : State) (x : Wide)

/-- No check of R80 looks at CAND: each passes both runs, or refuses both. -/
theorem unlessFatal_sameButCand {run run' : State} (h : SameButCand run run') :
    SameButCand (unlessFatal s run) (unlessFatal { s with cand := x } run') := by
  unfold unlessFatal
  split
  · exact .complete s x _ _
  · exact h

theorem withReg_sameButCand (r : BitVec 4) {run run' : WReg → State} (h : ∀ d, SameButCand (run d) (run' d)) :
    SameButCand (withReg s r run) (withReg { s with cand := x } r run') := by
  unfold withReg
  split
  · exact h _
  · exact .complete s x _ _

theorem withLimbIndex_sameButCand (idx : BitVec 16) {run run' : Nat → State} (h : ∀ k, SameButCand (run k) (run' k)) :
    SameButCand (withLimbIndex s idx run) (withLimbIndex { s with cand := x } idx run') := by
  unfold withLimbIndex
  dsimp only
  split
  · exact h _
  · exact .complete s x _ _

theorem withLength_sameButCand (len : BitVec 16) {run run' : Nat → State} (h : ∀ n, SameButCand (run n) (run' n)) :
    SameButCand (withLength s len run) (withLength { s with cand := x } len run') := by
  unfold withLength
  dsimp only
  split
  · exact h _
  · exact .complete s x _ _

theorem withCsr_sameButCand (csr : BitVec 16) {run run' : Limb → State} (h : ∀ v, SameButCand (run v) (run' v)) :
    SameButCand (withCsr s csr run) (withCsr { s with cand := x } csr run') := by
  unfold withCsr
  rw [show csrRead csr { s with cand := x } = csrRead csr s from rfl]
  split
  · exact h _
  · exact .complete s x _ _

theorem withWritableCsr_sameButCand (csr : BitVec 16) {run run' : State} (h : SameButCand run run') :
    SameButCand (withWritableCsr s csr run) (withWritableCsr { s with cand := x } csr run') := by
  unfold withWritableCsr
  split
  · exact h
  · exact .complete s x _ _

theorem withModulus_sameButCand {run run' : State} (h : SameButCand run run') :
    SameButCand (withModulus s run) (withModulus { s with cand := x } run') := by
  unfold withModulus
  dsimp only
  split
  · exact h
  · exact .complete s x _ _

end Checks

/-- The head of SAMPLE's loop clears CAND, or completes. -/
theorem sampleHead_run_sameButCand (d : WReg) (k : Nat) (s : State) (x : Wide) :
    SameButCand (sampleHead d k s).run (sampleHead d k { s with cand := x }).run := by
  unfold sampleHead
  dsimp only
  split
  · rfl
  · exact .refl _

/-- Settles O50: the checks do not look at CAND, a draw begins by clearing it, and all else leaves it alone. -/
theorem candidateRegisterIsUnobservable : Obligations.CandidateRegisterIsUnobservable := by
  intro i s x
  have next {run run' : State} (h : SameButCand run run') : ∃ t t', Host.Outcome.next (φ := Fault) (ρ := Refusal) run = .next t ∧
      Host.Outcome.next (φ := Fault) (ρ := Refusal) run' = .next t' ∧ { t' with cand := t.cand } = t :=
    ⟨run, run', rfl, rfl, h⟩
  cases i with
  | wrl rd idx data =>
    exact next (unlessFatal_sameButCand s x (withReg_sameButCand s x rd fun _ =>
      withLimbIndex_sameButCand s x idx fun _ => rfl))
  | rdl ra idx =>
    exact next (unlessFatal_sameButCand s x (withReg_sameButCand s x ra fun _ =>
      withLimbIndex_sameButCand s x idx fun _ => rfl))
  | clr rd => exact next (unlessFatal_sameButCand s x (withReg_sameButCand s x rd fun _ => rfl))
  | mov rd ra =>
    exact next (unlessFatal_sameButCand s x (withReg_sameButCand s x rd fun _ =>
      withReg_sameButCand s x ra fun _ => rfl))
  | sub rd ra rb =>
    exact next (unlessFatal_sameButCand s x (withReg_sameButCand s x rd fun _ =>
      withReg_sameButCand s x ra fun _ => withReg_sameButCand s x rb fun _ => rfl))
  | sbb rd ra rb =>
    exact next (unlessFatal_sameButCand s x (withReg_sameButCand s x rd fun _ =>
      withReg_sameButCand s x ra fun _ => withReg_sameButCand s x rb fun _ => rfl))
  | lt ra rb =>
    exact next (unlessFatal_sameButCand s x (withReg_sameButCand s x ra fun _ =>
      withReg_sameButCand s x rb fun _ => rfl))
  | gt ra rb =>
    exact next (unlessFatal_sameButCand s x (withReg_sameButCand s x ra fun _ =>
      withReg_sameButCand s x rb fun _ => rfl))
  | eq ra rb =>
    exact next (unlessFatal_sameButCand s x (withReg_sameButCand s x ra fun _ =>
      withReg_sameButCand s x rb fun _ => rfl))
  | setmod ra =>
    refine next (unlessFatal_sameButCand s x (withReg_sameButCand s x ra fun a => ?_))
    rw [show State.readW { s with cand := x } a = s.readW a from rfl]
    split <;> rfl
  | rdmod idx => exact next (unlessFatal_sameButCand s x (withLimbIndex_sameButCand s x idx fun _ => rfl))
  | gen rd len =>
    refine next (unlessFatal_sameButCand s x (withReg_sameButCand s x rd fun d =>
      withLength_sameButCand s x len fun n => ?_))
    split
    · rfl
    · exact .refl _
  | sample rd =>
    exact next (unlessFatal_sameButCand s x (withReg_sameButCand s x rd fun d =>
      withModulus_sameButCand s x (sampleHead_run_sameButCand d 0 { s with cstate := .sampling } x)))
  | rdcsr csr => exact next (withCsr_sameButCand s x csr fun _ => rfl)
  | wrcsr csr data =>
    exact next (unlessFatal_sameButCand s x (withCsr_sameButCand s x csr fun _ =>
      withWritableCsr_sameButCand s x csr rfl))

end Sys2Proof.Machine
end

section
/-! PROOF. Subtraction over several registers (spec/40_subtract.md R108): the borrow of each link goes into the next, and the
links' equations add up. -/

namespace Sys2Proof.Machine

/-! ## The sum of the links -/

/-- Links that hand on their borrow subtract the numbers their operands are limbs of. -/
theorem chain_sum (width : Nat) (x y z : Nat → Wide) (c : Nat → Nat) (k : Nat)
    (h : ∀ i, i < k → wideVal (z i) + wideVal (y i) + c i = wideVal (x i) + 2 ^ width * c (i + 1)) :
    chainValue width z k + chainValue width y k + c 0 = chainValue width x k + 2 ^ (width * k) * c k := by
  induction k with
  | zero => simp
  | succ k ih =>
    have hlow := ih fun i hi => h i (Nat.lt_succ_of_lt hi)
    have hlink := h k (Nat.lt_succ_self k)
    have hpow : 2 ^ (width * (k + 1)) = 2 ^ (width * k) * 2 ^ width := by rw [Nat.mul_succ, pow_add]
    simp only [chainValue_succ, hpow]
    linear_combination hlow + 2 ^ (width * k) * hlink

/-- A number held in `k` values of `width` bits. -/
theorem chainValue_lt (width : Nat) (x : Nat → Wide) (k : Nat) (h : ∀ i, i < k → wideVal (x i) < 2 ^ width) :
    chainValue width x k < 2 ^ (width * k) := by
  induction k with
  | zero => simp
  | succ k ih =>
    have hlow := ih fun i hi => h i (Nat.lt_succ_of_lt hi)
    have htop : 2 ^ (width * k) * (wideVal (x k) + 1) ≤ 2 ^ (width * k) * 2 ^ width :=
      Nat.mul_le_mul_left _ (h k (Nat.lt_succ_self k))
    rw [chainValue_succ, Nat.mul_succ width, pow_add]
    rw [Nat.mul_succ] at htop
    omega

/-- A difference with its borrow, modulo `2 ^ n`. -/
theorem difference_of_sum {x y z c n : Nat} (h : z + y = x + 2 ^ n * c) (hz : z < 2 ^ n) :
    (z : Int) = ((x : Int) - y) % 2 ^ n := by
  have hdiff : (x : Int) - y = z + 2 ^ n * -(c : Int) := by
    have : ((z + y : Nat) : Int) = (x + 2 ^ n * c : Nat) := congrArg Nat.cast h
    push_cast at this
    linear_combination -this
  rw [hdiff, Int.add_mul_emod_self_left, Int.emod_eq_of_lt (Int.natCast_nonneg z) (by exact_mod_cast hz)]

/-- A flag that is all ones or zero tells whether the difference is negative. -/
theorem flag_of_sum {x y z n : Nat} {f : Limb} (hf : f = ones64 ∨ f = 0#64) (h : z + y = x + 2 ^ n * borrowIn f)
    (hz : z < 2 ^ n) : f = if x < y then ones64 else 0#64 := by
  obtain rfl | rfl := hf
  · rw [borrowIn_ones] at h
    exact (if_pos (by omega)).symm
  · rw [borrowIn_zero] at h
    exact (if_neg (by omega)).symm

/-! ## One link -/

/-- What one link of a chain does: from `s` to `t`, with the flag `f` coming in. -/
structure Link (s : State) (f : Limb) (a b d : WReg) (t : State) : Prop where
  result : t.readW d = (wideSbb (s.readW a) (s.readW b) f).1
  borrow : t.borrow = (wideSbb (s.readW a) (s.readW b) f).2

/-- A link as an equation of numbers (R105). -/
theorem Link.sum {s t : State} {f : Limb} {a b d : WReg} (hs : s.Inv) (h : Link s f a b d t) :
    wideVal (t.readW d) + wideVal (s.readW b) + borrowIn f =
      wideVal (s.readW a) + 2 ^ s.cfg.width * borrowIn t.borrow := by
  have hlen : (s.readW a).length = (s.readW b).length := (hs.length_readW a).trans (hs.length_readW b).symm
  obtain ⟨_, hval⟩ := wideSbb_spec f hlen
  rw [hs.length_readW a] at hval
  rw [h.result, h.borrow]
  exact hval

/-- A link's result has WIDTH bits. -/
theorem Link.lt {s t : State} {f : Limb} {a b d : WReg} (hs : s.Inv) (h : Link s f a b d t) :
    wideVal (t.readW d) < 2 ^ s.cfg.width := by
  have := wideVal_lt (wideSbb (s.readW a) (s.readW b) f).1
  rwa [hs.sound.length_wideSbb, ← h.result] at this

/-- A link's flag is all ones or zero (R102). -/
theorem Link.flag {s t : State} {f : Limb} {a b d : WReg} (hs : s.Inv) (h : Link s f a b d t) :
    t.borrow = ones64 ∨ t.borrow = 0#64 := by
  rw [h.borrow]
  exact wideSbb_flag f (hs.length_readW a ▸ hs.sound.cfg.1) ((hs.length_readW a).trans (hs.length_readW b).symm)

/-- SUB is a link with no borrow coming in (R106). -/
theorem Direct.link_of_sub {s t : State} {rd ra rb : BitVec 4} {d a b : WReg} (h : Direct s (.sub rd ra rb) t)
    (hd : selectW rd = some d) (ha : selectW ra = some a) (hb : selectW rb = some b) : Link s 0#64 a b d t := by
  cases h with
  | sub hd' ha' hb' =>
    cases hd.symm.trans hd'
    cases ha.symm.trans ha'
    cases hb.symm.trans hb'
    exact ⟨wfile_get_set_same _ _ _, rfl⟩

/-- SBB is a link with BORROW coming in (R107). -/
theorem Direct.link_of_sbb {s t : State} {rd ra rb : BitVec 4} {d a b : WReg} (h : Direct s (.sbb rd ra rb) t)
    (hd : selectW rd = some d) (ha : selectW ra = some a) (hb : selectW rb = some b) : Link s s.borrow a b d t := by
  cases h with
  | sbb hd' ha' hb' =>
    cases hd.symm.trans hd'
    cases ha.symm.trans ha'
    cases hb.symm.trans hb'
    exact ⟨wfile_get_set_same _ _ _, rfl⟩

/-! ## Two registers -/

/-- SUB, then SBB, on two registers each. -/
theorem sub_then_sbb {s : State} (hs : s.Ready) {r0 p0 q0 r1 p1 q1 : BitVec 4} {d0 a0 b0 d1 a1 b1 : WReg}
    (hr0 : selectW r0 = some d0) (hp0 : selectW p0 = some a0) (hq0 : selectW q0 = some b0)
    (hr1 : selectW r1 = some d1) (hp1 : selectW p1 = some a1) (hq1 : selectW q1 = some b1)
    (ha : d0 ≠ a1) (hb : d0 ≠ b1) (hd : d0 ≠ d1) :
    ∃ t u, exec (.sub r0 p0 q0) s = .next t ∧ exec (.sbb r1 p1 q1) t = .next u ∧ t.Inv ∧ t.cfg = s.cfg ∧
      Link s 0#64 a0 b0 d0 t ∧ Link t t.borrow a1 b1 d1 u ∧ u.readW d0 = t.readW d0 ∧
      t.readW a1 = s.readW a1 ∧ t.readW b1 = s.readW b1 := by
  obtain ⟨t, ht⟩ : ∃ t, Direct s (.sub r0 p0 q0) t := ⟨_, .sub hr0 hp0 hq0⟩
  obtain ⟨u, hu⟩ : ∃ u, Direct t (.sbb r1 p1 q1) u := ⟨_, .sbb hr1 hp1 hq1⟩
  obtain ⟨hcfg, hfatal, _⟩ := ht.frame
  have other {r : BitVec 4} {d q : WReg} (hr : selectW r = some d) (hne : d ≠ q) (r' : BitVec 4)
      (hr' : some r = some r') : selectW r' ≠ some q := by
    obtain rfl := Option.some.inj hr'
    exact fun h => hne (Option.some.inj (hr.symm.trans h))
  exact ⟨t, u, ht.exec_eq hs.not_fatal, hu.exec_eq (hfatal.trans hs.not_fatal), ht.inv hs.inv.sound hs.not_fatal, hcfg,
    ht.link_of_sub hr0 hp0 hq0, hu.link_of_sbb hr1 hp1 hq1, hu.readW_eq (other hr1 hd.symm), ht.readW_eq (other hr0 ha),
    ht.readW_eq (other hr0 hb)⟩

/-! ## A chain of any length -/

/-- Steps that do not write BORROW keep it, the parameters and the invariant. -/
theorem stepsKeepBorrow_keeps {n : Nat} {s t : State} (h : StepsKeepBorrow n s t) (hs : s.Inv) :
    t.Inv ∧ t.borrow = s.borrow ∧ t.cfg = s.cfg := by
  refine StepsKeepBorrow.induction (P := fun u => u.Inv ∧ u.borrow = s.borrow ∧ u.cfg = s.cfg) ?_ n s t h
    ⟨hs, rfl, rfl⟩
  rintro v u ⟨hv, hborrow, hcfg⟩ hreset hwrites hstep
  obtain ⟨hcfg', _⟩ := wideRegistersChangeOnlyThroughTheirOwnNumber v u hv hstep
  refine ⟨everyStepKeepsTheInvariant v u hv hstep, ?_, hcfg'.trans hcfg⟩
  by_contra hne
  obtain hr | ⟨i, hissues, hi⟩ := borrow_changes hv hstep fun he => hne (he.trans hborrow)
  · exact hreset hr
  · exact Bool.false_ne_true ((hwrites i hissues).symm.trans hi)

/-- A step that issues a SUB or SBB is that command on the state it is taken in. -/
theorem step_direct {s t : State} (hf : s.fatal = false) {i : Instr} (hissues : s.Issues i) (hstep : step s = .next t)
    {u : List HostMove → State} (h : ∀ rest, Direct (s.taken rest) i (u rest)) :
    ∃ rest, Direct (s.taken rest) i t := by
  obtain ⟨hi, c, rest, hh, hd⟩ := hissues
  have hexec := (h rest).exec_eq hf
  obtain rfl : u rest = t :=
    Host.Outcome.next.inj (((stepRunsTheDecodedInstruction s c rest i hi hh hd).trans hexec).symm.trans hstep)
  exact ⟨rest, h rest⟩

/-- A step that issues a SUB is a link with no borrow coming in. -/
theorem step_sub_link {s t : State} {rd ra rb : BitVec 4} {d a b : WReg} (hf : s.fatal = false)
    (hd : selectW rd = some d) (ha : selectW ra = some a) (hb : selectW rb = some b)
    (hissues : s.Issues (.sub rd ra rb)) (hstep : step s = .next t) : Link s 0#64 a b d t := by
  obtain ⟨rest, h⟩ := step_direct hf hissues hstep fun rest => .sub (s := s.taken rest) hd ha hb
  obtain ⟨hresult, hborrow⟩ := h.link_of_sub hd ha hb
  exact ⟨hresult, hborrow⟩

/-- A step that issues an SBB is a link with BORROW coming in. -/
theorem step_sbb_link {s t : State} {rd ra rb : BitVec 4} {d a b : WReg} (hf : s.fatal = false)
    (hd : selectW rd = some d) (ha : selectW ra = some a) (hb : selectW rb = some b)
    (hissues : s.Issues (.sbb rd ra rb)) (hstep : step s = .next t) : Link s s.borrow a b d t := by
  obtain ⟨rest, h⟩ := step_direct hf hissues hstep fun rest => .sbb (s := s.taken rest) hd ha hb
  obtain ⟨hresult, hborrow⟩ := h.link_of_sbb hd ha hb
  exact ⟨hresult, hborrow⟩

/-- The flag that comes into link `i` of a chain whose links leave the states `mid`. -/
def chainFlag (mid : Nat → State) : Nat → Limb
  | 0 => 0#64
  | i + 1 => (mid i).borrow

/-- A chain of links that hand on their flags, in one configuration. -/
theorem chain_of_links {k : Nat} {st mid : Nat → State} {d a b : Nat → WReg} (hk : 1 ≤ k)
    (hinv : ∀ i, i < k → (st i).Inv) (hcfg : ∀ i, i < k → (st i).cfg = (st 0).cfg)
    (hlink : ∀ i, i < k → Link (st i) (chainFlag mid i) (a i) (b i) (d i) (mid i)) :
    (chainValue (st 0).cfg.width (fun i => (mid i).readW (d i)) k : Int) =
        ((chainValue (st 0).cfg.width (fun i => (st i).readW (a i)) k : Int) -
          chainValue (st 0).cfg.width (fun i => (st i).readW (b i)) k) % 2 ^ ((st 0).cfg.width * k) ∧
      (mid (k - 1)).borrow =
        if chainValue (st 0).cfg.width (fun i => (st i).readW (a i)) k <
            chainValue (st 0).cfg.width (fun i => (st i).readW (b i)) k then ones64 else 0#64 := by
  have hsum := chain_sum (st 0).cfg.width (fun i => (st i).readW (a i)) (fun i => (st i).readW (b i))
    (fun i => (mid i).readW (d i)) (fun i => borrowIn (chainFlag mid i)) k
    fun i hi => hcfg i hi ▸ (hlink i hi).sum (hinv i hi)
  simp only [chainFlag, borrowIn_zero, Nat.add_zero] at hsum
  have hlt := chainValue_lt (st 0).cfg.width (fun i => (mid i).readW (d i)) k
    fun i hi => hcfg i hi ▸ (hlink i hi).lt (hinv i hi)
  obtain ⟨j, rfl⟩ : ∃ j, k = j + 1 := ⟨k - 1, by omega⟩
  have hlast := (hlink j (Nat.lt_succ_self j)).flag (hinv j (Nat.lt_succ_self j))
  exact ⟨difference_of_sum hsum hlt, flag_of_sum hlast hsum hlt⟩

/-- Settles O20: two links by adding their equations, a chain by `chain_of_links`. -/
theorem subThenSbbSubtractsTwoRegisterValues : Obligations.SubThenSbbSubtractsTwoRegisterValues := by
  refine ⟨fun s r0 p0 q0 r1 p1 q1 d0 a0 b0 d1 a1 b1 hs hr0 hp0 hq0 hr1 hp1 hq1 ha hb hd => ?two,
    fun k st mid rd ra rb d a b hk hlinks hbetween => ?chain⟩
  case two =>
    obtain ⟨t, u, ht, hu, hinv, hcfg, hlow, hhigh, hd0, ha1, hb1⟩ := sub_then_sbb hs hr0 hp0 hq0 hr1 hp1 hq1 ha hb hd
    have hsum0 := hlow.sum hs.inv
    have hsum1 := hhigh.sum hinv
    have hlt0 := hlow.lt hs.inv
    have hlt1 := hhigh.lt hinv
    rw [hcfg] at hsum1 hlt1
    rw [ha1, hb1] at hsum1
    have hpow : 2 ^ (2 * s.cfg.width) = 2 ^ s.cfg.width * 2 ^ s.cfg.width := by rw [two_mul, pow_add]
    have hsum : wideVal (u.readW d0) + 2 ^ s.cfg.width * wideVal (u.readW d1) +
        (wideVal (s.readW b0) + 2 ^ s.cfg.width * wideVal (s.readW b1)) =
        wideVal (s.readW a0) + 2 ^ s.cfg.width * wideVal (s.readW a1) + 2 ^ (2 * s.cfg.width) * borrowIn u.borrow := by
      rw [hd0, hpow]
      rw [borrowIn_zero] at hsum0
      linear_combination hsum0 + 2 ^ s.cfg.width * hsum1
    have hlt : wideVal (u.readW d0) + 2 ^ s.cfg.width * wideVal (u.readW d1) < 2 ^ (2 * s.cfg.width) := by
      rw [hd0, hpow]
      nlinarith
    exact ⟨t, u, ht, hu, difference_of_sum hsum hlt, flag_of_sum (hhigh.flag hinv) hsum hlt⟩
  case chain =>
    have between (i : Nat) (hi : i + 1 < k) :
        (st (i + 1)).borrow = (mid i).borrow ∧ (st (i + 1)).cfg = (st i).cfg := by
      obtain ⟨hinv, _, _, _, _, _, hstep⟩ := hlinks i (by omega)
      obtain ⟨n, hn⟩ := hbetween i hi
      obtain ⟨_, hborrow, hcfg⟩ := stepsKeepBorrow_keeps hn (everyStepKeepsTheInvariant _ _ hinv hstep)
      obtain ⟨hcfg', _⟩ := wideRegistersChangeOnlyThroughTheirOwnNumber _ _ hinv hstep
      exact ⟨hborrow, hcfg.trans hcfg'⟩
    have hcfg (i : Nat) : i < k → (st i).cfg = (st 0).cfg := by
      induction i with
      | zero => exact fun _ => rfl
      | succ i ih => exact fun hi => (between i hi).2.trans (ih (by omega))
    refine chain_of_links hk (fun i hi => (hlinks i hi).1) hcfg fun i hi => ?_
    obtain ⟨_, hf, hd, ha, hb, hissues, hstep⟩ := hlinks i hi
    cases i with
    | zero => exact step_sub_link hf hd ha hb hissues hstep
    | succ i =>
      rw [chainFlag, ← (between i hi).1]
      exact step_sbb_link hf hd ha hb hissues hstep

end Sys2Proof.Machine
end

section
/-! PROOF. The pseudo-instructions (spec/30_encoding.md R82): LDW as the run of its WRL commands. -/

namespace Sys2Proof.Machine

/-! ## The expansion -/

@[simp] theorem length_loadLimbs (rd : BitVec 4) (vs : List Limb) : ∀ k, (loadLimbs rd k vs).length = vs.length := by
  induction vs with
  | nil => exact fun _ => rfl
  | cons v vs ih => exact fun k => congrArg Nat.succ (ih (k + 1))

/-- Command `j` of the loads from limb `k` on is the WRL of limb `k + j` (R82). -/
theorem getElem?_loadLimbs (rd : BitVec 4) (vs : List Limb) : ∀ k j : Nat,
    (loadLimbs rd k vs)[j]? = vs[j]?.map (.wrl rd (BitVec.ofNat 16 (k + j))) := by
  induction vs with
  | nil => exact fun _ _ => rfl
  | cons v vs ih =>
    intro k j
    cases j with
    | zero => rfl
    | succ j =>
      rw [loadLimbs, List.getElem?_cons_succ, ih, List.getElem?_cons_succ, show k + 1 + j = k + (j + 1) by omega]

theorem expand_ldw {c : Config} (rd : BitVec 4) {vs : List Limb} (h : vs.length = c.limbs) :
    (Pseudo.ldw rd vs).expand c = some (loadLimbs rd 0 vs) := if_pos h

/-! ## The run -/

theorem runAll_cons {i : Instr} {is : List Instr} {s t : State} (h : exec i s = .next t) :
    runAll (i :: is) s = runAll is t := by
  rw [runAll, h]

/-- Writing a register twice leaves the second value. -/
theorem wfile_set_set (f : WFile) (r : WReg) (x y : Wide) : (f.set r x).set r y = f.set r y := by
  cases r <;> rfl

/-- The limb number of a load is the limb it names, since LIMBS is below 2^16 (R8). -/
theorem State.Ready.toNat_limb {s : State} (hs : s.Ready) {k : Nat} (hk : k < s.cfg.limbs) :
    (BitVec.ofNat 16 k).toNat = k := by
  obtain ⟨_, hmax, _⟩ := hs.inv.sound.cfg
  exact Nat.mod_eq_of_lt (by omega)

/-- A command that completes at once leaves a ready state ready. -/
theorem Direct.ready {s t : State} {i : Instr} (h : Direct s i t) (hs : s.Ready) : t.Ready := by
  obtain ⟨hi, _⟩ := h.completes hs.not_fatal
  obtain ⟨_, hfatal, _⟩ := h.frame
  exact ⟨h.inv hs.inv.sound hs.not_fatal, hi, hfatal.trans hs.not_fatal⟩

/-- The state a load leaves: limb `k` of the register is set. -/
def State.loaded (s : State) (d : WReg) (k : Nat) (v : Limb) : State :=
  { s with w := s.w.set d ((s.readW d).set k v) }.reporting .ok 0#64

/-- One load sets its limb, and leaves the block ready for the next. -/
theorem State.Ready.exec_load {s : State} (hs : s.Ready) {rd : BitVec 4} {d : WReg} (hd : selectW rd = some d) {k : Nat}
    (hk : k < s.cfg.limbs) (v : Limb) :
    exec (.wrl rd (BitVec.ofNat 16 k) v) s = .next (s.loaded d k v) ∧ (s.loaded d k v).Ready := by
  have hlimb := hs.toNat_limb hk
  have hload := Direct.wrl (s := s) (idx := BitVec.ofNat 16 k) (data := v) hd (hlimb.symm ▸ hk)
  have hready := hload.ready hs
  have hexec := hload.exec_eq hs.not_fatal
  rw [hlimb, hs.complete_eq (s' := s.writeW d _) rfl rfl rfl rfl] at hready hexec
  exact ⟨hexec, hready⟩

/-- Loads from limb `pre.length` on replace the rest of the register. -/
theorem runAll_loadLimbs {rd : BitVec 4} {d : WReg} (hd : selectW rd = some d) (vs : List Limb) :
    ∀ (v : Limb) (s : State) (pre rest : Wide), s.Ready → s.readW d = pre ++ rest → rest.length = vs.length + 1 →
      runAll (loadLimbs rd pre.length (v :: vs)) s =
        .next ({ s with w := s.w.set d (pre ++ v :: vs) }.reporting .ok 0#64) := by
  induction vs with
  | nil =>
    intro v s pre rest hs hw hlen
    obtain ⟨l, rfl⟩ := List.length_eq_one_iff.mp hlen
    have hk : pre.length < s.cfg.limbs := by
      rw [← hs.inv.length_readW d, hw, List.length_append, hlen]
      exact Nat.lt_succ_self _
    have hset : (s.readW d).set pre.length v = pre ++ [v] := by simp [hw]
    rw [loadLimbs, runAll_cons (hs.exec_load hd hk v).1, ← hset]
    rfl
  | cons v' vs ih =>
    intro v s pre rest hs hw hlen
    obtain ⟨l, rest, rfl⟩ := List.exists_cons_of_length_eq_add_one hlen
    have hk : pre.length < s.cfg.limbs := by
      rw [← hs.inv.length_readW d, hw, List.length_append, hlen]
      omega
    obtain ⟨hload, hready⟩ := hs.exec_load hd hk v
    have hread : (s.loaded d pre.length v).readW d = pre ++ [v] ++ rest := by
      rw [show (s.loaded d pre.length v).readW d = (s.readW d).set pre.length v from wfile_get_set_same _ _ _, hw]
      simp
    have hnext := ih v' (s.loaded d pre.length v) (pre ++ [v]) rest hready hread (Nat.succ.inj hlen)
    rw [List.length_append, List.length_singleton, List.append_assoc] at hnext
    rw [loadLimbs, runAll_cons hload, hnext]
    exact congrArg (fun w => Host.Outcome.next (State.reporting { s with w := w } .ok 0#64)) (wfile_set_set s.w d _ _)

/-- Loads into a register that does not exist report BAD_REGISTER, each of them. -/
theorem runAll_loadLimbs_bad {rd : BitVec 4} (hd : selectW rd = none) (vs : List Limb) :
    ∀ (k : Nat) (v : Limb) (s : State), s.Ready →
      runAll (loadLimbs rd k (v :: vs)) s = .next (s.reporting .badRegister 0#64) := by
  have hload (k : Nat) (v : Limb) {s : State} (hs : s.Ready) :
      exec (.wrl rd (BitVec.ofNat 16 k) v) s = .next (s.reporting .badRegister 0#64) :=
    firstFailingCheckDecidesTheStatus s _ _ hs (firstCheckFailed_of_register List.mem_cons_self hd s)
  induction vs with
  | nil => exact fun k v s hs => runAll_cons (hload k v hs)
  | cons v' vs ih =>
    intro k v s hs
    rw [loadLimbs, runAll_cons (hload k v hs), ih (k + 1) v' _ (hs.reporting (by decide) _)]
    rfl

/-- Settles O59: the loads replace the register limb by limb, and the other expansions are as listed. -/
theorem pseudoInstructionsExpandAsListed : Obligations.PseudoInstructionsExpandAsListed := by
  have nonempty {s : State} (hs : s.Ready) {vs : List Limb} (hvs : vs.length = s.cfg.limbs) :
      ∃ v vs', vs = v :: vs' :=
    List.exists_cons_of_length_pos (hvs ▸ hs.inv.sound.cfg.1)
  refine ⟨fun s rd d vs hs hd hvs => ?load, fun s rd vs hs hrd hvs => ?bad, fun c rd vs hvs => ?commands,
    fun c rd vs hne => if_neg hne, fun c => ?others⟩
  case load =>
    refine ⟨_, expand_ldw rd hvs, (length_loadLimbs ..).trans hvs, ?_⟩
    obtain ⟨v, vs, rfl⟩ := nonempty hs hvs
    exact runAll_loadLimbs hd vs v s [] (s.readW d) hs rfl ((hs.inv.length_readW d).trans hvs.symm)
  case bad =>
    refine ⟨_, expand_ldw rd hvs, ?_⟩
    obtain ⟨v, vs, rfl⟩ := nonempty hs hvs
    exact runAll_loadLimbs_bad ((selectW_eq_none rd).mpr hrd) vs 0 v s hs
  case commands =>
    refine ⟨_, expand_ldw rd hvs, (length_loadLimbs ..).trans hvs, fun k v hv => ?_⟩
    rw [getElem?_loadLimbs, hv, Nat.zero_add]
    rfl
  case others => exact ⟨fun _ => rfl, rfl, rfl, rfl, rfl, rfl, rfl, fun _ => rfl, rfl, rfl⟩

end Sys2Proof.Machine
end
